-- ==== Sys2Proof/Word.lean ====
section
/-! DEFINITION. The two bit-vector types of the engine: 32-bit registers (R8, R30) and 8-bit memory bytes (R9, R80). -/

namespace Sys2Proof

/-- A register value, an address held in a register, a command word: 32 bits (R8, R30). -/
abbrev Word := BitVec 32

/-- One byte of the shared memory (R9, R80). -/
abbrev Byte := BitVec 8

end Sys2Proof
end

