-- ==== Sys2Proof/Machine/Memory.lean ====
section
/-! DEFINITION. Sparse data by key in one canonical form, and the shared memory (R62, R80, R87) as such data. -/

namespace Sys2Proof.Machine

/-- The value at a key, `d` where none is listed. -/
def Sparse.get {α : Type} (d : α) : List (Nat × α) → Nat → α
  | [], _ => d
  | (k, v) :: m, a => if a = k then v else Sparse.get d m a

/-- Set the value at a key, keeping the keys rising and listing no entry equal to `d`. -/
def Sparse.set {α : Type} [DecidableEq α] (d : α) : List (Nat × α) → Nat → α → List (Nat × α)
  | [], a, v => if v = d then [] else [(a, v)]
  | (k, w) :: m, a, v =>
    if a < k then (if v = d then (k, w) :: m else (a, v) :: (k, w) :: m)
    else if a = k then (if v = d then m else (a, v) :: m)
    else (k, w) :: Sparse.set d m a v

/-- The canonical form: keys strictly rising, no entry equal to `d`. -/
abbrev Sparse.wf {α : Type} (d : α) (m : List (Nat × α)) : Prop :=
  m.Pairwise (fun x y => x.1 < y.1) ∧ ∀ c ∈ m, c.2 ≠ d

/-- The shared memory: the bytes that differ from `Memory.unlisted`. -/
abbrev Memory := List Host.Cell

/-- What a byte nothing has written reads as. R272 leaves the power-on content open; 95_test_vectors.md section 0 starts
every vector with 0. DESIGN CHOICE (unsafe for statements about `State.reset` alone), assumption 2. -/
def Memory.unlisted : Byte := 0

/-- The byte at an address (R80, R87). -/
def Memory.read (m : Memory) (a : Nat) : Byte := Sparse.get Memory.unlisted m a

/-- Write one byte: only that byte changes (R87). -/
def Memory.write (m : Memory) (a : Nat) (v : Byte) : Memory := Sparse.set Memory.unlisted m a v

/-- Write the cells of a list, first to last. -/
def Memory.writeCells (m : Memory) : List Host.Cell → Memory
  | [] => m
  | c :: cs => Memory.writeCells (Memory.write m c.1 c.2) cs

/-- The `n` bytes `[a, a + n)` in increasing address order (R10, R12). -/
def Memory.bytes (m : Memory) (a : Nat) : Nat → List Byte
  | 0 => []
  | n + 1 => Memory.read m a :: Memory.bytes m (a + 1) n

/-- The canonical form of a memory. -/
abbrev Memory.wf (m : Memory) : Prop := Sparse.wf Memory.unlisted m

/-- The cells of a byte sequence laid out from address `a` on (R12: byte `i` at `a + i`). -/
def cellsAt (a : Nat) : List Byte → List Host.Cell
  | [] => []
  | b :: bs => (a, b) :: cellsAt (a + 1) bs

/-- The value a list of cells gives an address, if it names it. -/
def cellValue? : List Host.Cell → Nat → Option Byte
  | [], _ => none
  | (k, v) :: cs, a => if a = k then some v else cellValue? cs a

/-- `InMem(a, n)` on unbounded naturals, no wrap (R83). -/
def inMem (memSize a n : Nat) : Bool := decide (a + n ≤ memSize)

end Sys2Proof.Machine
end

