-- ==== Sys2Proof/Syntax.lean ====
section
/-! DEFINITION. The commands of the opcode table (R113), the names of the register window (R30), and the host's bus
operations (R119, R210, R223). -/

namespace Sys2Proof

/-- The twelve commands of R113, one constructor per row of spec/opcode_table.json. A command word has no operand
field (R111), so no constructor has an argument: every operand is an engine register. -/
inductive Instr where
  | nop
  | crcInit
  | crcUpdate
  | checksum
  | verify
  | regenerate
  | lenDecode
  | tagExtract
  | payload
  | next
  | frame
  | append
  deriving DecidableEq, Repr

/-- The registers of one engine's window, in the order of R30's map. -/
inductive Reg where
  | cmd | status | irqEn
  | addr | len | dstAddr | dstAvail
  | crcAcc | crcResult | length | tag | flags
  | payloadAddr | payloadLen | nextAddr | nextAvail | storedCrc
  deriving DecidableEq, Repr

/-- The places of a command's pseudocode that read memory (R86 (a): a byte's value is chosen anew for each time the
rules read it). -/
inductive ReadSite where
  | length   -- the length field, `be32(MemRead(A, 4))` (R171, R173)
  | tag      -- the type tag, `be32(MemRead(A + 4, 4))` (R174, R182)
  | data     -- the bytes a CRC consumes or APPEND copies (R146, R147, R148, R183)
  | stored   -- the stored CRC, `be32(MemRead(A + 8 + L, 4))` (R149, R182)
  deriving DecidableEq, Repr

/-- An operand of a host operation: a 32-bit value or a host variable `hN` (R119). -/
inductive HostVal where
  | lit (v : Word)
  | var (n : Nat)
  deriving DecidableEq, Repr

/-- The host's bus operations (R119, R210, R223). A register access names a bus address and a width in bytes, so that
the accesses R98 leaves without meaning can be written down (and are refused). Host variable 0 is R120's `ht`. -/
inductive HostOp where
  /-- `RD <reg> -> hN`. -/
  | regRead (busAddr width dst : Nat)
  /-- `WR <reg>, <v>`. -/
  | regWrite (busAddr width : Nat) (v : HostVal)
  /-- `MEMR <a>, <n> -> <name>`, the name a number. DESIGN CHOICE (assumption 25): R119 types `<v>` alone; here `<a>` and
  `<n>` may be a value or a host variable as well. -/
  | memRead (a n : HostVal) (dst : Nat)
  /-- `MEMW <a>, <b0> <b1> ...`. DESIGN CHOICE (assumption 25): `<a>` may be a value or a host variable, and the bytes are
  byte values written out. -/
  | memWrite (a : HostVal) (bytes : List Byte)
  /-- `WAIT` on the engine whose window is at `base`: reads STATUS into `ht` until BUSY is 0 (R120, R224). At a base that is
  no engine's REG_BASE: assumption 26. -/
  | wait (base : Nat)
  deriving DecidableEq, Repr

end Sys2Proof
end

