-- ==== Sys2Proof/Config.lean ====
section
/-! DEFINITION. What is fixed for a platform (the values the OPEN parameters of R8 have in `State.reset`) and the free
values: the draws of R60, R86 and R271, as constants without a body, so that nothing can be proved of a drawn value but
what the rule says. -/

namespace Sys2Proof.Config

/-- MEM_SIZE in the reset state. The parameter is OPEN (R8, D4); this is the value of every vector of
95_test_vectors.md. DESIGN CHOICE, assumption 1. Statements quantify over `State.memSize`. -/
def memSizeAtReset : Nat := 0x10000

/-- REG_BASE of the one engine (N_ENGINES = 1, R8's default) in the reset state. DESIGN CHOICE, assumption 1. -/
def regBaseAtReset : Nat := 0

/-- R86 (a): which of the values a byte held during the command a read of it returns. Arguments: the command's epoch,
the place of the pseudocode, the address. Free value, assumption 4. -/
opaque readChoice : Nat → ReadSite → Nat → Nat

/-- R86 (b): which allowed value a host load of a byte of an in-flight command's write set returns. Arguments: the
number of the event, the address. Free value, assumption 5. -/
opaque hostReadChoice : Nat → Nat → Nat

/-- R86 (c): whether the command's value (true) or the other agent's stays in a byte both wrote. Arguments: the
command's epoch, the address. Free value, assumption 6. -/
opaque commandWins : Nat → Nat → Bool

/-- R271: whether a byte of an abandoned command's write set holds the command's value (true) or its value from before
the acceptance. Arguments: the number of the reset event, the address. Free value, assumption 7. -/
opaque resetChoice : Nat → Nat → Bool

/-- R60: the unspecified value of a register read while BUSY = 1. Argument: the number of the event. Free value,
assumption 3. -/
opaque busyRegRead : Nat → Word

end Sys2Proof.Config
end

