-- ==== Sys2Proof/Machine/State.lean ====
section
/-! DEFINITION. The machine's state as plain data: the engines with their registers and in-flight command (R31, R61), the
shared memory (R62), what the host holds (R119, R284), and which agent moves next. -/

namespace Sys2Proof.Machine

/-- The codes of STATUS.ERR (R230); codes 8–15 are never produced, so the type has no value for them (4 bits when read,
`ErrorCode.code`). -/
inductive ErrorCode where
  | ok | truncated | chunkTooLarge | checksumMismatch | busError | outputOverflow | overlap | illegalCommand
  deriving DecidableEq, Repr

/-- A store made while a command is in flight, as the command takes note of it (R86). -/
structure StoreNote where
  /-- The byte stored to. -/
  addr : Nat
  /-- The value it held until then. -/
  old : Byte
  /-- The store is the command's own (R222), not another agent's. -/
  own : Bool
  deriving DecidableEq, Repr

/-- A byte read a command has made at a place of its pseudocode (R61: partial progress through its memory accesses). -/
structure MadeRead where
  site : ReadSite
  addr : Nat
  value : Byte
  deriving DecidableEq, Repr

/-- The in-flight command state of R61. The accepted word is CMD. -/
structure InFlight where
  /-- The snapshot of ADDR, LEN, DST_ADDR, DST_AVAIL and CRC_ACC taken at acceptance. -/
  addr : Word
  len : Word
  dstAddr : Word
  dstAvail : Word
  crcAcc : Word
  /-- Which draws are this command's own (the model's: the number of the event that accepted it). -/
  epoch : Nat
  /-- The stores of all agents made during the command, oldest first, and so the values bytes held earlier in it (R86). -/
  held : List StoreNote
  /-- Partial progress: the reads the command has made, earliest first (R61, R222). A read is made, at the latest, when
  something that rests on it is stored; the others are made at completion. -/
  reads : List MadeRead
  deriving DecidableEq, Repr

/-- One engine: R31's complete list. BUSY is not a field of its own: it is 1 exactly while a command is in flight (R40),
`Engine.busy`. CRC_RESULT, FLAGS and IRQ are derived (R31). -/
structure Engine where
  /-- REG_BASE, the parameter that identifies the engine (R8, R251). No step writes it. -/
  regBase : Nat
  cmd : Word
  addr : Word
  len : Word
  dstAddr : Word
  dstAvail : Word
  crcAcc : Word
  length : Word
  tag : Word
  payloadAddr : Word
  payloadLen : Word
  nextAddr : Word
  nextAvail : Word
  storedCrc : Word
  /-- STATUS.DONE. -/
  done : Bool
  /-- STATUS.MATCH. -/
  matched : Bool
  /-- STATUS.OVR. -/
  ovr : Bool
  /-- STATUS.ERR. -/
  err : ErrorCode
  /-- IRQ_EN.DONE_IE. -/
  doneIe : Bool
  /-- The in-flight command; `some` exactly while STATUS.BUSY = 1. -/
  inflight : Option InFlight
  deriving DecidableEq, Repr

/-- One step of one agent (R5, R220, R270). -/
inductive Event where
  /-- The host performs a bus operation. -/
  | host (op : HostOp)
  /-- Engine `k` takes its completion step (R222). -/
  | complete (k : Nat)
  /-- Engine `k` makes its store to byte `a` before its completion step (R222: the accesses may be spread). -/
  | storeEarly (k a : Nat)
  /-- The reset input of engine `k` is asserted (R270, R271). -/
  | reset (k : Nat)
  deriving DecidableEq, Repr

/-- A byte that the host has loaded while commands that may write it are in flight. R86 (b) fixes the value it got by what
those commands turn out to write. -/
structure PendingLoad where
  /-- The number of the event of the load: which draw is its own. -/
  event : Nat
  addr : Nat
  /-- Memory's byte at the load: what the host got if none of the commands writes the byte. -/
  seen : Byte
  /-- The engines of those commands that have not ended. -/
  waits : List Nat
  /-- For each of those that have ended and write the byte, the two values R86 (b) allows. -/
  allowed : List (List Byte)
  deriving DecidableEq, Repr

/-- A byte that the host has loaded. -/
inductive LoadedByte where
  | known (b : Byte)
  | pending (p : PendingLoad)
  deriving DecidableEq, Repr

structure State where
  /-- MEM_SIZE, a parameter (R8). No step writes it. -/
  memSize : Nat
  /-- The N_ENGINES engines (R8, R251). -/
  engines : List Engine
  /-- The shared memory (R62, R80), in the canonical form of `Memory.wf`. -/
  mem : List Host.Cell
  /-- The host variables `hN` of R119 in the form of `Sparse.wf 0` (0 is `ht`). -/
  vars : List (Nat × Word)
  /-- The byte sequences host loads have named (R119's MEMR), in the form of `Sparse.wf []`. -/
  bufs : List (Nat × List LoadedByte)
  /-- The steps the agents take next, first to last (the model's: the schedule as plain data). -/
  agenda : List Event
  /-- The engine whose completion step `exec` performs (the model's). -/
  current : Nat
  /-- How many events have been taken (the model's): the argument that makes each draw of a free value its own. -/
  draws : Nat
  deriving DecidableEq, Repr

/-- Accesses the spec leaves undefined on the shared memory. No command raises one: every command checks its ranges and
raises BUS_ERROR instead (R233). -/
inductive Fault where
  /-- Raised by a host load of bytes not all in memory (R12: MemRead is defined only when `a + n <= MEM_SIZE`). Safe. -/
  | hostLoadOutsideMemory
  /-- Raised by a host store of bytes not all in memory (R12). Nothing is stored. Safe. -/
  | hostStoreOutsideMemory
  deriving DecidableEq, Repr

/-- Host steps without a meaning. No command raises one. -/
inductive Refusal where
  /-- An instruction of the table without a meaning yet: raised by no arm of this model. Safe. -/
  | notModelled (mnemonic : String)
  /-- Raised by a host register access that is not 32 bits wide (R98: a model refuses it). Safe. -/
  | registerAccessWidth
  /-- Raised by a host register access that is not 4-byte aligned (R98: a model refuses it). Safe. -/
  | registerAccessMisaligned
  /-- Raised by a host register access whose bus address lies in no engine's window: the rest of the bus is the
  platform's (R88, R252). Safe. -/
  | noRegisterWindow
  deriving DecidableEq, Repr

/-- An engine in the state of R270, for the window at `base`. -/
def Engine.reset (base : Nat) : Engine where
  regBase := base
  cmd := 0
  addr := 0
  len := 0
  dstAddr := 0
  dstAvail := 0
  crcAcc := 0xFFFFFFFF
  length := 0
  tag := 0
  payloadAddr := 0
  payloadLen := 0
  nextAddr := 0
  nextAvail := 0
  storedCrc := 0
  done := false
  matched := false
  ovr := false
  err := .ok
  doneIe := false
  inflight := none

/-- Power-on: one engine in the state of R270, memory with nothing listed, nothing scheduled (R273: the engine takes no
step until the host writes CMD). The parameters' values are assumption 1, the memory's assumption 2. -/
def State.reset : State where
  memSize := Config.memSizeAtReset
  engines := [Engine.reset Config.regBaseAtReset]
  mem := []
  vars := []
  bufs := []
  agenda := []
  current := 0
  draws := 0

end Sys2Proof.Machine
end

