-- ==== Sys2Proof/Machine/Operands.lean ====
section
/-! DEFINITION. The operand forms: what a command in flight reads. Every operand is a register of the snapshot (R61, R111,
R112) or a byte range of the memory, read as R86 (a) says. Byte order: R17, R82. -/

namespace Sys2Proof.Machine

/-- STATUS.BUSY (R40). -/
def Engine.busy (e : Engine) : Bool := e.inflight.isSome

/-- `be32` of four bytes, lowest address first (R17). -/
def be32 (b0 b1 b2 b3 : Byte) : Word := b0 ++ b1 ++ b2 ++ b3

/-- `be32_bytes` (R17). -/
def be32Bytes (v : Word) : List Byte :=
  [v.extractLsb' 24 8, v.extractLsb' 16 8, v.extractLsb' 8 8, v.extractLsb' 0 8]

/-- What a command's pseudocode can see: the memory and the command's own in-flight state. -/
structure View where
  mem : Memory
  memSize : Nat
  fl : InFlight
  deriving DecidableEq, Repr

/-- The view of the command `f` in the state `s`. -/
def State.view (s : State) (f : InFlight) : View := { mem := s.mem, memSize := s.memSize, fl := f }

/-- `x[ADDR]` of the snapshot, as a natural number (R9). -/
def View.addr (v : View) : Nat := v.fl.addr.toNat
/-- `x[LEN]` of the snapshot. -/
def View.len (v : View) : Nat := v.fl.len.toNat
/-- `x[DST_ADDR]` of the snapshot. -/
def View.dstAddr (v : View) : Nat := v.fl.dstAddr.toNat
/-- `x[DST_AVAIL]` of the snapshot. -/
def View.dstAvail (v : View) : Nat := v.fl.dstAvail.toNat

/-- The values the byte at `a` held earlier in the command, oldest first. -/
def InFlight.heldAt (f : InFlight) (a : Nat) : List Byte := (f.held.filter (fun n => n.addr == a)).map (·.old)

/-- Another agent has stored to the byte at `a` during the command (R86 (c)). -/
def InFlight.racedAt (f : InFlight) (a : Nat) : Bool := f.held.any fun n => n.addr == a && !n.own

/-- The value of the first read listed at a place and address. -/
def madeRead? : List MadeRead → ReadSite → Nat → Option Byte
  | [], _, _ => none
  | r :: rs, site, a => if r.site = site ∧ r.addr = a then some r.value else madeRead? rs site a

/-- A read made now: the memory's byte when no agent has stored to `a` during the command, else a draw among the values
it held and holds (R86 (a)). -/
def View.readNow (v : View) (site : ReadSite) (a : Nat) : Byte :=
  match v.fl.heldAt a with
  | [] => Memory.read v.mem a
  | olds => olds.getD (Config.readChoice v.fl.epoch site a) (Memory.read v.mem a)

/-- The byte at `a` as the command reads it at a place of its pseudocode: what it has read there, or a read made now. -/
def View.read (v : View) (site : ReadSite) (a : Nat) : Byte :=
  (madeRead? v.fl.reads site a).getD (v.readNow site a)

/-- `MemRead(a, n)` (R12). -/
def View.bytes (v : View) (site : ReadSite) (a : Nat) : Nat → List Byte
  | 0 => []
  | n + 1 => v.read site a :: v.bytes site (a + 1) n

/-- `be32(MemRead(a, 4))`. -/
def View.read32 (v : View) (site : ReadSite) (a : Nat) : Word :=
  be32 (v.read site a) (v.read site (a + 1)) (v.read site (a + 2)) (v.read site (a + 3))

/-- The decoded length, `be32(MemRead(x[ADDR], 4))` (R171). -/
def View.lengthField (v : View) : Word := v.read32 .length v.addr

/-- `ChunkCrcInput(A, L)` (R148): the type tag and the payload. -/
def View.chunkCrcInput (v : View) (l : Nat) : List Byte := v.bytes .data (v.addr + 4) (4 + l)

/-- The stored CRC of the chunk, `be32(MemRead(A + 8 + L, 4))` (R148). -/
def View.storedCrcField (v : View) (l : Nat) : Word := v.read32 .stored (v.addr + 8 + l)

end Sys2Proof.Machine
end

