-- ==== Sys2Proof/Machine/Flags.lean ====
section
/-! DEFINITION. The derived registers and the words the host reads: FLAGS (R50–R53), CRC_RESULT (R47), STATUS (R39),
IRQ_EN (R45) and the interrupt line (R63). -/

namespace Sys2Proof.Machine

/-- A word with bit 0 equal to `b`, all others 0. -/
def bit (b : Bool) : Word := if b then 1 else 0

/-- FLAGS.ANCILLARY = TAG[29] (R51). -/
def tagAncillary (tag : Word) : Bool := tag.getLsbD 29
/-- FLAGS.PRIVATE = TAG[13] (R52). -/
def tagPrivate (tag : Word) : Bool := tag.getLsbD 13
/-- FLAGS.SAFE_TO_COPY = TAG[5] (R53). -/
def tagSafeToCopy (tag : Word) : Bool := tag.getLsbD 5

/-- FLAGS, computed from TAG at each read (R50). -/
def Engine.flags (e : Engine) : Word :=
  bit (tagAncillary e.tag) ||| bit (tagPrivate e.tag) <<< 1 ||| bit (tagSafeToCopy e.tag) <<< 2

/-- CRC_RESULT = CRC_ACC XOR 0xFFFF_FFFF (R47). -/
def Engine.crcResult (e : Engine) : Word := e.crcAcc ^^^ 0xFFFFFFFF

/-- The numeric code of R230. -/
def ErrorCode.code : ErrorCode → BitVec 4
  | .ok => 0
  | .truncated => 1
  | .chunkTooLarge => 2
  | .checksumMismatch => 3
  | .busError => 4
  | .outputOverflow => 5
  | .overlap => 6
  | .illegalCommand => 7

/-- STATUS as the host reads it (R39). -/
def Engine.status (e : Engine) : Word :=
  bit e.busy ||| bit e.done <<< 1 ||| bit e.matched <<< 2 ||| bit e.ovr <<< 3 ||| e.err.code.setWidth 32 <<< 8

/-- IRQ_EN as the host reads it (R45). -/
def Engine.irqEn (e : Engine) : Word := bit e.doneIe

/-- The interrupt line, DONE AND DONE_IE, derived and never stored (R63, R243). -/
def Engine.irq (e : Engine) : Bool := e.done && e.doneIe

end Sys2Proof.Machine
end

