-- ==== Sys2Proof/Machine/Ops.lean ====
section
/-! DEFINITION. The shared operations: storing to the shared memory, the checks every command uses (R140, R171, R233),
accepting a command (R214), and the one completion step (R222), with the raising of an error (R231) in it. -/

namespace Sys2Proof.Machine

/-! ### Storing -/

/-- The note of a store to the bytes of `cells`, made by the command itself or not. -/
def storeNotes (mem : Memory) (own : Bool) (cells : List Host.Cell) : List StoreNote :=
  cells.map fun c => { addr := c.1, old := Memory.read mem c.1, own := own }

/-- An in-flight command takes note of stores (R86). -/
def Engine.witness (notes : List StoreNote) (e : Engine) : Engine :=
  match e.inflight with
  | none => e
  | some f => { e with inflight := some { f with held := f.held ++ notes } }

/-- A store of some agent to the shared memory: the bytes change, and every command in flight takes note of it as another
agent's. -/
def State.store (s : State) (cells : List Host.Cell) : State :=
  { s with
    mem := Memory.writeCells s.mem cells
    engines := s.engines.map (Engine.witness (storeNotes s.mem false cells)) }

/-- Replace engine `k`. -/
def State.setEngine (s : State) (k : Nat) (e : Engine) : State := { s with engines := s.engines.set k e }

/-! ### What a command's pseudocode comes to -/

/-- How pseudocode that did not raise ends (R13, R222): the engine with the result registers written, the bytes to
write, and the code (OK, or CHECKSUM_MISMATCH for R150's outcome). -/
structure Finish where
  regs : Engine
  writes : List Host.Cell
  code : ErrorCode
  deriving DecidableEq, Repr

/-- A command's pseudocode, run on a view: it raised an error code (R231), or it ended. -/
abbrev Plan := Except ErrorCode Finish

/-- `finish` (R13) with the result registers written. -/
def finish (regs : Engine) : Plan := .ok { regs := regs, writes := [], code := .ok }

/-- `finish` of a command that writes memory. -/
def finishStoring (regs : Engine) (writes : List Host.Cell) : Plan :=
  .ok { regs := regs, writes := writes, code := .ok }

/-- VERIFY's mismatch outcome (R150). -/
def finishMismatch (regs : Engine) : Plan := .ok { regs := regs, writes := [], code := .checksumMismatch }

/-! ### The checks -/

/-- The length ceiling `LEN_MAX` (R6). -/
def lenMax : Nat := 0x80000000

/-- `SrcCheck` (R140, R233). -/
def srcCheck (v : View) : Except ErrorCode Unit :=
  if inMem v.memSize v.addr v.len then .ok () else .error .busError

/-- APPEND's test of the destination window (R183, R233). -/
def dstCheck (v : View) : Except ErrorCode Unit :=
  if inMem v.memSize v.dstAddr v.dstAvail then .ok () else .error .busError

/-- TRUNCATED for a slice shorter than the field read (R232). -/
def lenAtLeast (n : Nat) (v : View) : Except ErrorCode Unit :=
  if v.len < n then .error .truncated else .ok ()

/-- `FrameCheck` (R171). -/
def frameCheck (v : View) : Except ErrorCode Nat :=
  if v.len < 4 then .error .truncated
  else if v.lengthField.toNat > lenMax then .error .chunkTooLarge
  else if v.len < v.lengthField.toNat + 12 then .error .truncated
  else .ok v.lengthField.toNat

/-! ### Acceptance and completion -/

/-- Acceptance of the word `w` (R214): CMD takes it, BUSY is set, DONE cleared, and the operands are snapshotted (R61).
`epoch` names the command's draws. -/
def Engine.accept (e : Engine) (w : Word) (epoch : Nat) : Engine :=
  { e with
    cmd := w
    done := false
    inflight := some
      { addr := e.addr, len := e.len, dstAddr := e.dstAddr, dstAvail := e.dstAvail, crcAcc := e.crcAcc
        epoch := epoch, held := [], reads := [] } }

/-- R222 (3) and (4): BUSY <- 0, DONE <- 1, ERR <- the code. -/
def Engine.endCommand (e : Engine) (code : ErrorCode) : Engine :=
  { e with inflight := none, done := true, err := code }

/-- The bytes that a finished command leaves in its write set: its own values, but a draw between its value and the
byte's present one where another agent stored to the byte during the command (R86 (c)). -/
def settle (mem : Memory) (f : InFlight) (writes : List Host.Cell) : List Host.Cell :=
  writes.map fun c =>
    if !f.racedAt c.1 || Config.commandWins f.epoch c.1 then c else (c.1, Memory.read mem c.1)

/-- Raising an error, the one exception of this machine (R222 (3), R231, R240): only STATUS is written. -/
def State.raise (s : State) (k : Nat) (e : Engine) (code : ErrorCode) : State :=
  s.setEngine k (e.endCommand code)

/-- Completion of engine `k`'s command: the error is raised, or the registers and the memory are written (R222). -/
def State.commit (s : State) (k : Nat) (e : Engine) (f : InFlight) : Plan → State
  | .error code => s.raise k e code
  | .ok fin => (s.setEngine k (fin.regs.endCommand fin.code)).store (settle s.mem f fin.writes)

/-- The completion step of the current engine with the pseudocode `plan` (R222). An idle engine takes no step and
touches no memory (R220). -/
def complete (plan : View → Engine → Plan) (s : State) : Host.Outcome State Fault Refusal :=
  match s.engines[s.current]? with
  | none => .next s
  | some e =>
    match e.inflight with
    | none => .next s
    | some f => .next (s.commit s.current e f (plan (s.view f) e))

/-- The pseudocode of a word that is no command (R238): it raises ILLEGAL_COMMAND and reads nothing. -/
def planIllegal (_ : View) (_ : Engine) : Plan := .error .illegalCommand

/-- The completion of a word that is no command. -/
def completeIllegal (s : State) : Host.Outcome State Fault Refusal := complete planIllegal s

end Sys2Proof.Machine
end

