-- ==== Sys2Proof/Machine/Control.lean ====
section
/-! DEFINITION. NOP (42_host_access.md R219). -/

namespace Sys2Proof.Machine

/-- NOP (R219): reads no operand, writes nothing besides STATUS at completion. -/
def planNop (_ : View) (e : Engine) : Plan := finish e

def execNop (s : State) : Host.Outcome State Fault Refusal := complete planNop s

end Sys2Proof.Machine
end

