-- ==== Sys2Proof/Machine/Crc.lean ====
section
/-! DEFINITION. The CRC register (R141, R142) and the checksum family: CRC_INIT, CRC_UPDATE, CHECKSUM, VERIFY,
REGENERATE (40_crc.md). -/

namespace Sys2Proof.Machine

/-- The reflected polynomial (R7, R141). -/
def crcPoly : Word := 0xEDB88320

/-- The CRC's initial value (R7, R142). -/
def crcInit : Word := 0xFFFFFFFF

/-- One of R141's eight repetitions. -/
def crcBit (acc : Word) : Word :=
  if acc.getLsbD 0 then (acc >>> 1) ^^^ crcPoly else acc >>> 1

/-- `n` repetitions. -/
def crcBits : Nat → Word → Word
  | 0, acc => acc
  | n + 1, acc => crcBits n (crcBit acc)

/-- One byte, least significant bit first (R141). -/
def crcByte (acc : Word) (b : Byte) : Word := crcBits 8 (acc ^^^ b.setWidth 32)

/-- `crc_update(acc, s)` (R141). -/
def crcUpdate (acc : Word) : List Byte → Word
  | [] => acc
  | b :: bs => crcUpdate (crcByte acc b) bs

/-- `crc32(s)` (R142). -/
def crc32 (s : List Byte) : Word := crcUpdate crcInit s ^^^ 0xFFFFFFFF

/-- CRC_INIT (R145). -/
def planCrcInit (_ : View) (e : Engine) : Plan := finish { e with crcAcc := crcInit }

def execCrcInit (s : State) : Host.Outcome State Fault Refusal := complete planCrcInit s

/-- CRC_UPDATE (R146): continues from the snapshotted CRC_ACC. -/
def planCrcUpdate (v : View) (e : Engine) : Plan := do
  srcCheck v
  finish { e with crcAcc := crcUpdate v.fl.crcAcc (v.bytes .data v.addr v.len) }

def execCrcUpdate (s : State) : Host.Outcome State Fault Refusal := complete planCrcUpdate s

/-- CHECKSUM (R147). -/
def planChecksum (v : View) (e : Engine) : Plan := do
  srcCheck v
  finish { e with crcAcc := crcUpdate crcInit (v.bytes .data v.addr v.len) }

def execChecksum (s : State) : Host.Outcome State Fault Refusal := complete planChecksum s

/-- VERIFY (R149, R150). -/
def planVerify (v : View) (e : Engine) : Plan := do
  srcCheck v
  let l ← frameCheck v
  let acc := crcUpdate crcInit (v.chunkCrcInput l)
  let c := acc ^^^ 0xFFFFFFFF
  let stored := v.storedCrcField l
  let written := { e with length := BitVec.ofNat 32 l, crcAcc := acc, storedCrc := stored }
  if c = stored then finish { written with matched := true }
  else finishMismatch { written with matched := false }

def execVerify (s : State) : Host.Outcome State Fault Refusal := complete planVerify s

/-- REGENERATE (R151). -/
def planRegenerate (v : View) (e : Engine) : Plan := do
  srcCheck v
  let l ← frameCheck v
  let acc := crcUpdate crcInit (v.chunkCrcInput l)
  let c := acc ^^^ 0xFFFFFFFF
  finishStoring { e with length := BitVec.ofNat 32 l, crcAcc := acc, storedCrc := c }
    (cellsAt (v.addr + 8 + l) (be32Bytes c))

def execRegenerate (s : State) : Host.Outcome State Fault Refusal := complete planRegenerate s

end Sys2Proof.Machine
end

