-- ==== Sys2Proof/Machine/Frame.lean ====
section
/-! DEFINITION. The chunk-frame family: LEN_DECODE, TAG_EXTRACT, PAYLOAD, NEXT, FRAME, APPEND (41_frame.md). -/

namespace Sys2Proof.Machine

/-- LEN_DECODE (R173): no ceiling test, no test against LEN beyond the 4 bytes. -/
def planLenDecode (v : View) (e : Engine) : Plan := do
  srcCheck v
  lenAtLeast 4 v
  finish { e with length := v.lengthField }

def execLenDecode (s : State) : Host.Outcome State Fault Refusal := complete planLenDecode s

/-- TAG_EXTRACT (R174). -/
def planTagExtract (v : View) (e : Engine) : Plan := do
  srcCheck v
  lenAtLeast 8 v
  finish { e with tag := v.read32 .tag (v.addr + 4) }

def execTagExtract (s : State) : Host.Outcome State Fault Refusal := complete planTagExtract s

/-- PAYLOAD (R175), and its mutable variant (R176). -/
def planPayload (v : View) (e : Engine) : Plan := do
  srcCheck v
  let l ← frameCheck v
  finish { e with
    length := BitVec.ofNat 32 l
    payloadAddr := BitVec.ofNat 32 (v.addr + 8)
    payloadLen := BitVec.ofNat 32 l }

def execPayload (s : State) : Host.Outcome State Fault Refusal := complete planPayload s

/-- NEXT (R181). -/
def planNext (v : View) (e : Engine) : Plan := do
  srcCheck v
  let l ← frameCheck v
  finish { e with
    length := BitVec.ofNat 32 l
    nextAddr := BitVec.ofNat 32 (v.addr + l + 12)
    nextAvail := BitVec.ofNat 32 (v.len - (l + 12)) }

def execNext (s : State) : Host.Outcome State Fault Refusal := complete planNext s

/-- FRAME (R182). -/
def planFrame (v : View) (e : Engine) : Plan := do
  srcCheck v
  let l ← frameCheck v
  finish { e with
    length := BitVec.ofNat 32 l
    tag := v.read32 .tag (v.addr + 4)
    payloadAddr := BitVec.ofNat 32 (v.addr + 8)
    payloadLen := BitVec.ofNat 32 l
    nextAddr := BitVec.ofNat 32 (v.addr + l + 12)
    nextAvail := BitVec.ofNat 32 (v.len - (l + 12))
    storedCrc := v.storedCrcField l }

def execFrame (s : State) : Host.Outcome State Fault Refusal := complete planFrame s

/-- The source record `[a, a + n)` and the destination `[d, d + n)` share a byte (R184). -/
def rangesOverlap (a d n : Nat) : Bool := decide (a < d + n) && decide (d < a + n)

/-- OUTPUT_OVERFLOW and OVERLAP, in R183's order. -/
def appendCheck (v : View) (n : Nat) : Except ErrorCode Unit :=
  if v.dstAvail < n then .error .outputOverflow
  else if rangesOverlap v.addr v.dstAddr n then .error .overlap
  else .ok ()

/-- APPEND (R183). -/
def planAppend (v : View) (e : Engine) : Plan := do
  srcCheck v
  dstCheck v
  let l ← frameCheck v
  appendCheck v (l + 12)
  finishStoring
    { e with
      length := BitVec.ofNat 32 l
      dstAddr := BitVec.ofNat 32 (v.dstAddr + (l + 12))
      dstAvail := BitVec.ofNat 32 (v.dstAvail - (l + 12)) }
    (cellsAt v.dstAddr (v.bytes .data v.addr (l + 12)))

def execAppend (s : State) : Host.Outcome State Fault Refusal := complete planAppend s

end Sys2Proof.Machine
end

