-- ==== Sys2Proof/Machine/Dispatch.lean ====
section
/-! DEFINITION. The completion step of the current engine for each command of R113. -/

namespace Sys2Proof.Machine

def exec (i : Instr) (s : State) : Host.Outcome State Fault Refusal :=
  match i with
  -- 42_host_access.md
  | .nop => Sys2Proof.Machine.execNop s
  -- 40_crc.md
  | .crcInit => Sys2Proof.Machine.execCrcInit s
  | .crcUpdate => Sys2Proof.Machine.execCrcUpdate s
  | .checksum => Sys2Proof.Machine.execChecksum s
  | .verify => Sys2Proof.Machine.execVerify s
  | .regenerate => Sys2Proof.Machine.execRegenerate s
  -- 41_frame.md
  | .lenDecode => Sys2Proof.Machine.execLenDecode s
  | .tagExtract => Sys2Proof.Machine.execTagExtract s
  | .payload => Sys2Proof.Machine.execPayload s
  | .next => Sys2Proof.Machine.execNext s
  | .frame => Sys2Proof.Machine.execFrame s
  | .append => Sys2Proof.Machine.execAppend s

end Sys2Proof.Machine
end

