-- ==== Sys2Proof/Decode.lean ====
section
/-! DEFINITION. The decoder of R118, total on every 32-bit word, its rejections named (R114, R115); and the encoder,
written from the opcode map of R113. -/

namespace Sys2Proof

/-- Why a word is no command: both reasons complete with ILLEGAL_COMMAND (R238). -/
inductive DecodeError where
  /-- A bit of RSVD = CMD[31:8] is set (R115). -/
  | reservedBitsSet
  /-- RSVD = 0 and OPCODE is one of 0x06–0x0F, 0x16–0xFF (R114). -/
  | reservedOpcode
  deriving DecidableEq, Repr

/-- OPCODE = CMD[7:0] (R110). -/
def opcodeField (w : Word) : Byte := w.extractLsb' 0 8

/-- RSVD = CMD[31:8] (R110). -/
def rsvdField (w : Word) : BitVec 24 := w.extractLsb' 8 24

/-- The command an OPCODE selects (R113, R118). -/
def decodeOpcode (op : Nat) : Option Instr :=
  match op with
  | 0x00 => some .nop
  | 0x01 => some .crcInit
  | 0x02 => some .crcUpdate
  | 0x03 => some .checksum
  | 0x04 => some .verify
  | 0x05 => some .regenerate
  | 0x10 => some .lenDecode
  | 0x11 => some .tagExtract
  | 0x12 => some .payload
  | 0x13 => some .next
  | 0x14 => some .frame
  | 0x15 => some .append
  | _ => none

/-- R118. -/
def decode (w : Word) : Except DecodeError Instr :=
  if rsvdField w ≠ 0 then .error .reservedBitsSet
  else match decodeOpcode (opcodeField w).toNat with
    | some i => .ok i
    | none => .error .reservedOpcode

/-- The opcode of a command (R113's table, read from the mnemonic). -/
def opcodeOf : Instr → Byte
  | .nop => 0x00
  | .crcInit => 0x01
  | .crcUpdate => 0x02
  | .checksum => 0x03
  | .verify => 0x04
  | .regenerate => 0x05
  | .lenDecode => 0x10
  | .tagExtract => 0x11
  | .payload => 0x12
  | .next => 0x13
  | .frame => 0x14
  | .append => 0x15

/-- The one 32-bit format of R110: RSVD = 0 above the opcode. -/
def encode (i : Instr) : Word := (0 : BitVec 24) ++ opcodeOf i

/-- The decoder on a word numbered as spec/opcode_table.json numbers it. A command is one 32-bit register write (R117),
so there is no byte layout: the table's number is the word. -/
def decodeTableWord (nbits w : Nat) : Option Instr :=
  if nbits ≤ 32 ∧ w < 2 ^ 32 then (decode (BitVec.ofNat 32 w)).toOption else none

end Sys2Proof
end

