-- ==== Sys2Proof/Machine/Progress.lean ====
section
/-! DEFINITION. What is seen and left of a command that has not completed: its planned stores, a store made before the
completion step (R222), a host load of a byte it writes or may write (R86 (b)), and its abandonment by reset (R270, R271). -/

namespace Sys2Proof.Machine

/-- The pseudocode of each command. -/
def planOf : Instr → View → Engine → Plan
  | .nop => planNop
  | .crcInit => planCrcInit
  | .crcUpdate => planCrcUpdate
  | .checksum => planChecksum
  | .verify => planVerify
  | .regenerate => planRegenerate
  | .lenDecode => planLenDecode
  | .tagExtract => planTagExtract
  | .payload => planPayload
  | .next => planNext
  | .frame => planFrame
  | .append => planAppend

/-- The bytes the command of engine `e` would write if it completed on the present memory: nothing when the engine is
idle, the word is no command, or the command would raise (R85, R240). -/
def State.plannedBy (s : State) (e : Engine) : List Host.Cell :=
  match e.inflight with
  | none => []
  | some f =>
    match decode e.cmd with
    | .error _ => []
    | .ok i =>
      match planOf i (s.view f) e with
      | .error _ => []
      | .ok fin => fin.writes

/-- The value the byte at `a` held when the command was accepted. -/
def InFlight.valueBefore (f : InFlight) (mem : Memory) (a : Nat) : Byte :=
  match f.heldAt a with
  | [] => Memory.read mem a
  | b :: _ => b

/-! ### The reads a store rests on -/

/-- The reads of the length field (R171). -/
def lengthReads (v : View) : List (ReadSite × Nat) :=
  [(.length, v.addr), (.length, v.addr + 1), (.length, v.addr + 2), (.length, v.addr + 3)]

/-- The reads of `n` bytes from `a` on that a CRC consumes or APPEND copies. -/
def dataReads (a : Nat) : Nat → List (ReadSite × Nat)
  | 0 => []
  | n + 1 => (.data, a) :: dataReads (a + 1) n

/-- The reads that decide the value a command stores to byte `a`: the length field; for REGENERATE all of the CRC's input
(R148, R151); for APPEND the byte it copies there (R183). -/
def storeReads (i : Instr) (v : View) (a : Nat) : List (ReadSite × Nat) :=
  match i with
  | .regenerate => lengthReads v ++ dataReads (v.addr + 4) (4 + v.lengthField.toNat)
  | .append => lengthReads v ++ [(.data, v.addr + (a - v.dstAddr))]
  | .nop | .crcInit | .crcUpdate | .checksum | .verify | .lenDecode | .tagExtract | .payload | .next | .frame => []

/-- The command once it has made the reads `qs` (again, where it has made one before: the first stands). -/
def View.makeReads (v : View) (qs : List (ReadSite × Nat)) : InFlight :=
  { v.fl with reads := v.fl.reads ++ qs.map fun q => { site := q.1, addr := q.2, value := v.read q.1 q.2 } }

/-- Engine `e` once its command has made the reads its store to byte `a` rests on. -/
def State.makeStoreReads (s : State) (e : Engine) (a : Nat) : Engine :=
  match e.inflight, decode e.cmd with
  | some f, .ok i => { e with inflight := some ((s.view f).makeReads (storeReads i (s.view f) a)) }
  | _, _ => e

/-! ### Host loads -/

/-- Some length field puts byte `a` in the write set of the command (R151, R183). -/
def mayWrite (i : Instr) (v : View) (a : Nat) : Bool :=
  match i with
  | .regenerate => v.addr + 8 ≤ a && a < v.addr + v.len
  | .append => v.dstAddr ≤ a && a < v.dstAddr + v.dstAvail
  | .nop | .crcInit | .crcUpdate | .checksum | .verify | .lenDecode | .tagExtract | .payload | .next | .frame => false

/-- Engine `e` has a command in flight that may write byte `a`. -/
def State.mayWriteByte (s : State) (a : Nat) (e : Engine) : Bool :=
  match e.inflight, decode e.cmd with
  | some f, .ok i => mayWrite i (s.view f) a
  | _, _ => false

/-- The engines that do, by number. -/
def State.mayWriters (s : State) (a : Nat) : List Nat :=
  (List.range s.engines.length).filter fun k => s.engines[k]?.any (s.mayWriteByte a)

/-- The two values R86 (b) allows a host load of byte `a` for the command of engine `e`, which ends now: the byte's value at
the acceptance and the value the command writes. No entry when the byte is not in its write set. -/
def State.allowedBy (s : State) (a : Nat) (e : Engine) : List (List Byte) :=
  match e.inflight, cellValue? (s.plannedBy e) a with
  | some f, some v => [[f.valueBefore s.mem a, v]]
  | _, _ => []

/-- The values a load may have returned, where commands write the byte: those that R86 (b) allows for every one of them; where
it allows no value for all, those it allows for any (assumption 5). -/
def PendingLoad.choices (p : PendingLoad) : List Byte :=
  let every := p.allowed.flatten.filter fun x => p.allowed.all fun vs => vs.contains x
  if every.isEmpty then p.allowed.flatten else every

/-- The value the load returned, all the commands having ended: a draw among those (R86 (b)), and memory's byte at the load
when no command writes the byte (R223). -/
def PendingLoad.value (p : PendingLoad) : Byte :=
  p.choices.getD (Config.hostReadChoice p.event p.addr % p.choices.length) p.seen

/-- The loaded byte, known once no command is waited for. -/
def PendingLoad.close (p : PendingLoad) : LoadedByte := if p.waits.isEmpty then .known p.value else .pending p

/-- The byte at `a` as the host loads it in event `n` (R86 (b), R223): memory's byte, unless a command in flight may write it.
What the host got is then known when those commands have ended (assumption 14). -/
def State.hostLoad (s : State) (n a : Nat) : LoadedByte :=
  PendingLoad.close
    { event := n, addr := a, seen := Memory.read s.mem a, waits := s.mayWriters a, allowed := [] }

/-- The host's `MemRead(a, len)` in event `n`. -/
def State.hostLoads (s : State) (n a : Nat) : Nat → List LoadedByte
  | 0 => []
  | len + 1 => s.hostLoad n a :: s.hostLoads n (a + 1) len

/-- A loaded byte when the command of engine `k` ends; `allowed a` are the values it allows a load of byte `a`. -/
def LoadedByte.commandEnds (k : Nat) (allowed : Nat → List (List Byte)) : LoadedByte → LoadedByte
  | .known b => .known b
  | .pending p =>
    if p.waits.contains k then
      PendingLoad.close
        { p with waits := p.waits.filter fun j => j ≠ k, allowed := p.allowed ++ allowed p.addr }
    else .pending p

/-- The host's loaded bytes when the command of engine `k`, which is `e`, ends now; nothing changes when it is idle. -/
def State.endedLoads (s : State) (k : Nat) (e : Engine) : List (Nat × List LoadedByte) :=
  if e.busy then s.bufs.map fun b => (b.1, b.2.map (LoadedByte.commandEnds k fun a => s.allowedBy a e)) else s.bufs

/-- The state with them. -/
def State.endLoads (s : State) (k : Nat) (e : Engine) : State := { s with bufs := s.endedLoads k e }

/-! ### Early stores and reset -/

/-- Engine `k` makes its store to byte `a` now, before its completion step, having made the reads it rests on. Nothing
happens when it has no such store to make. -/
def State.storeEarly (s : State) (k a : Nat) : State :=
  match s.engines[k]? with
  | none => s
  | some e =>
    match cellValue? (s.plannedBy e) a with
    | none => s
    | some v =>
      (s.store [(a, v)]).setEngine k ((s.makeStoreReads e a).witness (storeNotes s.mem true [(a, v)]))

/-- What an abandoned command leaves in its write set: each byte its value from before the acceptance or the value the
command would have written, a draw (R271). -/
def State.abandoned (s : State) (n : Nat) (e : Engine) : List Host.Cell :=
  match e.inflight with
  | none => []
  | some f =>
    (s.plannedBy e).map fun c =>
      if Config.resetChoice n c.1 then c else (c.1, f.valueBefore s.mem c.1)

/-- The reset input of engine `k`, in event `n`: the engine is as R270 says, the memory as R271 and R272 say. What the host
loaded of the abandoned command's write set is known with it (assumption 14). -/
def State.resetEngine (s : State) (n k : Nat) : State :=
  match s.engines[k]? with
  | none => s
  | some e => ((s.endLoads k e).setEngine k (Engine.reset e.regBase)).store (s.abandoned n e)

end Sys2Proof.Machine
end

