-- ==== Sys2Proof/WellFormed.lean ====
section
/-! DEFINITION. The checks of form: a valid command word (R113), a defined register access (R98), legal parameters (R8),
and the (empty) check of an instruction. -/

namespace Sys2Proof.WellFormed

/-- The assigned opcodes, R113's list. -/
def assignedOpcodes : List Nat :=
  [0x00, 0x01, 0x02, 0x03, 0x04, 0x05, 0x10, 0x11, 0x12, 0x13, 0x14, 0x15]

/-- R113: a command word is valid exactly when RSVD = 0 and OPCODE is assigned, which is to say that the whole word is
one of the assigned opcode values (mask 0xFFFF_FFFF). -/
def commandWord (w : Word) : Bool := assignedOpcodes.contains w.toNat

/-- R111: a command has no operand field, so every instruction is well formed. -/
def instr (_ : Instr) : Bool := true

/-- R98: a register access is defined when it is 32 bits wide (4 bytes) and naturally aligned. -/
def registerAccess (busAddr width : Nat) : Bool := width == 4 && busAddr % 4 == 0

/-- R8's constraints on MEM_SIZE, N_ENGINES (the length of the list) and every REG_BASE; the windows are distinct,
since an engine is identified by its REG_BASE alone (R251). -/
def parameters (memSize : Nat) (regBases : List Nat) : Bool :=
  decide (1 ≤ memSize) && decide (memSize ≤ 2 ^ 32 - 1) && !regBases.isEmpty
    && regBases.all (fun b => b % 0x80 == 0) && decide regBases.Nodup

end Sys2Proof.WellFormed
end

