-- ==== Sys2Proof/Machine/HostAccess.lean ====
section
/-! DEFINITION. The host's operations: the register map (R30), register reads and writes (R210–R218), loads and stores
(R223), waiting (R224), and the pseudo-instructions of R120. -/

namespace Sys2Proof.Machine

/-! ### The register map -/

/-- The offset of a register (R30). -/
def regOffset : Reg → Nat
  | .cmd => 0x00
  | .status => 0x04
  | .irqEn => 0x08
  | .addr => 0x0C
  | .len => 0x10
  | .dstAddr => 0x14
  | .dstAvail => 0x18
  | .crcAcc => 0x1C
  | .crcResult => 0x20
  | .length => 0x24
  | .tag => 0x28
  | .flags => 0x2C
  | .payloadAddr => 0x30
  | .payloadLen => 0x34
  | .nextAddr => 0x38
  | .nextAvail => 0x3C
  | .storedCrc => 0x40

/-- The registers, in the map's order. -/
def allRegs : List Reg :=
  [.cmd, .status, .irqEn, .addr, .len, .dstAddr, .dstAvail, .crcAcc, .crcResult, .length, .tag, .flags, .payloadAddr,
    .payloadLen, .nextAddr, .nextAvail, .storedCrc]

/-- The register at an offset; none at the unmapped offsets 0x44–0x7C. -/
def regAt (off : Nat) : Option Reg := allRegs.find? fun r => regOffset r == off

/-- Bytes of a register window (R8, R30). -/
def windowBytes : Nat := 0x80

/-- The engine whose window holds a bus address, with its number and the offset (R30, R210), counting from `k`. -/
def findWindow (busAddr : Nat) : List Engine → Nat → Option (Nat × Engine × Nat)
  | [], _ => none
  | e :: es, k =>
    if e.regBase ≤ busAddr ∧ busAddr < e.regBase + windowBytes then some (k, e, busAddr - e.regBase)
    else findWindow busAddr es (k + 1)

/-- The target of a register access, or why it has no meaning (R98). -/
def State.busTarget (s : State) (busAddr width : Nat) : Except Refusal (Nat × Engine × Nat) :=
  if width ≠ 4 then .error .registerAccessWidth
  else if busAddr % 4 ≠ 0 then .error .registerAccessMisaligned
  else match findWindow busAddr s.engines 0 with
    | none => .error .noRegisterWindow
    | some t => .ok t

/-! ### Register reads -/

/-- The value of a register (R30; derived registers are computed at the read, R210). -/
def Engine.regValue (e : Engine) : Reg → Word
  | .cmd => e.cmd
  | .status => e.status
  | .irqEn => e.irqEn
  | .addr => e.addr
  | .len => e.len
  | .dstAddr => e.dstAddr
  | .dstAvail => e.dstAvail
  | .crcAcc => e.crcAcc
  | .crcResult => e.crcResult
  | .length => e.length
  | .tag => e.tag
  | .flags => e.flags
  | .payloadAddr => e.payloadAddr
  | .payloadLen => e.payloadLen
  | .nextAddr => e.nextAddr
  | .nextAvail => e.nextAvail
  | .storedCrc => e.storedCrc

/-- The registers whose value is unspecified while BUSY = 1 (R60). -/
def unspecifiedWhileBusy : Reg → Bool
  | .cmd | .status | .irqEn | .addr | .len => false
  | _ => true

/-- `RegRead(off)` in event `n`: an unmapped offset reads 0 (R59), a result register of a busy engine a drawn value
(R60), and otherwise the register's value. -/
def Engine.readOffset (e : Engine) (n off : Nat) : Word :=
  match regAt off with
  | none => 0
  | some r => if e.busy && unspecifiedWhileBusy r then Config.busyRegRead n else e.regValue r

/-! ### Register writes -/

/-- A write of an operand register: dropped, with OVR set, while BUSY = 1 (R213, R216). -/
def Engine.writeOperand (e written : Engine) : Engine :=
  if e.busy then { e with ovr := true } else written

/-- `RegWrite` of a register in event `n` (R211–R218). -/
def Engine.writeReg (e : Engine) (n : Nat) (v : Word) : Reg → Engine
  | .cmd => if e.busy then { e with ovr := true } else e.accept v n
  | .status => { e with done := e.done && !v.getLsbD 1, ovr := e.ovr && !v.getLsbD 3 }
  | .irqEn => { e with doneIe := v.getLsbD 0 }
  | .addr => e.writeOperand { e with addr := v }
  | .len => e.writeOperand { e with len := v }
  | .dstAddr => e.writeOperand { e with dstAddr := v }
  | .dstAvail => e.writeOperand { e with dstAvail := v }
  | .crcAcc => e.writeOperand { e with crcAcc := v }
  | .tag => e.writeOperand { e with tag := v }
  | .crcResult | .length | .flags | .payloadAddr | .payloadLen | .nextAddr | .nextAvail | .storedCrc => e

/-- `RegWrite(off, v)`: ignored at an unmapped offset (R59). -/
def Engine.writeOffset (e : Engine) (n off : Nat) (v : Word) : Engine :=
  match regAt off with
  | none => e
  | some r => e.writeReg n v r

/-! ### The host's steps -/

/-- The value of an operand. -/
def State.hostValue (s : State) : HostVal → Word
  | .lit v => v
  | .var n => Sparse.get 0 s.vars n

/-- The host variable of R120's `ht`. -/
def htVar : Nat := 0

/-- `RD`: the read changes nothing but the host variable (R99, R210). -/
def hostRegRead (n busAddr width dst : Nat) (s : State) : Host.Outcome State Fault Refusal :=
  match s.busTarget busAddr width with
  | .error r => .refused r
  | .ok (_, e, off) => .next { s with vars := Sparse.set 0 s.vars dst (e.readOffset n off) }

/-- `WR`. -/
def hostRegWrite (n busAddr width : Nat) (v : Word) (s : State) : Host.Outcome State Fault Refusal :=
  match s.busTarget busAddr width with
  | .error r => .refused r
  | .ok (k, e, off) => .next (s.setEngine k (e.writeOffset n off v))

/-- `MEMR` (R12, R223). -/
def hostMemRead (n a len dst : Nat) (s : State) : Host.Outcome State Fault Refusal :=
  if inMem s.memSize a len then
    .next { s with bufs := Sparse.set [] s.bufs dst (s.hostLoads n a len) }
  else .fault .hostLoadOutsideMemory

/-- `MEMW` (R12, R223). -/
def hostMemWrite (a : Nat) (bytes : List Byte) (s : State) : Host.Outcome State Fault Refusal :=
  if inMem s.memSize a bytes.length then .next (s.store (cellsAt a bytes))
  else .fault .hostStoreOutsideMemory

/-- The first busy engine, counting from `k`. -/
def firstBusy : List Engine → Nat → Option Nat
  | [], _ => none
  | e :: es, k => if e.busy then some k else firstBusy es (k + 1)

/-- The engine that completes between two turns of a WAIT that has polled a register of engine `k`, which is `e`: that engine
while it is busy (assumption 8), else the first busy one (R221: nothing the host does keeps a command from completing). -/
def State.turnAfterPoll (s : State) (k : Nat) (e : Engine) : List Event :=
  if e.busy then [.complete k]
  else match firstBusy s.engines 0 with
    | some j => [.complete j]
    | none => []

/-- One turn of `WAIT`: STATUS is read into `ht`; while BUSY is 1 the wait goes on, and the engine waited for takes its
completion step before the next turn (R120, R221, R224; DESIGN CHOICE, assumption 8: any other steps in between are
written into the agenda before the wait).

R120 and R224 speak of a WAIT on an engine, whose REG_BASE is `base`. DESIGN CHOICE (assumption 26) for any other `base`: the
wait polls in the same way whatever register lies at `base + 4`, as RD reads it, and goes on while bit 0 of what it read is 1,
which may be without end; between its turns a busy engine completes, so that all do (R221, R283). Where no window holds
`base + 4`, or it is not aligned, the wait is refused as any register access is. -/
def hostWait (n base : Nat) (s : State) : Host.Outcome State Fault Refusal :=
  match s.busTarget (base + regOffset .status) 4 with
  | .error r => .refused r
  | .ok (k, e, off) =>
    let v := e.readOffset n off
    .next { s with
      vars := Sparse.set 0 s.vars htVar v
      agenda := if v.getLsbD 0 then s.turnAfterPoll k e ++ .host (.wait base) :: s.agenda else s.agenda }

/-- A bus operation of the host in event `n`. -/
def hostStep (n : Nat) (op : HostOp) (s : State) : Host.Outcome State Fault Refusal :=
  match op with
  | .regRead busAddr width dst => hostRegRead n busAddr width dst s
  | .regWrite busAddr width v => hostRegWrite n busAddr width (s.hostValue v) s
  | .memRead a len dst => hostMemRead n (s.hostValue a).toNat (s.hostValue len).toNat dst s
  | .memWrite a bytes => hostMemWrite (s.hostValue a).toNat bytes s
  | .wait base => hostWait n base s

/-! ### The notation of host programs (R119–R121), on the engine whose window is at `base` -/

/-- `WR <reg>, <v>`. -/
def wr (base : Nat) (r : Reg) (v : HostVal) : HostOp := .regWrite (base + regOffset r) 4 v
/-- `RD <reg> -> hN`. -/
def rd (base : Nat) (r : Reg) (dst : Nat) : HostOp := .regRead (base + regOffset r) 4 dst
/-- `ISSUE <MNEMONIC>`. -/
def issue (base : Nat) (i : Instr) : List HostOp := [wr base .cmd (.lit (encode i))]
/-- `RUN <MNEMONIC>`. -/
def run (base : Nat) (i : Instr) : List HostOp := issue base i ++ [.wait base]
/-- `CLEAR`. -/
def clear (base : Nat) : List HostOp := [wr base .status (.lit 0x0000000A)]
/-- `SETUP <a>, <n>`. DESIGN CHOICE (assumption 25): each of `<a>` and `<n>` may be a 32-bit value or a host variable, as the
`<v>` of the WR it expands to (R119 says so of `<v>` alone). -/
def setup (base : Nat) (a n : HostVal) : List HostOp := [wr base .addr a, wr base .len n]
/-- `ADVANCE`. -/
def advance (base : Nat) : List HostOp :=
  [rd base .nextAddr htVar, wr base .addr (.var htVar), rd base .nextAvail htVar, wr base .len (.var htVar)]

/-- A bus transaction of R121: a register write or a register read at an offset. -/
inductive Transaction where
  | write (off : Nat) (data : Word)
  | read (off : Nat)
  deriving DecidableEq, Repr

/-- The transaction of a bus operation on the window at `base` in the state `s`; loads and stores of memory have none. -/
def transaction (base : Nat) (s : State) : HostOp → Option Transaction
  | .regRead a _ _ => some (.read (a - base))
  | .regWrite a _ v => some (.write (a - base) (s.hostValue v))
  | .wait w => some (.read (w + regOffset .status - base))
  | .memRead _ _ _ | .memWrite _ _ => none

end Sys2Proof.Machine
end

