-- ==== Sys2Proof/Machine/Agents.lean ====
section
/-! DEFINITION. The steps of the agents (R5): an engine's completion step, decoding CMD (R222), and the events of the
agenda; and the placing of a command as the next to complete. -/

namespace Sys2Proof.Machine

/-- The engine `exec` acts on. -/
def State.select (s : State) (k : Nat) : State := { s with current := k }

/-- The completion step of engine `k`: CMD is decoded (R222 (1)), and the command, or the illegal word, completes; with it the
values of host loads that waited for it are known (R86 (b)). An idle engine, or none, takes no step (R220). -/
def completionStep (k : Nat) (s : State) : Host.Outcome State Fault Refusal :=
  match s.engines[k]? with
  | none => .next s
  | some e =>
    if e.busy then
      match decode e.cmd with
      | .ok i => exec i ((s.endLoads k e).select k)
      | .error _ => completeIllegal ((s.endLoads k e).select k)
    else .next s

/-- The event with number `n`. -/
def eventStep (n : Nat) (ev : Event) (s : State) : Host.Outcome State Fault Refusal :=
  match ev with
  | .host op => hostStep n op s
  | .complete k => completionStep k s
  | .storeEarly k a => .next (s.storeEarly k a)
  | .reset k => .next (s.resetEngine n k)

/-- The first event is taken from the agenda, and counted. -/
def State.pop (s : State) (rest : List Event) : State := { s with agenda := rest, draws := s.draws + 1 }

/-- The current engine accepts the word `w`, whatever it was doing, and its completion step comes next. -/
def State.placeCommand (s : State) (w : Word) : State :=
  match s.engines[s.current]? with
  | none => s
  | some e =>
    { s.setEngine s.current (e.accept w s.draws) with
      agenda := .complete s.current :: s.agenda
      draws := s.draws + 1 }

end Sys2Proof.Machine
end

