-- ==== Sys2Proof/Machine/Step.lean ====
section
/-! DEFINITION. One step of the machine, and the placing of a command word where the next step reads it. -/

namespace Sys2Proof.Machine

/-- One step of one agent: the next event of the agenda; when nothing is scheduled, the first busy engine completes
(R221: every accepted command completes); when no engine is busy either, no agent has a step to take and the state is
held (R220, R250). -/
def step (s : State) : Host.Outcome State Fault Refusal :=
  match s.agenda with
  | ev :: rest => eventStep s.draws ev (s.pop rest)
  | [] =>
    match firstBusy s.engines 0 with
    | some k => completionStep k s
    | none => .next s

/-- The state in which the command word `w` has just been accepted by the current engine (R214) and that engine's
completion step is next: a command is fetched from CMD alone (R32, R96). -/
def State.withFetchWord (s : State) (_nbits w : Nat) : State := s.placeCommand (BitVec.ofNat 32 w)

end Sys2Proof.Machine
end

