-- ==== Sys2Proof/Safety.lean ====
section
/-! DEFINITION. The terms claims are stated in: a command in flight, the frame of a command (R112, R85), a run free of the
races of R276 and R277, the end of a run (R284), and the invariant of the machine. -/

namespace Sys2Proof.Machine

/-! ### A command in flight -/

/-- The current engine of `s` is `e`, and it has the command `f` in flight. -/
def State.InFlightAt (s : State) (e : Engine) (f : InFlight) : Prop :=
  s.engines[s.current]? = some e ∧ e.inflight = some f

/-- The slice lies in memory (R83, R140). -/
def View.SliceInMem (v : View) : Prop := v.addr + v.len ≤ v.memSize

/-- The chunk at ADDR passes the frame check (R171, R172): the slice lies in memory and holds a length field, the length
is not above 2^31, and the slice holds the whole record. -/
def View.FrameOk (v : View) : Prop :=
  v.SliceInMem ∧ 4 ≤ v.len ∧ v.lengthField.toNat ≤ 0x80000000 ∧ v.lengthField.toNat + 12 ≤ v.len

/-- When APPEND does not raise (R183): the chunk passes the frame check, the window lies in memory and holds the record,
and the two ranges are disjoint. -/
def View.AppendOk (v : View) : Prop :=
  v.FrameOk ∧ v.dstAddr + v.dstAvail ≤ v.memSize ∧ v.lengthField.toNat + 12 ≤ v.dstAvail
    ∧ (v.dstAddr + (v.lengthField.toNat + 12) ≤ v.addr ∨ v.addr + (v.lengthField.toNat + 12) ≤ v.dstAddr)

/-- The commands that run the frame check (R170). -/
def framed : Instr → Bool
  | .verify | .regenerate | .payload | .next | .frame | .append => true
  | .nop | .crcInit | .crcUpdate | .checksum | .lenDecode | .tagExtract => false

/-- The commands that use the slice at ADDR (R233). -/
def usesSlice : Instr → Bool
  | .nop | .crcInit => false
  | _ => true

/-- The engine with its command's notes of stores left out. -/
def Engine.withoutNotes (e : Engine) : Engine := { e with inflight := e.inflight.map fun f => { f with held := [] } }

/-- The engine with the reads its command has made left out. -/
def Engine.withoutReads (e : Engine) : Engine := { e with inflight := e.inflight.map fun f => { f with reads := [] } }

/-! ### What a command may change and read -/

/-- The registers a command writes (R112), with the derived registers that follow them (R47, R50). STATUS stands in none
of the lists: its fields are stated one by one. -/
def writtenBy : Instr → List Reg
  | .nop => []
  | .crcInit | .crcUpdate | .checksum => [.crcAcc, .crcResult]
  | .verify | .regenerate => [.length, .crcAcc, .crcResult, .storedCrc]
  | .lenDecode => [.length]
  | .tagExtract => [.tag, .flags]
  | .payload => [.length, .payloadAddr, .payloadLen]
  | .next => [.length, .nextAddr, .nextAvail]
  | .frame => [.length, .tag, .flags, .payloadAddr, .payloadLen, .nextAddr, .nextAvail, .storedCrc]
  | .append => [.length, .dstAddr, .dstAvail]

/-- A byte range `[start, start + size)`. -/
abbrev ByteRange := Nat × Nat

/-- The address `x` lies in one of the ranges. -/
def InRanges (rs : List ByteRange) (x : Nat) : Prop := ∃ r ∈ rs, r.1 ≤ x ∧ x < r.1 + r.2

/-- The read set of R85's table, with `a = x[ADDR]`, `n = x[LEN]`, `l` the decoded length. -/
def readSet (i : Instr) (a n l : Nat) : List ByteRange :=
  match i with
  | .nop | .crcInit => []
  | .crcUpdate | .checksum => [(a, n)]
  | .lenDecode | .payload | .next => [(a, 4)]
  | .tagExtract => [(a + 4, 4)]
  | .frame => [(a, 8), (a + 8 + l, 4)]
  | .verify => [(a, 12 + l)]
  | .regenerate => [(a, 8 + l)]
  | .append => [(a, 12 + l)]

/-- The write set of R85's table, with `d = x[DST_ADDR]`. -/
def writeSet (i : Instr) (a d l : Nat) : List ByteRange :=
  match i with
  | .regenerate => [(a + 8 + l, 4)]
  | .append => [(d, 12 + l)]
  | _ => []

/-! ### Races, hazards, the end of a run -/

/-- No agent has stored to `[a, a + n)` during the command (R276). -/
def InFlight.Unraced (f : InFlight) (a n : Nat) : Prop := ∀ x, a ≤ x → x < a + n → f.heldAt x = []

/-- No other agent has stored to `[a, a + n)` during the command (R277); it may have done so itself. -/
def InFlight.Undisturbed (f : InFlight) (a n : Nat) : Prop := ∀ x, a ≤ x → x < a + n → f.racedAt x = false

/-- No command in flight has been raced: no other agent has stored, during it, to a byte of its read set or of its write
set (the hazards of R276 and R277). -/
def State.RaceFree (s : State) : Prop :=
  ∀ e ∈ s.engines, ∀ f, e.inflight = some f → ∀ i, decode e.cmd = .ok i →
    ∀ x, InRanges (readSet i (s.view f).addr (s.view f).len (s.view f).lengthField.toNat
        ++ writeSet i (s.view f).addr (s.view f).dstAddr (s.view f).lengthField.toNat) x → f.racedAt x = false

/-! ### What is settled of a command in flight -/

/-- The command in flight will write byte `a`, with a value that meets `p`, whatever the memory comes to hold, whatever
stores it takes note of, and whatever further reads it makes. -/
def Engine.WillWrite (memSize : Nat) (e : Engine) (a : Nat) (p : Byte → Prop) : Prop :=
  ∃ f i, e.inflight = some f ∧ decode e.cmd = .ok i ∧
    ∀ (mem : Memory) (held : List StoreNote) (more : List MadeRead), ∃ fin v,
      planOf i { mem := mem, memSize := memSize, fl := { f with held := held, reads := f.reads ++ more } } e = .ok fin
        ∧ cellValue? fin.writes a = some v ∧ p v

/-- The command in flight will not write byte `a`, whatever the memory comes to hold, whatever stores it takes note of, and
whatever further reads it makes. -/
def Engine.WillNotWrite (memSize : Nat) (e : Engine) (a : Nat) : Prop :=
  ∃ f, e.inflight = some f ∧
    ∀ (i : Instr) (mem : Memory) (held : List StoreNote) (more : List MadeRead) (fin : Finish), decode e.cmd = .ok i →
      planOf i { mem := mem, memSize := memSize, fl := { f with held := held, reads := f.reads ++ more } } e = .ok fin →
      cellValue? fin.writes a = none

/-- A run has ended: nothing is scheduled and every engine has BUSY = 0 (R284). -/
def State.RunEnded (s : State) : Prop := s.agenda = [] ∧ ∀ e ∈ s.engines, e.busy = false

/-- The number of commands in flight. -/
def State.inFlightCount (s : State) : Nat := (s.engines.filter Engine.busy).length

/-! ### The invariant -/

/-- While a command is in flight DONE is 0 (R41), and the snapshot equals the registers (R61, R216). -/
def Engine.Coherent (e : Engine) : Prop :=
  ∀ f, e.inflight = some f → e.done = false ∧ f.addr = e.addr ∧ f.len = e.len ∧ f.dstAddr = e.dstAddr
    ∧ f.dstAvail = e.dstAvail ∧ f.crcAcc = e.crcAcc

/-- A command that has made a read is one that stores, and has read its length field: the length, and with it the write set,
is settled, and it cannot raise any more, whatever the memory comes to hold (R171, R183, R240). A read is made early only when
a store is. -/
def Engine.StoringIsSettled (memSize : Nat) (e : Engine) : Prop :=
  ∀ f, e.inflight = some f → f.reads ≠ [] →
    ∃ i l, decode e.cmd = .ok i ∧ (i = .regenerate ∨ i = .append) ∧
      ∀ (mem : Memory) (held : List StoreNote) (more : List MadeRead) (v : View),
        v = { mem := mem, memSize := memSize, fl := { f with held := held, reads := f.reads ++ more } } →
        v.lengthField = l ∧ ∃ fin, planOf i v e = .ok fin

/-- Every read the command has made gave a value the byte held during the command (R86 (a)). -/
def InFlight.ReadsHeld (mem : Memory) (f : InFlight) : Prop :=
  ∀ r ∈ f.reads, r.value = Memory.read mem r.addr ∨ r.value ∈ f.heldAt r.addr

/-- A byte the command has stored early holds the value it will write there, unless another agent has stored to it
(R86 (c), R222). -/
def InFlight.EarlyStoresStand (memSize : Nat) (mem : Memory) (e : Engine) (f : InFlight) : Prop :=
  ∀ n ∈ f.held, n.own = true →
    ∃ v, e.WillWrite memSize n.addr (· = v) ∧ (f.racedAt n.addr = false → Memory.read mem n.addr = v)

/-- The shared memory is in its canonical form and lists no byte outside the addresses `0 .. MEM_SIZE-1` (R80). -/
def State.MemOk (s : State) : Prop := Memory.wf s.mem ∧ ∀ c ∈ s.mem, c.1 < s.memSize

/-- A loaded byte that is not known waits for commands in flight; and what an ended command allowed it is not empty
(R86 (b)). -/
def State.LoadsWait (s : State) : Prop :=
  ∀ b ∈ s.bufs, ∀ p, .pending p ∈ b.2 →
    p.waits ≠ [] ∧ (∀ k ∈ p.waits, ∃ e, s.engines[k]? = some e ∧ e.busy = true) ∧ ∀ vs ∈ p.allowed, vs ≠ []

/-- The invariant of the machine. -/
structure State.Inv (s : State) : Prop where
  /-- R8's constraints on the parameters. -/
  parameters : WellFormed.parameters s.memSize (s.engines.map Engine.regBase) = true
  memory : s.MemOk
  /-- The host's variables and byte sequences are in canonical form. -/
  hostData : Sparse.wf 0 s.vars ∧ Sparse.wf [] s.bufs
  /-- What the host has loaded is known once the commands it waits for have ended (R86 (b)). -/
  loads : s.LoadsWait
  coherent : ∀ e ∈ s.engines, e.Coherent
  /-- A command that has made reads early stores, its length is settled, and it can raise no more (R171, R240). -/
  storing : ∀ e ∈ s.engines, e.StoringIsSettled s.memSize
  /-- Those reads gave values the bytes held (R86 (a)). -/
  reads : ∀ e ∈ s.engines, ∀ f, e.inflight = some f → f.ReadsHeld s.mem
  /-- A byte stored early holds what its command will write there (R222). -/
  early : ∀ e ∈ s.engines, ∀ f, e.inflight = some f → f.EarlyStoresStand s.memSize s.mem e

end Sys2Proof.Machine
end

