-- ==== Sys2Proof/Certificates/Slice0/Obligations.lean ====
section
/-! DEFINITION. The statements. `V` is always the view of the command in flight: its snapshotted operands, and the memory
as it reads it (R61, R86). -/

open Sys2Proof Sys2Proof.Machine

/-! ### Encoding -/

/-- Every command's word decodes to the command, is a valid word and has RSVD = 0 (R110, R113, R118). -/
def Obligations.DecodeOfEncodeIsTheCommand : Prop :=
  ∀ i : Instr, decode (encode i) = .ok i ∧ decodeTableWord 32 (encode i).toNat = some i
    ∧ WellFormed.commandWord (encode i) = true ∧ rsvdField (encode i) = 0 ∧ opcodeField (encode i) = opcodeOf i

/-- R113: of all 2^32 words, a word is valid exactly when RSVD = 0 and OPCODE is assigned; each row of the table is the one
word (match the opcode, mask all ones) that decodes to its command; and every other word decodes to none. -/
def Obligations.ValidWordsAreExactlyTheEncodedOnes : Prop :=
  ∀ w : Word,
    (WellFormed.commandWord w = true ↔ rsvdField w = 0 ∧
      (opcodeField w).toNat ∈ [0x00, 0x01, 0x02, 0x03, 0x04, 0x05, 0x10, 0x11, 0x12, 0x13, 0x14, 0x15])
    ∧ (∀ row ∈ [(0x00000000#32, Instr.nop), (0x00000001#32, .crcInit), (0x00000002#32, .crcUpdate),
          (0x00000003#32, .checksum), (0x00000004#32, .verify), (0x00000005#32, .regenerate), (0x00000010#32, .lenDecode),
          (0x00000011#32, .tagExtract), (0x00000012#32, .payload), (0x00000013#32, .next), (0x00000014#32, .frame),
          (0x00000015#32, .append)],
        (decode w = .ok row.2 ↔ w = row.1))
    ∧ (WellFormed.commandWord w = true ↔ ∃ i, decode w = .ok i)
    ∧ ∀ i, decode w = .ok i → w = encode i

/-- Words of R113's table, as numbers, and what they select. -/
def Obligations.TableWordsDecode : Prop :=
  decode 0x00000000 = .ok .nop ∧ decode 0x00000002 = .ok .crcUpdate ∧ decode 0x00000004 = .ok .verify
    ∧ decode 0x00000005 = .ok .regenerate ∧ decode 0x00000011 = .ok .tagExtract ∧ decode 0x00000014 = .ok .frame
    ∧ decode 0x00000015 = .ok .append ∧ decode 0x00000006 = .error .reservedOpcode
    ∧ decode 0x00000016 = .error .reservedOpcode ∧ decode 0x80000004 = .error .reservedBitsSet

/-! ### Steps -/

/-- A completion step runs the command that CMD decodes to, on the engine whose step it is, the host's loads that waited for
the command being settled with it (assumption 14); both when it is scheduled and when nothing is scheduled and the first busy
engine completes (the model's order, assumption 10). -/
def Obligations.StepRunsTheDecodedCommand : Prop :=
  ∀ (s : State) (k : Nat) (e : Engine) (i : Instr), s.engines[k]? = some e → e.busy = true → decode e.cmd = .ok i →
    (∀ rest, s.agenda = .complete k :: rest → step s = exec i (((s.pop rest).endLoads k e).select k))
    ∧ (s.agenda = [] → firstBusy s.engines 0 = some k → step s = exec i ((s.endLoads k e).select k))

/-- R114, R115, R238: a word with a reserved OPCODE, or with a bit of RSVD set, is accepted like any other (BUSY is set)
and completes with ERR = ILLEGAL_COMMAND and no other effect: no register but STATUS (and CMD, at acceptance), no memory.
The word is a literal or a host variable's. -/
def Obligations.IllegalWordIsAcceptedAndCompletes : Prop :=
  ∀ (s : State) (k : Nat) (e : Engine) (v : HostVal) (w : Word) (rest : List Event),
    s.Inv → s.engines[k]? = some e → e.busy = false → s.hostValue v = w →
    (rsvdField w ≠ 0 ∨ 0x06 ≤ (opcodeField w).toNat ∧ (opcodeField w).toNat ≤ 0x0F ∨ 0x16 ≤ (opcodeField w).toNat) →
    s.agenda = .host (.regWrite (e.regBase + 0x00) 4 v) :: .complete k :: rest →
    ∃ t u e',
      step s = .next t ∧ t.engines[k]? = some e' ∧ e'.busy = true ∧ e'.cmd = w ∧ t.mem = s.mem
      ∧ step t = .next u
      ∧ u = { s with
          engines := s.engines.set k { e with cmd := w, done := true, err := .illegalCommand }
          agenda := rest, current := k, draws := s.draws + 2 }

/-- R220: with BUSY = 0 the engine takes no step and touches no memory, scheduled or not; and a run stays where it is when
nothing is scheduled and no engine is busy (the model's step there, assumption 10). -/
def Obligations.IdleEngineTakesNoStep : Prop :=
  ∀ s : State,
    (∀ k rest, s.agenda = .complete k :: rest → (∀ e, s.engines[k]? = some e → e.busy = false) →
      step s = .next (s.pop rest))
    ∧ (s.RunEnded → step s = .next s)
    ∧ (∀ i, (∀ e, s.engines[s.current]? = some e → e.busy = false) → exec i s = .next s)

/-- A command word placed to be run next (assumption 9) is what the next step runs: the current engine has accepted it. -/
def Obligations.PlacedWordRunsNext : Prop :=
  ∀ (s : State) (i : Instr) (e : Engine), s.engines[s.current]? = some e →
    step (s.withFetchWord 32 (encode i).toNat) =
      exec i (State.endLoads { s with
        engines := s.engines.set s.current (e.accept (encode i) s.draws), draws := s.draws + 2 }
        s.current (e.accept (encode i) s.draws))

/-- R221, R283: every accepted command completes. Whatever is scheduled, every busy engine comes to have BUSY = 0 after finitely
many steps, unless a host access without a meaning stops the machine (assumptions 15 and 23). With nothing scheduled, as many
steps as there are commands in flight bring the run to its end, with MEM_SIZE, every REG_BASE and the host's variables as they
were, the host's byte sequences under the names they had, and, from a state that meets the invariant, every byte the host
loaded known (the order of completion: assumption 10). -/
def Obligations.EveryAcceptedCommandCompletes : Prop :=
  (∀ (s : State) (k : Nat) (e : Engine), s.engines[k]? = some e → e.busy = true →
    ∃ n, (∃ t e', Sys2Proof.core.run n s = .next t ∧ t.engines[k]? = some e' ∧ e'.busy = false)
      ∨ (∃ r, Sys2Proof.core.run n s = .fault r) ∨ ∃ r, Sys2Proof.core.run n s = .refused r)
  ∧ ∀ s : State, s.agenda = [] →
    ∃ t, Sys2Proof.core.run s.inFlightCount s = .next t ∧ t.RunEnded ∧ t.engines.length = s.engines.length
      ∧ t.engines.map Engine.regBase = s.engines.map Engine.regBase ∧ t.memSize = s.memSize ∧ t.vars = s.vars
      ∧ t.bufs.map (·.1) = s.bufs.map (·.1)
      ∧ (s.Inv → ∀ b ∈ t.bufs, ∀ x ∈ b.2, ∃ v, x = LoadedByte.known v)

/-! ### Results: NOP and the checksum family -/

/-- R219: NOP completes in every state, and writes nothing besides STATUS. -/
def Obligations.NopResult : Prop :=
  ∀ (s : State) (e : Engine) (f : InFlight), s.InFlightAt e f →
    exec .nop s = .next { s with
      engines := s.engines.set s.current { e with inflight := none, done := true, err := .ok } }
    ∧ encode .nop = 0x00000000

/-- R145: CRC_INIT sets CRC_ACC, whatever ADDR and LEN hold; it cannot raise; CRC_RESULT then reads 0. -/
def Obligations.CrcInitResult : Prop :=
  ∀ (s : State) (e : Engine) (f : InFlight), s.InFlightAt e f →
    exec .crcInit s = .next { s with
      engines := s.engines.set s.current { e with crcAcc := 0xFFFFFFFF, inflight := none, done := true, err := .ok } }
    ∧ Engine.crcResult { e with crcAcc := 0xFFFFFFFF, inflight := none, done := true, err := .ok } = 0
    ∧ encode .crcInit = 0x00000001

/-- R141, R142: the CRC register takes the bytes in increasing index order, each byte least significant bit first in eight
repetitions; and `crc32`, with `crc32` of no bytes 0. -/
def Obligations.CrcUpdateFollowsTheAlgorithm : Prop :=
  ∀ (acc : Word) (x : List Byte),
    crcUpdate acc x = x.foldl (fun r b =>
      (fun q : Word => if q[0] then (q >>> 1) ^^^ 0xEDB88320 else q >>> 1)^[8] (r ^^^ b.setWidth 32)) acc
    ∧ crc32 x = crcUpdate 0xFFFFFFFF x ^^^ 0xFFFFFFFF ∧ crc32 [] = 0

/-- R146: CRC_UPDATE continues from the snapshotted CRC_ACC over `[ADDR, ADDR + LEN)` when the slice is in memory, and
otherwise raises BUS_ERROR and nothing else. -/
def Obligations.CrcUpdateResult : Prop :=
  ∀ (s : State) (e : Engine) (f : InFlight), s.InFlightAt e f →
    ((s.view f).addr + (s.view f).len ≤ s.memSize →
      exec .crcUpdate s = .next { s with
        engines := s.engines.set s.current
          { e with
            crcAcc := crcUpdate f.crcAcc ((s.view f).bytes .data (s.view f).addr (s.view f).len)
            inflight := none, done := true, err := .ok } })
    ∧ (s.memSize < (s.view f).addr + (s.view f).len →
      exec .crcUpdate s = .next { s with
        engines := s.engines.set s.current { e with inflight := none, done := true, err := .busError } })
    ∧ encode .crcUpdate = 0x00000002

/-- R147: CHECKSUM leaves the CRC of the slice, whatever CRC_ACC held; CRC_RESULT then reads `crc32` of the bytes. -/
def Obligations.ChecksumResult : Prop :=
  ∀ (s : State) (e : Engine) (f : InFlight), s.InFlightAt e f →
    ((s.view f).addr + (s.view f).len ≤ s.memSize →
      ∃ e', exec .checksum s = .next { s with engines := s.engines.set s.current e' }
        ∧ e' = { e with
            crcAcc := crcUpdate 0xFFFFFFFF ((s.view f).bytes .data (s.view f).addr (s.view f).len)
            inflight := none, done := true, err := .ok }
        ∧ e'.crcResult = crc32 ((s.view f).bytes .data (s.view f).addr (s.view f).len))
    ∧ (s.memSize < (s.view f).addr + (s.view f).len →
      exec .checksum s = .next { s with
        engines := s.engines.set s.current { e with inflight := none, done := true, err := .busError } })
    ∧ encode .checksum = 0x00000003

/-- R149, R150, R235: a VERIFY whose checks pass writes LENGTH, CRC_ACC and STORED_CRC, sets MATCH to whether the computed
CRC is the stored one, and ends with OK or CHECKSUM_MISMATCH accordingly; it writes no memory. -/
def Obligations.VerifyResult : Prop :=
  ∀ (s : State) (e : Engine) (f : InFlight), s.InFlightAt e f → (s.view f).FrameOk →
    ∃ e', exec .verify s = .next { s with engines := s.engines.set s.current e' }
      ∧ e' = { e with
          length := (s.view f).lengthField
          crcAcc := crcUpdate 0xFFFFFFFF
            ((s.view f).bytes .data ((s.view f).addr + 4) (4 + (s.view f).lengthField.toNat))
          storedCrc := (s.view f).read32 .stored ((s.view f).addr + 8 + (s.view f).lengthField.toNat)
          matched := e'.crcResult == e'.storedCrc
          err := if e'.crcResult = e'.storedCrc then .ok else .checksumMismatch
          inflight := none, done := true }

/-- R151: REGENERATE writes LENGTH, CRC_ACC and STORED_CRC, leaves MATCH alone, and stores the CRC, big-endian, in the
trailing 4 bytes, when no other agent has stored to them during the command. -/
def Obligations.RegenerateResult : Prop :=
  ∀ (s : State) (e : Engine) (f : InFlight), s.InFlightAt e f → Memory.wf s.mem → (s.view f).FrameOk →
    ∃ t e', exec .regenerate s = .next t ∧ t.engines[s.current]? = some e'
      ∧ e' = { e with
          length := (s.view f).lengthField
          crcAcc := crcUpdate 0xFFFFFFFF
            ((s.view f).bytes .data ((s.view f).addr + 4) (4 + (s.view f).lengthField.toNat))
          storedCrc := e'.crcResult
          inflight := none, done := true, err := .ok }
      ∧ (f.Undisturbed ((s.view f).addr + 8 + (s.view f).lengthField.toNat) 4 →
          be32 (Memory.read t.mem ((s.view f).addr + 8 + (s.view f).lengthField.toNat))
            (Memory.read t.mem ((s.view f).addr + 8 + (s.view f).lengthField.toNat + 1))
            (Memory.read t.mem ((s.view f).addr + 8 + (s.view f).lengthField.toNat + 2))
            (Memory.read t.mem ((s.view f).addr + 8 + (s.view f).lengthField.toNat + 3)) = e'.crcResult)

/-- R143: the incremental law; and a CRC_INIT, then a CRC_UPDATE over `x` begun with the CRC_ACC that it left, then one over
`y` begun with the CRC_ACC that the first left, leave the CRC of `x ++ y`, and `crc32 (x ++ y)` in CRC_RESULT. The states
may differ in everything else. -/
def Obligations.StreamingCrcIsTheOneShotCrc : Prop :=
  (∀ (acc : Word) (x y : List Byte), crcUpdate (crcUpdate acc x) y = crcUpdate acc (x ++ y)) ∧
  ∀ (s0 s1 s2 t0 t1 : State) (e0 e1 e2 a0 a1 : Engine) (f0 f1 f2 : InFlight),
    s0.InFlightAt e0 f0 → exec .crcInit s0 = .next t0 → t0.engines[s0.current]? = some a0 →
    s1.InFlightAt e1 f1 → (s1.view f1).SliceInMem → f1.crcAcc = a0.crcAcc →
    exec .crcUpdate s1 = .next t1 → t1.engines[s1.current]? = some a1 →
    s2.InFlightAt e2 f2 → (s2.view f2).SliceInMem → f2.crcAcc = a1.crcAcc →
    ∃ t2 a2, exec .crcUpdate s2 = .next t2 ∧ t2.engines[s2.current]? = some a2
      ∧ a2.crcAcc = crcUpdate 0xFFFFFFFF
          ((s1.view f1).bytes .data (s1.view f1).addr (s1.view f1).len
            ++ (s2.view f2).bytes .data (s2.view f2).addr (s2.view f2).len)
      ∧ a2.crcResult = crc32
          ((s1.view f1).bytes .data (s1.view f1).addr (s1.view f1).len
            ++ (s2.view f2).bytes .data (s2.view f2).addr (s2.view f2).len)

/-- R144: byte sequences of one length that differ in exactly one byte have different checksums. -/
def Obligations.SingleByteChangeChangesTheCrc : Prop :=
  ∀ (x y : List Byte) (b c : Byte), b ≠ c → crc32 (x ++ b :: y) ≠ crc32 (x ++ c :: y)

/-- R144, as the source states it of the machine: where VERIFY of a chunk matches, VERIFY of the same chunk with exactly
one byte of its type tag or payload changed reports CHECKSUM_MISMATCH with MATCH = 0. (A VERIFY in flight has made no read
early: the invariant's `storing` allows that to REGENERATE and APPEND alone.) -/
def Obligations.VerifyDetectsAnySingleByteChange : Prop :=
  ∀ (s1 s2 t1 : State) (e a1 : Engine) (f : InFlight) (x : Nat),
    s1.InFlightAt e f → s2.InFlightAt e f → s2.memSize = s1.memSize → (s1.view f).FrameOk →
    f.reads = [] → f.Unraced (s1.view f).addr (12 + (s1.view f).lengthField.toNat) →
    exec .verify s1 = .next t1 → t1.engines[s1.current]? = some a1 → a1.matched = true →
    (s1.view f).addr + 4 ≤ x → x < (s1.view f).addr + 8 + (s1.view f).lengthField.toNat →
    Memory.read s2.mem x ≠ Memory.read s1.mem x → (∀ y, y ≠ x → Memory.read s2.mem y = Memory.read s1.mem y) →
    ∃ t2 a2, exec .verify s2 = .next t2 ∧ t2.engines[s2.current]? = some a2 ∧ a2.matched = false
      ∧ a2.err = .checksumMismatch ∧ t2.mem = s2.mem

/-- R151: a VERIFY of the same chunk immediately after a REGENERATE of it gives MATCH = 1, as a run of three steps: the
REGENERATE completes, the host writes VERIFY to CMD, the VERIFY completes. The REGENERATE may have stored early; no agent has
stored to its read set, and no other agent to its write set. -/
def Obligations.VerifyAfterRegenerateMatches : Prop :=
  ∀ (s : State) (k : Nat) (e : Engine) (f : InFlight) (rest : List Event),
    s.Inv → s.engines[k]? = some e → e.inflight = some f → decode e.cmd = .ok .regenerate → (s.view f).FrameOk →
    f.Unraced (s.view f).addr (8 + (s.view f).lengthField.toNat) →
    f.Undisturbed ((s.view f).addr + 8 + (s.view f).lengthField.toNat) 4 →
    s.agenda = .complete k :: .host (.regWrite (e.regBase + 0x00) 4 (.lit 0x00000004)) :: .complete k :: rest →
    ∃ t e', Sys2Proof.core.run 3 s = .next t ∧ t.agenda = rest ∧ t.engines[k]? = some e'
      ∧ e'.busy = false ∧ e'.done = true ∧ e'.matched = true ∧ e'.err = .ok
      ∧ e'.length = (s.view f).lengthField ∧ e'.storedCrc = e'.crcResult

/-! ### Results: the chunk-frame family -/

/-- R173: LEN_DECODE writes the big-endian length field with no ceiling test; TRUNCATED when LEN < 4; BUS_ERROR first. -/
def Obligations.LenDecodeResult : Prop :=
  ∀ (s : State) (e : Engine) (f : InFlight), s.InFlightAt e f →
    ((s.view f).SliceInMem → 4 ≤ (s.view f).len →
      exec .lenDecode s = .next { s with
        engines := s.engines.set s.current
          { e with length := (s.view f).lengthField, inflight := none, done := true, err := .ok } })
    ∧ (s.view f).lengthField.toNat =
        ((s.view f).read .length (s.view f).addr).toNat * 2 ^ 24
        + ((s.view f).read .length ((s.view f).addr + 1)).toNat * 2 ^ 16
        + ((s.view f).read .length ((s.view f).addr + 2)).toNat * 2 ^ 8
        + ((s.view f).read .length ((s.view f).addr + 3)).toNat
    ∧ ((s.view f).SliceInMem → (s.view f).len < 4 →
      exec .lenDecode s = .next { s with
        engines := s.engines.set s.current { e with inflight := none, done := true, err := .truncated } })
    ∧ (¬ (s.view f).SliceInMem →
      exec .lenDecode s = .next { s with
        engines := s.engines.set s.current { e with inflight := none, done := true, err := .busError } })
    ∧ encode .lenDecode = 0x00000010

/-- R174, R180: TAG_EXTRACT writes the 4 bytes at chunk offsets `[4, 8)`, tag byte 0 in TAG[31:24]; FLAGS follows;
TRUNCATED when LEN < 8; BUS_ERROR first. -/
def Obligations.TagExtractResult : Prop :=
  ∀ (s : State) (e : Engine) (f : InFlight), s.InFlightAt e f →
    ((s.view f).SliceInMem → 8 ≤ (s.view f).len →
      ∃ e', exec .tagExtract s = .next { s with engines := s.engines.set s.current e' }
        ∧ e' = { e with
            tag := be32 ((s.view f).read .tag ((s.view f).addr + 4)) ((s.view f).read .tag ((s.view f).addr + 5))
              ((s.view f).read .tag ((s.view f).addr + 6)) ((s.view f).read .tag ((s.view f).addr + 7))
            inflight := none, done := true, err := .ok }
        ∧ (e'.flags[0] = ((s.view f).read .tag ((s.view f).addr + 4))[5])
        ∧ (e'.flags[1] = ((s.view f).read .tag ((s.view f).addr + 6))[5])
        ∧ (e'.flags[2] = ((s.view f).read .tag ((s.view f).addr + 7))[5]))
    ∧ ((s.view f).SliceInMem → (s.view f).len < 8 →
      exec .tagExtract s = .next { s with
        engines := s.engines.set s.current { e with inflight := none, done := true, err := .truncated } })
    ∧ (¬ (s.view f).SliceInMem →
      exec .tagExtract s = .next { s with
        engines := s.engines.set s.current { e with inflight := none, done := true, err := .busError } })
    ∧ encode .tagExtract = 0x00000011

/-- R175: PAYLOAD writes LENGTH, PAYLOAD_ADDR and PAYLOAD_LEN when the frame check passes. -/
def Obligations.PayloadResult : Prop :=
  ∀ (s : State) (e : Engine) (f : InFlight), s.InFlightAt e f → (s.view f).FrameOk → s.memSize ≤ 2 ^ 32 - 1 →
    ∃ e', exec .payload s = .next { s with engines := s.engines.set s.current e' }
      ∧ e' = { e with
          length := (s.view f).lengthField
          payloadAddr := e'.payloadAddr
          payloadLen := (s.view f).lengthField
          inflight := none, done := true, err := .ok }
      ∧ e'.payloadAddr.toNat = f.addr.toNat + 8

/-- R181: NEXT writes LENGTH, NEXT_ADDR = ADDR + L + 12 and NEXT_AVAIL = LEN - (L + 12), which both fit 32 bits. -/
def Obligations.NextResult : Prop :=
  ∀ (s : State) (e : Engine) (f : InFlight), s.InFlightAt e f → (s.view f).FrameOk → s.memSize ≤ 2 ^ 32 - 1 →
    ∃ e', exec .next s = .next { s with engines := s.engines.set s.current e' }
      ∧ e' = { e with
          length := (s.view f).lengthField
          nextAddr := e'.nextAddr
          nextAvail := e'.nextAvail
          inflight := none, done := true, err := .ok }
      ∧ e'.nextAddr.toNat = f.addr.toNat + e'.length.toNat + 12
      ∧ e'.nextAvail.toNat = f.len.toNat - (e'.length.toNat + 12)
      ∧ e'.nextAddr.toNat + e'.nextAvail.toNat = f.addr.toNat + f.len.toNat

/-- R182: FRAME writes the results of the length decoder, the tag extractor, the bounds checker and the offset calculator,
and the stored CRC. -/
def Obligations.FrameResult : Prop :=
  ∀ (s : State) (e : Engine) (f : InFlight), s.InFlightAt e f → (s.view f).FrameOk → s.memSize ≤ 2 ^ 32 - 1 →
    ∃ e', exec .frame s = .next { s with engines := s.engines.set s.current e' }
      ∧ e' = { e with
          length := (s.view f).lengthField
          tag := (s.view f).read32 .tag ((s.view f).addr + 4)
          payloadAddr := e'.payloadAddr
          payloadLen := (s.view f).lengthField
          nextAddr := e'.nextAddr
          nextAvail := e'.nextAvail
          storedCrc := (s.view f).read32 .stored ((s.view f).addr + 8 + (s.view f).lengthField.toNat)
          inflight := none, done := true, err := .ok }
      ∧ e'.payloadAddr.toNat = f.addr.toNat + 8
      ∧ e'.nextAddr.toNat = f.addr.toNat + e'.length.toNat + 12
      ∧ e'.nextAvail.toNat = f.len.toNat - (e'.length.toNat + 12)

/-- R183: APPEND copies exactly the L + 12 bytes of the record, verbatim, to DST_ADDR, advances DST_ADDR and decreases
DST_AVAIL by L + 12, and writes LENGTH; bytes no other agent has stored to during the command hold the copy. -/
def Obligations.AppendResult : Prop :=
  ∀ (s : State) (e : Engine) (f : InFlight), s.InFlightAt e f → Memory.wf s.mem → (s.view f).AppendOk →
    s.memSize ≤ 2 ^ 32 - 1 →
    ∃ t e', exec .append s = .next t ∧ t.engines[s.current]? = some e'
      ∧ e' = { e with
          length := (s.view f).lengthField
          dstAddr := e'.dstAddr
          dstAvail := e'.dstAvail
          inflight := none, done := true, err := .ok }
      ∧ e'.dstAddr.toNat = f.dstAddr.toNat + (e'.length.toNat + 12)
      ∧ e'.dstAvail.toNat = f.dstAvail.toNat - (e'.length.toNat + 12)
      ∧ e'.dstAddr.toNat + e'.dstAvail.toNat = f.dstAddr.toNat + f.dstAvail.toNat
      ∧ ∀ j, j < e'.length.toNat + 12 → f.racedAt (f.dstAddr.toNat + j) = false →
          Memory.read t.mem (f.dstAddr.toNat + j) = (s.view f).read .data (f.addr.toNat + j)

/-! ### Errors -/

/-- R239 for the framed commands but APPEND (VERIFY, REGENERATE, PAYLOAD, NEXT, FRAME): the first error that applies, in
the order BUS_ERROR, TRUNCATED (LEN < 4), CHUNK_TOO_LARGE, TRUNCATED (LEN < L + 12); and a command that raises changes
nothing but BUSY, DONE and ERR. -/
def Obligations.FramedCommandsRaiseInOrder : Prop :=
  ∀ (i : Instr) (s : State) (e : Engine) (f : InFlight) (c : ErrorCode), framed i = true → i ≠ .append →
    s.InFlightAt e f →
    ((s.memSize < (s.view f).addr + (s.view f).len ∧ c = .busError)
      ∨ ((s.view f).SliceInMem ∧ (s.view f).len < 4 ∧ c = .truncated)
      ∨ ((s.view f).SliceInMem ∧ 4 ≤ (s.view f).len ∧ 0x80000000 < (s.view f).lengthField.toNat ∧ c = .chunkTooLarge)
      ∨ ((s.view f).SliceInMem ∧ 4 ≤ (s.view f).len ∧ (s.view f).lengthField.toNat ≤ 0x80000000
          ∧ (s.view f).len < (s.view f).lengthField.toNat + 12 ∧ c = .truncated)) →
    exec i s = .next { s with engines := s.engines.set s.current { e with inflight := none, done := true, err := c } }

/-- R239 for APPEND: BUS_ERROR on the slice, BUS_ERROR on the window, the frame check's errors, OUTPUT_OVERFLOW (R236),
OVERLAP (R184, R237), in this order; nothing but BUSY, DONE and ERR changes. -/
def Obligations.AppendRaisesInOrder : Prop :=
  ∀ (s : State) (e : Engine) (f : InFlight) (c : ErrorCode), s.InFlightAt e f →
    (let V := s.view f
     let L := V.lengthField.toNat
     (¬ V.SliceInMem ∧ c = .busError)
      ∨ (V.SliceInMem ∧ s.memSize < V.dstAddr + V.dstAvail ∧ c = .busError)
      ∨ (V.SliceInMem ∧ V.dstAddr + V.dstAvail ≤ s.memSize ∧ V.len < 4 ∧ c = .truncated)
      ∨ (V.SliceInMem ∧ V.dstAddr + V.dstAvail ≤ s.memSize ∧ 4 ≤ V.len ∧ 0x80000000 < L ∧ c = .chunkTooLarge)
      ∨ (V.SliceInMem ∧ V.dstAddr + V.dstAvail ≤ s.memSize ∧ 4 ≤ V.len ∧ L ≤ 0x80000000 ∧ V.len < L + 12
          ∧ c = .truncated)
      ∨ (V.FrameOk ∧ V.dstAddr + V.dstAvail ≤ s.memSize ∧ V.dstAvail < L + 12 ∧ c = .outputOverflow)
      ∨ (V.FrameOk ∧ V.dstAddr + V.dstAvail ≤ s.memSize ∧ L + 12 ≤ V.dstAvail
          ∧ (∃ x, V.addr ≤ x ∧ x < V.addr + (L + 12) ∧ V.dstAddr ≤ x ∧ x < V.dstAddr + (L + 12)) ∧ c = .overlap)) →
    exec .append s = .next { s with
      engines := s.engines.set s.current { e with inflight := none, done := true, err := c } }

/-- R240: a command that ends with an error other than CHECKSUM_MISMATCH has changed nothing but BUSY, DONE and ERR, and
so has an illegal word; CHECKSUM_MISMATCH is VERIFY's alone (R230). -/
def Obligations.RaisingHasNoPartialEffects : Prop :=
  (∀ (i : Instr) (s t : State) (e e' : Engine) (f : InFlight), s.InFlightAt e f → exec i s = .next t →
    t.engines[s.current]? = some e' → e'.err ≠ .ok →
    (e'.err = .checksumMismatch ∧ i = .verify)
      ∨ e'.err ≠ .checksumMismatch ∧ t = { s with
          engines := s.engines.set s.current { e with inflight := none, done := true, err := e'.err } })
  ∧ ∀ (s : State) (e : Engine) (f : InFlight), s.InFlightAt e f →
      completeIllegal s = .next { s with
        engines := s.engines.set s.current { e with inflight := none, done := true, err := .illegalCommand } }

/-! ### Frames -/

/-- R33, R112, R222: for every command, a register not in R112's list for it (nor derived from one that is) keeps its
value; MATCH changes for VERIFY alone (R42); OVR and DONE_IE do not change; completion clears BUSY and sets DONE. -/
def Obligations.CommandsKeepTheRegistersTheyDoNotWrite : Prop :=
  ∀ (i : Instr) (s t : State) (e : Engine) (f : InFlight), s.InFlightAt e f → exec i s = .next t →
    ∃ e', t.engines[s.current]? = some e'
      ∧ (∀ r, r ≠ .status → r ∉ writtenBy i → e'.regValue r = e.regValue r)
      ∧ (i ≠ .verify → e'.matched = e.matched) ∧ e'.ovr = e.ovr ∧ e'.regBase = e.regBase
      ∧ e'.busy = false ∧ e'.done = true

/-- R152, R92: only REGENERATE and APPEND write memory, and only when they do not raise. -/
def Obligations.OtherCommandsLeaveMemory : Prop :=
  ∀ (i : Instr) (s t : State), exec i s = .next t →
    (i ≠ .regenerate → i ≠ .append → t.mem = s.mem)
    ∧ ∀ e f e', s.InFlightAt e f → t.engines[s.current]? = some e' → e'.err ≠ .ok → t.mem = s.mem

/-- R151, R183, R85: every byte outside the write set reads as before, the write set computed from the snapshot and the
decoded length. -/
def Obligations.StoringCommandsWriteOnlyTheirWriteSet : Prop :=
  ∀ (i : Instr) (s t : State) (e : Engine) (f : InFlight), s.InFlightAt e f → Memory.wf s.mem → exec i s = .next t →
    ∀ a, ¬ InRanges (writeSet i f.addr.toNat f.dstAddr.toNat (s.view f).lengthField.toNat) a →
      Memory.read t.mem a = Memory.read s.mem a

/-- R251: a command changes no register of another engine, and of another engine's in-flight command only its notes of
stores, as another agent's; it leaves the host's data, the schedule and the parameters alone. -/
def Obligations.CommandsLeaveOtherAgentsAlone : Prop :=
  ∀ (i : Instr) (s t : State), exec i s = .next t →
    t.memSize = s.memSize ∧ t.vars = s.vars ∧ t.bufs = s.bufs ∧ t.agenda = s.agenda ∧ t.current = s.current
      ∧ t.draws = s.draws ∧ t.engines.length = s.engines.length
      ∧ ∀ k e, k ≠ s.current → s.engines[k]? = some e →
          ∃ notes : List StoreNote, (∀ n ∈ notes, n.own = false) ∧ t.engines[k]? = some { e with
            inflight := e.inflight.map fun f => { f with held := f.held ++ notes } }

/-- R85's read sets: what a command writes, and the code it ends with, depend on memory only through the bytes of its read
set. Two memories that agree there give the same engine, the same byte wherever they agreed, and, where the command ends
with OK, the same byte in its write set but where another agent stored. -/
def Obligations.CommandsReadOnlyTheirReadSet : Prop :=
  ∀ (i : Instr) (s1 s2 : State) (e : Engine) (f : InFlight),
    s1.InFlightAt e f → s2.InFlightAt e f → s1.memSize = s2.memSize → Memory.wf s1.mem → Memory.wf s2.mem →
    (∀ x, InRanges (readSet i f.addr.toNat f.len.toNat (s1.view f).lengthField.toNat) x →
      Memory.read s1.mem x = Memory.read s2.mem x) →
    ∃ t1 t2 e', exec i s1 = .next t1 ∧ exec i s2 = .next t2
      ∧ t1.engines[s1.current]? = some e' ∧ t2.engines[s2.current]? = some e'
      ∧ (∀ a, Memory.read s1.mem a = Memory.read s2.mem a → Memory.read t1.mem a = Memory.read t2.mem a)
      ∧ (e'.err = .ok → ∀ a, InRanges (writeSet i f.addr.toNat f.dstAddr.toNat (s1.view f).lengthField.toNat) a →
          f.racedAt a = false → Memory.read t1.mem a = Memory.read t2.mem a)

/-! ### Concurrent access -/

/-- R86 (a): a byte the engine reads is the memory's when no agent has stored to it during the command, and otherwise one of
the values it held or holds, at each place it is read and whether the read was made early or is made now. (That early reads
gave such values is part of the invariant.) -/
def Obligations.EngineReadsAHeldValue : Prop :=
  ∀ (s : State) (f : InFlight) (site : ReadSite) (a : Nat), f.ReadsHeld s.mem →
    (f.heldAt a = [] → (s.view f).read site a = Memory.read s.mem a)
    ∧ ((s.view f).read site a = Memory.read s.mem a ∨ (s.view f).read site a ∈ f.heldAt a)

/-- R86 (a), R87: a store leaves the bytes stored to with their new values and the others as they were; every value a command
in flight could read it still can, and the new ones are added (the note's form is the model's, assumption 13). -/
def Obligations.StoresAreRecordedForCommandsInFlight : Prop :=
  ∀ (s : State) (cells : List Host.Cell) (k : Nat) (e : Engine) (f : InFlight) (a : Nat) (v : Byte),
    Memory.wf s.mem → s.engines[k]? = some e → e.inflight = some f →
    (v = Memory.read s.mem a ∨ v ∈ f.heldAt a) →
    ∃ e' f', (s.store cells).engines[k]? = some e' ∧ e'.inflight = some f'
      ∧ (v = Memory.read (s.store cells).mem a ∨ v ∈ f'.heldAt a)
      ∧ (∀ c ∈ cells, f'.heldAt c.1 ≠ [] ∧ f'.racedAt c.1 = true)
      ∧ ((cells.map (·.1)).Nodup → ∀ c ∈ cells, Memory.read (s.store cells).mem c.1 = c.2)
      ∧ (∀ x, (∀ c ∈ cells, c.1 ≠ x) → Memory.read (s.store cells).mem x = Memory.read s.mem x)
      ∧ f'.heldAt a = f.heldAt a ++ ((cells.filter fun c => c.1 == a).map fun _ => Memory.read s.mem a)

/-- R86 (b), R223: what a host load of a byte got. Where no command in flight may write the byte, it is the byte in memory.
Otherwise the load waits for the commands in flight that may write it (the others will not): it stays as it is until one of
them completes or is reset (or the host names other bytes so), and takes up from that one, if the byte is in its write set, the
value at the acceptance and the value the command writes. All of them having ended, what the load got is memory's byte at the
load where none of them wrote the byte, and otherwise a value that R86 (b) allows for some of them, and for all of them where
there is such a value (the draw: assumption 5; when it is known in the model: assumption 14). -/
def Obligations.HostLoadReturnsAnAllowedValue : Prop :=
  (∀ (s : State) (n a : Nat), ∃ ws,
    s.hostLoad n a = (if ws = [] then .known (Memory.read s.mem a)
      else .pending { event := n, addr := a, seen := Memory.read s.mem a, waits := ws, allowed := [] })
    ∧ (∀ k ∈ ws, ∃ e, s.engines[k]? = some e ∧ e.busy = true)
    ∧ ∀ k e, s.engines[k]? = some e → e.busy = true → k ∉ ws → e.WillNotWrite s.memSize a)
  ∧ (∀ (s t : State) (name j : Nat) (p : PendingLoad), s.Inv → step s = .next t →
    (Sparse.get [] s.bufs name)[j]? = some (.pending p) → (∀ a n rest, s.agenda ≠ .host (.memRead a n name) :: rest) →
    (∀ (k : Nat) (e : Engine) (f : InFlight), k ∈ p.waits → s.engines[k]? = some e → e.inflight = some f →
      (∃ rest, s.agenda = .complete k :: rest ∨ s.agenda = .reset k :: rest)
        ∨ s.agenda = [] ∧ firstBusy s.engines 0 = some k →
      ∃ q : PendingLoad, q.event = p.event ∧ q.addr = p.addr ∧ q.seen = p.seen ∧ q.waits = p.waits.filter (fun j => j ≠ k)
        ∧ (cellValue? (s.plannedBy e) p.addr = none → q.allowed = p.allowed)
        ∧ (∀ v, cellValue? (s.plannedBy e) p.addr = some v → q.allowed = p.allowed ++ [[f.valueBefore s.mem p.addr, v]])
        ∧ (Sparse.get [] t.bufs name)[j]? = some (if q.waits = [] then .known q.value else .pending q))
    ∧ ((∀ k ∈ p.waits, (∀ rest, s.agenda ≠ .complete k :: rest ∧ s.agenda ≠ .reset k :: rest)
        ∧ (s.agenda = [] → firstBusy s.engines 0 ≠ some k)) →
      (Sparse.get [] t.bufs name)[j]? = some (.pending p)))
  ∧ (∀ p : PendingLoad,
    (p.allowed = [] → p.value = p.seen)
    ∧ (p.allowed ≠ [] → (∀ vs ∈ p.allowed, vs ≠ []) →
      (∃ vs ∈ p.allowed, p.value ∈ vs)
      ∧ ((∃ y, ∀ vs ∈ p.allowed, y ∈ vs) → ∀ vs ∈ p.allowed, p.value ∈ vs)))
  ∧ ∀ (s t : State) (k a : Nat) (e : Engine), Memory.wf s.mem → s.engines[k]? = some e → step s = .next t →
      (∀ rest, s.agenda ≠ .reset k :: rest) → e.WillNotWrite s.memSize a →
      ∃ e', t.engines[k]? = some e' ∧ (e'.WillNotWrite t.memSize a
        ∨ e'.busy = false ∧ Memory.read t.mem a = Memory.read s.mem a)

/-- R86 (c): after completion a byte of the write set holds the command's value when no other agent stored to it during the
command, and otherwise either that value or what the byte held. -/
def Obligations.RacedStoreLeavesOneOfTheTwoValues : Prop :=
  ∀ (i : Instr) (s t : State) (e : Engine) (f : InFlight) (fin : Finish), s.InFlightAt e f → Memory.wf s.mem →
    planOf i (s.view f) e = .ok fin → exec i s = .next t →
    ∀ c ∈ fin.writes,
      (f.racedAt c.1 = false → Memory.read t.mem c.1 = c.2)
      ∧ (Memory.read t.mem c.1 = c.2 ∨ Memory.read t.mem c.1 = Memory.read s.mem c.1)

/-- R61, R86: in a command whose read set no agent has stored to, no draw shows: what it writes is fixed by its snapshot and
the memory, as for a command that has noted and read nothing yet, with any other epoch. -/
def Obligations.UnracedCommandsAreDetermined : Prop :=
  ∀ (i : Instr) (s : State) (e : Engine) (f : InFlight) (epoch : Nat), s.InFlightAt e f → f.ReadsHeld s.mem →
    (∀ x, InRanges (readSet i f.addr.toNat f.len.toNat (s.view f).lengthField.toNat) x → f.heldAt x = []) →
    planOf i (s.view f) e = planOf i (s.view { f with held := [], reads := [], epoch := epoch }) e

/-! ### The host's accesses -/

/-- R30, R210: every offset of every engine's window is reached at REG_BASE + offset, and at no other engine
(distinct bases are deduced, assumption 16). -/
def Obligations.WindowsAreReachedAtTheirBase : Prop :=
  ∀ (s : State) (k : Nat) (e : Engine) (off : Nat), s.Inv → s.engines[k]? = some e → off < 0x80 →
    findWindow (e.regBase + off) s.engines 0 = some (k, e, off)
    ∧ (off % 4 = 0 → s.busTarget (e.regBase + off) 4 = .ok (k, e, off))

/-- R214: a write of CMD while BUSY = 0 accepts the word, whatever it is: CMD, BUSY and DONE change, the operands are
snapshotted, and ERR, MATCH and OVR and every other register stay. The word is a literal or a host variable's (R119). -/
def Obligations.CmdWriteWhileIdleIsAccepted : Prop :=
  ∀ (s : State) (k : Nat) (e : Engine) (v : HostVal) (rest : List Event), s.Inv → s.engines[k]? = some e →
    e.busy = false → s.agenda = .host (.regWrite (e.regBase + 0x00) 4 v) :: rest →
    step s = .next { s with
      engines := s.engines.set k { e with
        cmd := s.hostValue v, done := false
        inflight := some
          { addr := e.addr, len := e.len, dstAddr := e.dstAddr, dstAvail := e.dstAvail, crcAcc := e.crcAcc
            epoch := s.draws, held := [], reads := [] } }
      agenda := rest, draws := s.draws + 1 }

/-- R215, R216: a write of CMD, ADDR, LEN, DST_ADDR, DST_AVAIL, CRC_ACC or TAG while BUSY = 1 is dropped and sets OVR: no
register, no snapshot and no in-flight command changes. -/
def Obligations.WritesWhileBusyAreDropped : Prop :=
  ∀ (s : State) (k : Nat) (e : Engine) (r : Reg) (v : HostVal) (rest : List Event), s.Inv → s.engines[k]? = some e →
    e.busy = true → r ∈ [.cmd, .addr, .len, .dstAddr, .dstAvail, .crcAcc, .tag] →
    s.agenda = .host (.regWrite (e.regBase + regOffset r) 4 v) :: rest →
    step s = .next { s with
      engines := s.engines.set k { e with ovr := true }, agenda := rest, draws := s.draws + 1 }

/-- R213: while BUSY = 0 a write of ADDR, LEN, DST_ADDR, DST_AVAIL, CRC_ACC or TAG sets the register to the value (a literal,
or a host variable's, as in ADVANCE), all 32 bits, and FLAGS and CRC_RESULT follow; every other register stays. -/
def Obligations.OperandWritesWhileIdleTakeEffect : Prop :=
  ∀ (s : State) (k : Nat) (e : Engine) (r : Reg) (v : HostVal) (rest : List Event), s.Inv → s.engines[k]? = some e →
    e.busy = false → r ∈ [.addr, .len, .dstAddr, .dstAvail, .crcAcc, .tag] →
    s.agenda = .host (.regWrite (e.regBase + regOffset r) 4 v) :: rest →
    ∃ e', step s = .next { s with engines := s.engines.set k e', agenda := rest, draws := s.draws + 1 }
      ∧ e'.regValue r = s.hostValue v ∧ e'.inflight = none
      ∧ (r = .tag → e'.flags = Engine.flags { e with tag := s.hostValue v })
      ∧ (r = .crcAcc → e'.crcResult = s.hostValue v ^^^ 0xFFFFFFFF)
      ∧ (∀ q, q ≠ r → (r = .tag → q ≠ .flags) → (r = .crcAcc → q ≠ .crcResult) → e'.regValue q = e.regValue q)

/-- R217, R218: a write of STATUS clears DONE (and lowers the interrupt line) where bit 1 is 1, clears OVR where bit 3 is
1, and does nothing else; a write of IRQ_EN sets DONE_IE to bit 0 and does nothing else; busy or not. -/
def Obligations.StatusAndIrqEnWrites : Prop :=
  ∀ (s : State) (k : Nat) (e : Engine) (v : HostVal) (rest : List Event), s.Inv → s.engines[k]? = some e →
    (s.agenda = .host (.regWrite (e.regBase + 0x04) 4 v) :: rest →
      step s = .next { s with
        engines := s.engines.set k { e with
          done := if (s.hostValue v)[1] then false else e.done
          ovr := if (s.hostValue v)[3] then false else e.ovr }
        agenda := rest, draws := s.draws + 1 })
    ∧ ((s.hostValue v)[1] = true → Engine.irq { e with
          done := if (s.hostValue v)[1] then false else e.done
          ovr := if (s.hostValue v)[3] then false else e.ovr } = false)
    ∧ (s.agenda = .host (.regWrite (e.regBase + 0x08) 4 v) :: rest →
      step s = .next { s with
        engines := s.engines.set k { e with doneIe := (s.hostValue v)[0] }, agenda := rest, draws := s.draws + 1 })

/-- R212, R59: a write of a read-only register or of an unmapped offset is ignored, busy or not, and sets no OVR. -/
def Obligations.ReadOnlyAndUnmappedWritesAreIgnored : Prop :=
  ∀ (s : State) (k : Nat) (e : Engine) (off : Nat) (v : HostVal) (rest : List Event), s.Inv → s.engines[k]? = some e →
    off % 4 = 0 →
    (off ∈ [0x20, 0x24, 0x2C, 0x30, 0x34, 0x38, 0x3C, 0x40] ∨ 0x44 ≤ off ∧ off ≤ 0x7C) →
    s.agenda = .host (.regWrite (e.regBase + off) 4 v) :: rest →
    step s = .next { s with agenda := rest, draws := s.draws + 1 }

/-- R210, R60, R59: a register read changes nothing but the host's variable; it gives the register's value when the engine
is idle, and for CMD, STATUS, IRQ_EN, ADDR and LEN always; an unmapped offset reads 0. -/
def Obligations.RegisterReads : Prop :=
  ∀ (s : State) (k : Nat) (e : Engine) (off dst : Nat) (rest : List Event), s.Inv → s.engines[k]? = some e →
    off % 4 = 0 → off < 0x80 → s.agenda = .host (.regRead (e.regBase + off) 4 dst) :: rest →
    ∃ v, step s = .next { s with vars := Sparse.set 0 s.vars dst v, agenda := rest, draws := s.draws + 1 }
      ∧ (∀ r, off = regOffset r → e.busy = false ∨ r ∈ [.cmd, .status, .irqEn, .addr, .len] → v = e.regValue r)
      ∧ (0x44 ≤ off → v = 0)

/-- R39, R230: STATUS bit by bit, with the numbers of the error codes. -/
def Obligations.StatusLayout : Prop :=
  ∀ e : Engine,
    e.status[0] = e.busy ∧ e.status[1] = e.done ∧ e.status[2] = e.matched ∧ e.status[3] = e.ovr
    ∧ e.status.extractLsb' 8 4 = e.err.code ∧ e.status.extractLsb' 4 4 = 0 ∧ e.status.extractLsb' 12 20 = 0
    ∧ ErrorCode.code .ok = 0 ∧ ErrorCode.code .truncated = 1 ∧ ErrorCode.code .chunkTooLarge = 2
    ∧ ErrorCode.code .checksumMismatch = 3 ∧ ErrorCode.code .busError = 4 ∧ ErrorCode.code .outputOverflow = 5
    ∧ ErrorCode.code .overlap = 6 ∧ ErrorCode.code .illegalCommand = 7

/-- R47, R50–R53, R63: the derived registers and the interrupt line. -/
def Obligations.DerivedRegisters : Prop :=
  ∀ e : Engine,
    e.flags[0] = e.tag[29] ∧ e.flags[1] = e.tag[13] ∧ e.flags[2] = e.tag[5] ∧ e.flags.extractLsb' 3 29 = 0
    ∧ e.crcResult = e.crcAcc ^^^ 0xFFFFFFFF ∧ e.irq = (e.done && e.doneIe)

/-- R98: an access that is not 32 bits wide or not aligned is refused, whatever its address; so is one that meets no window
(the model's choice, assumption 15, for R88). -/
def Obligations.UndefinedRegisterAccessesAreRefused : Prop :=
  ∀ (s : State) (a width dst : Nat) (v : HostVal) (rest : List Event) (op : HostOp),
    op = .regRead a width dst ∨ op = .regWrite a width v → s.agenda = .host op :: rest →
    (width ≠ 4 → step s = .refused .registerAccessWidth)
    ∧ (width = 4 → a % 4 ≠ 0 → step s = .refused .registerAccessMisaligned)
    ∧ (width = 4 → a % 4 = 0 → (∀ e ∈ s.engines, a < e.regBase ∨ e.regBase + 0x80 ≤ a) →
        step s = .refused .noRegisterWindow)

/-- R12, R87, R223: a host store in memory leaves byte `i` of the sequence at `a + i` and every other byte as it was, and
changes of an engine nothing but its command's notes of stores (one step for all the bytes: the model's choice, assumption
22); a store that reaches outside memory faults (the model's choice, assumption 23: R12 defines none). The address is a value or
a host variable (the model's choice, assumption 25). -/
def Obligations.HostStores : Prop :=
  ∀ (s : State) (v : HostVal) (a : Nat) (bytes : List Byte) (rest : List Event), Memory.wf s.mem →
    (s.hostValue v).toNat = a → s.agenda = .host (.memWrite v bytes) :: rest →
    (a + bytes.length ≤ s.memSize →
      ∃ t, step s = .next t
        ∧ (∀ j b, bytes[j]? = some b → Memory.read t.mem (a + j) = b)
        ∧ (∀ x, x < a ∨ a + bytes.length ≤ x → Memory.read t.mem x = Memory.read s.mem x)
        ∧ t.engines.map Engine.withoutNotes = s.engines.map Engine.withoutNotes
        ∧ t = { s with mem := t.mem, engines := t.engines, agenda := rest, draws := s.draws + 1 })
    ∧ (s.memSize < a + bytes.length → step s = .fault .hostStoreOutsideMemory)

/-- R223, R86 (b), R12: a host load in memory names the bytes it reads, each at its own address, and changes nothing else;
where no command in flight may write a byte of it, they are the bytes of memory (one step for all the bytes: the model's choice,
assumption 22; a byte that a command may write: HostLoadReturnsAnAllowedValue); a load that reaches outside memory faults (the
model's choice, assumption 23: R12 defines none). The address and the number of bytes are values or host variables (the model's
choice, assumption 25). -/
def Obligations.HostLoads : Prop :=
  ∀ (s : State) (va vn : HostVal) (a n dst : Nat) (rest : List Event), (s.hostValue va).toNat = a →
    (s.hostValue vn).toNat = n → s.agenda = .host (.memRead va vn dst) :: rest →
    (a + n ≤ s.memSize →
      step s = .next { s with
        bufs := Sparse.set [] s.bufs dst (s.hostLoads s.draws a n), agenda := rest, draws := s.draws + 1 }
      ∧ (s.hostLoads s.draws a n).length = n
      ∧ (∀ j, j < n → (s.hostLoads s.draws a n)[j]? = some (s.hostLoad s.draws (a + j)))
      ∧ ((∀ e ∈ s.engines, ∀ x, a ≤ x → x < a + n → s.mayWriteByte x e = false) →
          s.hostLoads s.draws a n = (Memory.bytes s.mem a n).map LoadedByte.known))
    ∧ (s.memSize < a + n → step s = .fault .hostLoadOutsideMemory)

/-- R224, R221: a WAIT on an engine ends at once when BUSY = 0, with STATUS in `ht` and nothing else changed; when BUSY = 1
that engine completes and the WAIT has then ended, `ht` holding a STATUS with BUSY = 0 and DONE = 1 (the engine's turn within
the wait is the model's, assumption 8). -/
def Obligations.WaitEndsWithBusyClear : Prop :=
  ∀ (s : State) (k : Nat) (e : Engine) (rest : List Event), s.Inv → s.engines[k]? = some e →
    s.agenda = .host (.wait e.regBase) :: rest →
    (e.busy = false →
      step s = .next { s with vars := Sparse.set 0 s.vars 0 e.status, agenda := rest, draws := s.draws + 1 })
    ∧ (e.busy = true →
      ∃ t e', Sys2Proof.core.run 3 s = .next t ∧ t.agenda = rest ∧ t.engines[k]? = some e' ∧ e'.busy = false
        ∧ e'.done = true ∧ Sparse.get 0 t.vars 0 = e'.status)

/-! ### Reset -/

/-- R270: the reset input puts the engine in the stated state, which is also its state at power-on; an idle engine's reset
changes no memory (R272). -/
def Obligations.ResetLeavesTheStatedValues : Prop :=
  ∀ (s : State) (k : Nat) (e : Engine) (rest : List Event), s.engines[k]? = some e → s.agenda = .reset k :: rest →
    ∃ t e' p, step s = .next t ∧ t.engines[k]? = some e'
      ∧ (∀ r, r ≠ .crcAcc → e'.regValue r = 0) ∧ e'.crcAcc = 0xFFFFFFFF ∧ e'.busy = false ∧ e'.done = false
      ∧ e'.matched = false ∧ e'.ovr = false ∧ e'.err = .ok ∧ e'.doneIe = false ∧ e'.inflight = none
      ∧ e'.irq = false ∧ e'.regBase = e.regBase
      ∧ (e.busy = false → t = { s with
          engines := s.engines.set k e', agenda := rest, draws := s.draws + 1 })
      ∧ State.reset.engines[State.reset.current]? = some p ∧ e' = { p with regBase := e.regBase }

/-- R271: a reset while BUSY = 1 abandons the command, leaves the engine as any reset does, and each byte the command would
have written (judged at the reset: assumption 14) with either its value from before the
acceptance or that command's, every other byte unchanged; the other engines keep their registers (R251), and their commands
take note of the stores; the host's data and the schedule stay, but that the host's loads that waited for the command are
settled (assumption 14). -/
def Obligations.ResetOfABusyEngineAbandonsTheCommand : Prop :=
  ∀ (s : State) (k : Nat) (e : Engine) (f : InFlight) (rest : List Event), Memory.wf s.mem → s.engines[k]? = some e →
    e.inflight = some f → s.agenda = .reset k :: rest →
    ∃ t e', step s = .next t ∧ t.engines[k]? = some e' ∧ e'.busy = false ∧ e'.done = false
      ∧ (∀ r, r ≠ .crcAcc → e'.regValue r = 0) ∧ e'.crcAcc = 0xFFFFFFFF
      ∧ (∀ a v, cellValue? (s.plannedBy e) a = some v →
          Memory.read t.mem a = v ∨ Memory.read t.mem a = f.valueBefore s.mem a)
      ∧ (∀ a, cellValue? (s.plannedBy e) a = none → Memory.read t.mem a = Memory.read s.mem a)
      ∧ t = { s with
          mem := t.mem, engines := t.engines, bufs := s.endedLoads k e, agenda := rest, draws := s.draws + 1 }
      ∧ t.engines.length = s.engines.length
      ∧ ∀ j g, j ≠ k → s.engines[j]? = some g →
          ∃ notes : List StoreNote, (∀ n ∈ notes, n.own = false) ∧ t.engines[j]? = some { g with
            inflight := g.inflight.map fun h => { h with held := h.held ++ notes } }

/-- R31, R270, R273: the state after power-on; the values of the parameters and of memory are the model's (assumptions 1
and 2) and are not stated here. -/
def Obligations.PowerOnRegisters : Prop :=
  ∃ e, State.reset.engines[State.reset.current]? = some e
    ∧ (∀ r, r ≠ .crcAcc → e.regValue r = 0) ∧ e.regValue .crcAcc = 0xFFFFFFFF ∧ e.busy = false ∧ e.irq = false

/-! ### Invariants -/

/-- The invariant holds after power-on (with the parameters' values of assumption 1). -/
def Obligations.InvariantAtPowerOn : Prop := State.reset.Inv

/-- Every step of every agent keeps the invariant: the memory canonical and inside `0 .. MEM_SIZE-1` (R80, R83), DONE = 1
only while BUSY = 0 (R41), the snapshot equal to the registers (R61), a command that has stored past its checks and
its length (R171, R240), its reads made early of values the bytes held (R86 (a)), a byte stored early at the value its command
will leave there, but where another agent stored to it (R86 (c)), a host load unknown only while a command it waits
for is in flight (R86 (b), assumption 14), the parameters legal (R8). -/
def Obligations.EveryStepKeepsTheInvariant : Prop :=
  ∀ s t : State, s.Inv → step s = .next t → t.Inv

/-- R31: the parameters, which the model keeps in State (assumption 17), are fixed: no step changes MEM_SIZE, the number of
engines or a REG_BASE. -/
def Obligations.NoStepChangesTheParameters : Prop :=
  ∀ s t : State, step s = .next t →
    t.memSize = s.memSize ∧ t.engines.map Engine.regBase = s.engines.map Engine.regBase

/-- R32, R38, R33: CMD, ADDR and LEN of an engine change only by the host's writes and by reset: any step that is neither
leaves them. -/
def Obligations.OnlyTheHostWritesCmdAddrAndLen : Prop :=
  ∀ (s t : State) (k : Nat) (e : Engine), step s = .next t → s.engines[k]? = some e →
    (∀ ev rest, s.agenda = ev :: rest → (∀ a w v, ev ≠ .host (.regWrite a w v)) ∧ ∀ j, ev ≠ .reset j) →
    ∃ e', t.engines[k]? = some e' ∧ e'.cmd = e.cmd ∧ e'.addr = e.addr ∧ e'.len = e.len

/-- R96, R214, R220: an idle engine begins a command only when the host writes its CMD, and the command is the word written:
no store to memory, no other engine and no other register starts one. -/
def Obligations.OnlyACmdWriteBeginsACommand : Prop :=
  ∀ (s t : State) (k : Nat) (e e' : Engine), step s = .next t → s.engines[k]? = some e → e.busy = false →
    t.engines[k]? = some e' → e'.busy = true →
    ∃ v rest, s.agenda = .host (.regWrite (e.regBase + 0x00) 4 v) :: rest ∧ e'.cmd = s.hostValue v

/-- R222, R61: a store an engine makes before its completion step is one of the stores of its command: the byte takes the
planned value, which the command will leave there whatever is stored later (R86 (c) apart), no other byte changes, no
register changes, and the command can raise no more (deduced, assumption 13). What a command will write, every step but a reset
keeps so until the command ends with it, or with another agent's value (R86 (c)), in the byte. -/
def Obligations.EarlyStoresBelongToTheCommand : Prop :=
  (∀ (s : State) (k a : Nat) (e : Engine) (rest : List Event), s.Inv → s.engines[k]? = some e →
    s.agenda = .storeEarly k a :: rest →
    ∃ t e', step s = .next t ∧ t.engines[k]? = some e' ∧ (∀ r, e'.regValue r = e.regValue r)
      ∧ (∀ x, x ≠ a → Memory.read t.mem x = Memory.read s.mem x)
      ∧ (∀ v, cellValue? (s.plannedBy e) a = some v →
          Memory.read t.mem a = v ∧ e'.WillWrite t.memSize a (· = v) ∧ ∀ i, decode e.cmd = .ok i →
            ∃ u, exec i (t.select k) = .next u ∧ ∃ e'', u.engines[k]? = some e'' ∧ e''.err = .ok
              ∧ ∀ f, e.inflight = some f → f.racedAt a = false → Memory.read u.mem a = v)
      ∧ (cellValue? (s.plannedBy e) a = none → t = { s with agenda := rest, draws := s.draws + 1 }))
  ∧ ∀ (s t : State) (k a : Nat) (e : Engine) (p : Byte → Prop), Memory.wf s.mem → s.engines[k]? = some e →
      step s = .next t → (∀ rest, s.agenda ≠ .reset k :: rest) → e.WillWrite s.memSize a p →
      ∃ e', t.engines[k]? = some e' ∧ (e'.WillWrite t.memSize a p
        ∨ e'.busy = false ∧ e'.err = .ok ∧ ∃ v, p v ∧ ∀ f, e.inflight = some f →
            (f.racedAt a = false → Memory.read t.mem a = v)
            ∧ (Memory.read t.mem a = v ∨ Memory.read t.mem a = Memory.read s.mem a))
end

