-- ==== Sys2Proof/Laws/Sparse.lean ====
section
/-! SUPPORT. The laws of sparse data by key: a read after a write, the canonical form kept, and equal contents are equal
data. -/

namespace Sys2Proof.Machine.Sparse

variable {α : Type} {d : α}

@[simp] theorem get_nil (a : Nat) : get d ([] : List (Nat × α)) a = d := rfl

theorem get_cons (k : Nat) (v : α) (m : List (Nat × α)) (a : Nat) :
    get d ((k, v) :: m) a = if a = k then v else get d m a := rfl

theorem wf_nil : wf d ([] : List (Nat × α)) := by simp [wf]

theorem wf_tail {c : Nat × α} {m : List (Nat × α)} (h : wf d (c :: m)) : wf d m :=
  ⟨(List.pairwise_cons.1 h.1).2, fun x hx => h.2 x (List.mem_cons_of_mem _ hx)⟩

theorem wf_head {c : Nat × α} {m : List (Nat × α)} (h : wf d (c :: m)) : ∀ x ∈ m, c.1 < x.1 :=
  (List.pairwise_cons.1 h.1).1

theorem wf_cons {c : Nat × α} {m : List (Nat × α)} (hc : c.2 ≠ d) (hlt : ∀ x ∈ m, c.1 < x.1) (h : wf d m) :
    wf d (c :: m) :=
  ⟨List.pairwise_cons.2 ⟨hlt, h.1⟩, by
    intro x hx
    rcases List.mem_cons.1 hx with rfl | hx
    · exact hc
    · exact h.2 x hx⟩

/-- A key below every listed key is not listed. -/
theorem get_of_lt {m : List (Nat × α)} {a : Nat} (h : ∀ x ∈ m, a < x.1) : get d m a = d := by
  induction m with
  | nil => rfl
  | cons c m ih =>
    obtain ⟨k, v⟩ := c
    have hk : a < k := h (k, v) (by simp)
    rw [get_cons, if_neg (by omega)]
    exact ih fun x hx => h x (by simp [hx])

/-- The value at a listed key. -/
theorem get_of_mem {m : List (Nat × α)} (hm : wf d m) {c : Nat × α} (hc : c ∈ m) : get d m c.1 = c.2 := by
  induction m with
  | nil => simp at hc
  | cons x m ih =>
    obtain ⟨k, v⟩ := x
    rcases List.mem_cons.1 hc with rfl | hc'
    · simp [get_cons]
    · have := wf_head hm c hc'
      rw [get_cons, if_neg (by simp at this; omega)]
      exact ih (wf_tail hm) hc'

variable [DecidableEq α]

/-- What a write can leave in the list: old entries, and the new one. -/
theorem mem_set {m : List (Nat × α)} {a : Nat} {v : α} {x : Nat × α} (hx : x ∈ set d m a v) : x = (a, v) ∨ x ∈ m := by
  induction m with
  | nil =>
    simp only [set] at hx
    split at hx <;> simp_all
  | cons c m ih =>
    obtain ⟨k, w⟩ := c
    simp only [set] at hx
    split at hx
    · split at hx
      · exact .inr hx
      · rcases List.mem_cons.1 hx with h | h
        · exact .inl h
        · exact .inr h
    · split at hx
      · split at hx
        · exact .inr (List.mem_cons_of_mem _ hx)
        · rcases List.mem_cons.1 hx with h | h
          · exact .inl h
          · exact .inr (List.mem_cons_of_mem _ h)
      · rcases List.mem_cons.1 hx with rfl | h
        · exact .inr (by simp)
        · rcases ih h with h | h
          · exact .inl h
          · exact .inr (List.mem_cons_of_mem _ h)

/-- A write keeps the canonical form. -/
theorem set_wf {m : List (Nat × α)} (hm : wf d m) (a : Nat) (v : α) : wf d (set d m a v) := by
  induction m with
  | nil =>
    simp only [set]
    split
    · exact wf_nil
    · exact wf_cons (by simpa) (by simp) wf_nil
  | cons c m ih =>
    obtain ⟨k, w⟩ := c
    simp only [set]
    split
    · rename_i hlt
      split
      · exact hm
      · refine wf_cons (by simpa) ?_ hm
        intro x hx
        rcases List.mem_cons.1 hx with rfl | hx
        · exact hlt
        · exact Nat.lt_trans hlt (wf_head hm x hx)
    · split
      · rename_i h; subst h
        split
        · exact wf_tail hm
        · exact wf_cons (by simpa) (fun x hx => wf_head hm x hx) (wf_tail hm)
      · refine wf_cons (hm.2 (k, w) (by simp)) ?_ (ih (wf_tail hm))
        intro x hx
        rcases mem_set hx with rfl | hx
        · simp only; omega
        · exact wf_head hm x hx

/-- A read after a write: the value written at its key, the old value everywhere else. -/
theorem get_set {m : List (Nat × α)} (hm : wf d m) (a : Nat) (v : α) (b : Nat) :
    get d (set d m a v) b = if b = a then v else get d m b := by
  induction m with
  | nil =>
    simp only [set]
    split <;> split <;> simp_all [get]
  | cons c m ih =>
    obtain ⟨k, w⟩ := c
    simp only [set]
    split
    · rename_i hlt
      split
      · rename_i hv
        split
        · rename_i hb; subst hb
          rw [get_of_lt, hv]
          intro x hx
          rcases List.mem_cons.1 hx with rfl | hx
          · exact hlt
          · exact Nat.lt_trans hlt (wf_head hm x hx)
        · rfl
      · rw [get_cons]
    · split
      · rename_i hak; subst hak
        split
        · rename_i hv
          split
          · rename_i hb; subst hb
            rw [get_of_lt (wf_head hm), hv]
          · rename_i hb
            rw [get_cons, if_neg hb]
        · rw [get_cons, get_cons]
          split <;> rfl
      · rename_i hak
        rw [get_cons, get_cons, ih (wf_tail hm)]
        split
        · rename_i hb; subst hb
          rw [if_neg (Ne.symm hak)]
        · rfl

omit [DecidableEq α] in
/-- Equal contents are equal data: two canonical lists with the same value at every key are the same list. -/
theorem wf_ext {m n : List (Nat × α)} (hm : wf d m) (hn : wf d n) (h : ∀ a, get d m a = get d n a) : m = n := by
  induction m generalizing n with
  | nil =>
    cases n with
    | nil => rfl
    | cons c n =>
      have := h c.1
      rw [get_of_mem hn (by simp : c ∈ c :: n)] at this
      exact absurd this.symm (hn.2 c (by simp))
  | cons c m ih =>
    cases n with
    | nil =>
      have := h c.1
      rw [get_of_mem hm (by simp : c ∈ c :: m)] at this
      exact absurd this (hm.2 c (by simp))
    | cons c' n =>
      have h1 := h c.1
      have h2 := h c'.1
      rw [get_of_mem hm (by simp)] at h1
      rw [get_of_mem hn (by simp)] at h2
      have hk : c.1 = c'.1 := by
        rcases Nat.lt_trichotomy c.1 c'.1 with hlt | heq | hgt
        · rw [get_of_lt] at h1
          · exact absurd h1 (hm.2 c (by simp))
          · intro x hx
            rcases List.mem_cons.1 hx with rfl | hx
            · exact hlt
            · exact Nat.lt_trans hlt (wf_head hn x hx)
        · exact heq
        · rw [get_of_lt] at h2
          · exact absurd h2.symm (hn.2 c' (by simp))
          · intro x hx
            rcases List.mem_cons.1 hx with rfl | hx
            · exact hgt
            · exact Nat.lt_trans hgt (wf_head hm x hx)
      have hv : c.2 = c'.2 := by
        rw [hk, get_of_mem hn (by simp : c' ∈ c' :: n)] at h1
        exact h1
      obtain rfl : c = c' := Prod.ext hk hv
      congr 1
      refine ih (wf_tail hm) (wf_tail hn) fun a => ?_
      have ha := h a
      obtain ⟨k, v⟩ := c
      rw [get_cons, get_cons] at ha
      by_cases hak : a = k
      · subst hak
        rw [get_of_lt (wf_head hm), get_of_lt (wf_head hn)]
      · rwa [if_neg hak, if_neg hak] at ha

omit [DecidableEq α] in
/-- A change of every value that keeps the default. -/
theorem get_map {f : α → α} (hf : f d = d) (m : List (Nat × α)) (a : Nat) :
    get d (m.map fun c => (c.1, f c.2)) a = f (get d m a) := by
  induction m with
  | nil => exact hf.symm
  | cons c m ih =>
    rw [List.map_cons, get_cons, ih, show c :: m = (c.1, c.2) :: m from rfl, get_cons]
    split <;> rfl

omit [DecidableEq α] in
theorem map_wf {f : α → α} (hf : ∀ v, v ≠ d → f v ≠ d) {m : List (Nat × α)} (hm : wf d m) :
    wf d (m.map fun c => (c.1, f c.2)) := by
  refine ⟨List.pairwise_map.2 hm.1, fun c hc => ?_⟩
  obtain ⟨x, hx, rfl⟩ := List.mem_map.1 hc
  exact hf _ (hm.2 x hx)

end Sys2Proof.Machine.Sparse
end

