-- ==== Sys2Proof/Laws/Memory.lean ====
section
/-! SUPPORT. The laws of the shared memory. -/

namespace Sys2Proof.Machine

namespace Memory

theorem write_wf {m : Memory} (hm : wf m) (a : Nat) (v : Byte) : wf (write m a v) := Sparse.set_wf hm a v

theorem read_write {m : Memory} (hm : wf m) (a : Nat) (v : Byte) (b : Nat) :
    read (write m a v) b = if b = a then v else read m b := Sparse.get_set hm a v b

theorem mem_write {m : Memory} {a : Nat} {v : Byte} {c : Host.Cell} (h : c ∈ write m a v) : c = (a, v) ∨ c ∈ m :=
  Sparse.mem_set h

theorem wf_ext {m n : Memory} (hm : wf m) (hn : wf n) (h : ∀ a, read m a = read n a) : m = n := Sparse.wf_ext hm hn h

@[simp] theorem writeCells_nil (m : Memory) : writeCells m [] = m := rfl

theorem writeCells_wf {m : Memory} (hm : wf m) (cs : List Host.Cell) : wf (writeCells m cs) := by
  induction cs generalizing m with
  | nil => exact hm
  | cons c cs ih => exact ih (write_wf hm c.1 c.2)

/-- A store changes no byte it does not name. -/
theorem read_writeCells_of_not_mem {m : Memory} (hm : wf m) (cs : List Host.Cell) {a : Nat}
    (h : ∀ c ∈ cs, c.1 ≠ a) : read (writeCells m cs) a = read m a := by
  induction cs generalizing m with
  | nil => rfl
  | cons c cs ih =>
    rw [writeCells, ih (write_wf hm _ _) fun x hx => h x (by simp [hx]), read_write hm]
    exact if_neg fun hc => h c (by simp) hc.symm

/-- A store to distinct addresses leaves in each the value it names for it. -/
theorem read_writeCells_of_mem {m : Memory} (hm : wf m) {cs : List Host.Cell} (hd : (cs.map (·.1)).Nodup)
    {c : Host.Cell} (hc : c ∈ cs) : read (writeCells m cs) c.1 = c.2 := by
  induction cs generalizing m with
  | nil => simp at hc
  | cons x cs ih =>
    rw [List.map_cons, List.nodup_cons] at hd
    rw [writeCells]
    rcases List.mem_cons.1 hc with rfl | hc
    · rw [read_writeCells_of_not_mem (write_wf hm _ _), read_write hm, if_pos rfl]
      intro y hy hyc
      exact hd.1 (hyc ▸ List.mem_map_of_mem hy)
    · exact ih (write_wf hm _ _) hd.2 hc

/-- Every byte a store lists was listed before, or is one of the store's. -/
theorem mem_writeCells {m : Memory} {cs : List Host.Cell} {c : Host.Cell} (h : c ∈ writeCells m cs) :
    c ∈ cs ∨ c ∈ m := by
  induction cs generalizing m with
  | nil => exact .inr h
  | cons x cs ih =>
    rcases ih h with h | h
    · exact .inl (by simp [h])
    · rcases mem_write h with rfl | h
      · exact .inl (by simp)
      · exact .inr h

@[simp] theorem bytes_length (m : Memory) (a n : Nat) : (bytes m a n).length = n := by
  induction n generalizing a with
  | zero => rfl
  | succ n ih => simp [bytes, ih]

theorem getElem?_bytes (m : Memory) (a n i : Nat) :
    (bytes m a n)[i]? = if i < n then some (read m (a + i)) else none := by
  induction n generalizing a i with
  | zero => simp [bytes]
  | succ n ih =>
    cases i with
    | zero => simp [bytes]
    | succ i => simp [bytes, ih, Nat.add_assoc, Nat.add_comm 1 i]

theorem bytes_append (m : Memory) (a n k : Nat) : bytes m a (n + k) = bytes m a n ++ bytes m (a + n) k := by
  induction n generalizing a with
  | zero => simp [bytes]
  | succ n ih =>
    rw [Nat.succ_add, bytes, bytes, ih, List.cons_append, Nat.add_assoc, Nat.add_comm 1 n]

end Memory

@[simp] theorem cellsAt_nil (a : Nat) : cellsAt a [] = [] := rfl

/-- The cells of a byte sequence: byte `i` at `a + i`. -/
theorem mem_cellsAt {a : Nat} {bs : List Byte} {c : Host.Cell} :
    c ∈ cellsAt a bs ↔ ∃ i, bs[i]? = some c.2 ∧ c.1 = a + i := by
  induction bs generalizing a with
  | nil => simp [cellsAt]
  | cons b bs ih =>
    obtain ⟨x, v⟩ := c
    simp only [cellsAt, List.mem_cons, Prod.mk.injEq, ih]
    constructor
    · rintro (⟨rfl, rfl⟩ | ⟨i, h, rfl⟩)
      · exact ⟨0, by simp⟩
      · exact ⟨i + 1, by simpa using h, by omega⟩
    · rintro ⟨i, h, hx⟩
      cases i with
      | zero => left; simp at h; exact ⟨by omega, h.symm⟩
      | succ i => right; exact ⟨i, by simpa using h, by omega⟩

theorem cellsAt_addr {a : Nat} {bs : List Byte} {c : Host.Cell} (h : c ∈ cellsAt a bs) :
    a ≤ c.1 ∧ c.1 < a + bs.length := by
  obtain ⟨i, hi, hc⟩ := mem_cellsAt.1 h
  have := (List.getElem?_eq_some_iff.1 hi).1
  omega

theorem cellsAt_nodup (a : Nat) (bs : List Byte) : ((cellsAt a bs).map (·.1)).Nodup := by
  induction bs generalizing a with
  | nil => simp
  | cons b bs ih =>
    rw [cellsAt, List.map_cons, List.nodup_cons]
    refine ⟨?_, ih (a + 1)⟩
    intro h
    obtain ⟨c, hc, hca⟩ := List.mem_map.1 h
    have := (cellsAt_addr hc).1
    simp only at hca
    omega

theorem cellValue?_cellsAt (a : Nat) (bs : List Byte) (x : Nat) :
    cellValue? (cellsAt a bs) x = if a ≤ x then bs[x - a]? else none := by
  induction bs generalizing a with
  | nil => simp [cellValue?]
  | cons b bs ih =>
    rw [cellsAt, cellValue?, ih]
    by_cases hx : x = a
    · subst hx; simp
    · rw [if_neg hx]
      by_cases hle : a ≤ x
      · obtain ⟨j, rfl⟩ : ∃ j, x = a + 1 + j := ⟨x - (a + 1), by omega⟩
        have h1 : a + 1 + j - (a + 1) = j := by omega
        have h2 : a + 1 + j - a = j + 1 := by omega
        rw [if_pos (by omega), if_pos hle, h1, h2, List.getElem?_cons_succ]
      · rw [if_neg (by omega), if_neg hle]

/-- A cell list gives an address a value only by a cell of it. -/
theorem mem_of_cellValue? {cs : List Host.Cell} {a : Nat} {v : Byte} (h : cellValue? cs a = some v) : (a, v) ∈ cs := by
  induction cs with
  | nil => simp [cellValue?] at h
  | cons c cs ih =>
    obtain ⟨k, w⟩ := c
    rw [cellValue?] at h
    split at h
    · rename_i hk; subst hk; simp at h; simp [h]
    · simp [ih h]

theorem cellValue?_none_iff {cs : List Host.Cell} {a : Nat} : cellValue? cs a = none ↔ ∀ c ∈ cs, c.1 ≠ a := by
  induction cs with
  | nil => simp [cellValue?]
  | cons c cs ih =>
    obtain ⟨k, w⟩ := c
    by_cases h : a = k
    · simp [cellValue?, h]
    · simp [cellValue?, h, ih, Ne.symm h]

/-- A store to distinct addresses: each address it names takes its value, every other keeps its own. -/
theorem Memory.read_writeCells {m : Memory} (hm : Memory.wf m) {cs : List Host.Cell} (hd : (cs.map (·.1)).Nodup) (a : Nat) :
    Memory.read (Memory.writeCells m cs) a = (cellValue? cs a).getD (Memory.read m a) := by
  cases h : cellValue? cs a with
  | some v => exact Memory.read_writeCells_of_mem hm hd (mem_of_cellValue? h)
  | none => exact Memory.read_writeCells_of_not_mem hm cs fun c hc => cellValue?_none_iff.1 h c hc

theorem inMem_iff (memSize a n : Nat) : inMem memSize a n = true ↔ a + n ≤ memSize := by simp [inMem]

end Sys2Proof.Machine
end

