-- ==== Sys2Proof/Laws/State.lean ====
section
/-! SUPPORT. One lemma per field per update of the state, so that no proof unfolds a record update. -/

namespace Sys2Proof.Machine

/-! ### Engine -/

@[simp] theorem Engine.endCommand_regBase (e : Engine) (code : ErrorCode) : (e.endCommand code).regBase = e.regBase := rfl
@[simp] theorem Engine.endCommand_cmd (e : Engine) (code : ErrorCode) : (e.endCommand code).cmd = e.cmd := rfl
@[simp] theorem Engine.endCommand_addr (e : Engine) (code : ErrorCode) : (e.endCommand code).addr = e.addr := rfl
@[simp] theorem Engine.endCommand_len (e : Engine) (code : ErrorCode) : (e.endCommand code).len = e.len := rfl
@[simp] theorem Engine.endCommand_dstAddr (e : Engine) (code : ErrorCode) : (e.endCommand code).dstAddr = e.dstAddr := rfl
@[simp] theorem Engine.endCommand_dstAvail (e : Engine) (code : ErrorCode) : (e.endCommand code).dstAvail = e.dstAvail := rfl
@[simp] theorem Engine.endCommand_crcAcc (e : Engine) (code : ErrorCode) : (e.endCommand code).crcAcc = e.crcAcc := rfl
@[simp] theorem Engine.endCommand_length (e : Engine) (code : ErrorCode) : (e.endCommand code).length = e.length := rfl
@[simp] theorem Engine.endCommand_tag (e : Engine) (code : ErrorCode) : (e.endCommand code).tag = e.tag := rfl
@[simp] theorem Engine.endCommand_payloadAddr (e : Engine) (code : ErrorCode) : (e.endCommand code).payloadAddr = e.payloadAddr := rfl
@[simp] theorem Engine.endCommand_payloadLen (e : Engine) (code : ErrorCode) : (e.endCommand code).payloadLen = e.payloadLen := rfl
@[simp] theorem Engine.endCommand_nextAddr (e : Engine) (code : ErrorCode) : (e.endCommand code).nextAddr = e.nextAddr := rfl
@[simp] theorem Engine.endCommand_nextAvail (e : Engine) (code : ErrorCode) : (e.endCommand code).nextAvail = e.nextAvail := rfl
@[simp] theorem Engine.endCommand_storedCrc (e : Engine) (code : ErrorCode) : (e.endCommand code).storedCrc = e.storedCrc := rfl
@[simp] theorem Engine.endCommand_done (e : Engine) (code : ErrorCode) : (e.endCommand code).done = true := rfl
@[simp] theorem Engine.endCommand_matched (e : Engine) (code : ErrorCode) : (e.endCommand code).matched = e.matched := rfl
@[simp] theorem Engine.endCommand_ovr (e : Engine) (code : ErrorCode) : (e.endCommand code).ovr = e.ovr := rfl
@[simp] theorem Engine.endCommand_err (e : Engine) (code : ErrorCode) : (e.endCommand code).err = code := rfl
@[simp] theorem Engine.endCommand_doneIe (e : Engine) (code : ErrorCode) : (e.endCommand code).doneIe = e.doneIe := rfl
@[simp] theorem Engine.endCommand_inflight (e : Engine) (code : ErrorCode) : (e.endCommand code).inflight = none := rfl

@[simp] theorem Engine.accept_regBase (e : Engine) (w : Word) (n : Nat) : (e.accept w n).regBase = e.regBase := rfl
@[simp] theorem Engine.accept_cmd (e : Engine) (w : Word) (n : Nat) : (e.accept w n).cmd = w := rfl
@[simp] theorem Engine.accept_addr (e : Engine) (w : Word) (n : Nat) : (e.accept w n).addr = e.addr := rfl
@[simp] theorem Engine.accept_len (e : Engine) (w : Word) (n : Nat) : (e.accept w n).len = e.len := rfl
@[simp] theorem Engine.accept_dstAddr (e : Engine) (w : Word) (n : Nat) : (e.accept w n).dstAddr = e.dstAddr := rfl
@[simp] theorem Engine.accept_dstAvail (e : Engine) (w : Word) (n : Nat) : (e.accept w n).dstAvail = e.dstAvail := rfl
@[simp] theorem Engine.accept_crcAcc (e : Engine) (w : Word) (n : Nat) : (e.accept w n).crcAcc = e.crcAcc := rfl
@[simp] theorem Engine.accept_length (e : Engine) (w : Word) (n : Nat) : (e.accept w n).length = e.length := rfl
@[simp] theorem Engine.accept_tag (e : Engine) (w : Word) (n : Nat) : (e.accept w n).tag = e.tag := rfl
@[simp] theorem Engine.accept_payloadAddr (e : Engine) (w : Word) (n : Nat) : (e.accept w n).payloadAddr = e.payloadAddr := rfl
@[simp] theorem Engine.accept_payloadLen (e : Engine) (w : Word) (n : Nat) : (e.accept w n).payloadLen = e.payloadLen := rfl
@[simp] theorem Engine.accept_nextAddr (e : Engine) (w : Word) (n : Nat) : (e.accept w n).nextAddr = e.nextAddr := rfl
@[simp] theorem Engine.accept_nextAvail (e : Engine) (w : Word) (n : Nat) : (e.accept w n).nextAvail = e.nextAvail := rfl
@[simp] theorem Engine.accept_storedCrc (e : Engine) (w : Word) (n : Nat) : (e.accept w n).storedCrc = e.storedCrc := rfl
@[simp] theorem Engine.accept_done (e : Engine) (w : Word) (n : Nat) : (e.accept w n).done = false := rfl
@[simp] theorem Engine.accept_matched (e : Engine) (w : Word) (n : Nat) : (e.accept w n).matched = e.matched := rfl
@[simp] theorem Engine.accept_ovr (e : Engine) (w : Word) (n : Nat) : (e.accept w n).ovr = e.ovr := rfl
@[simp] theorem Engine.accept_err (e : Engine) (w : Word) (n : Nat) : (e.accept w n).err = e.err := rfl
@[simp] theorem Engine.accept_doneIe (e : Engine) (w : Word) (n : Nat) : (e.accept w n).doneIe = e.doneIe := rfl
@[simp] theorem Engine.accept_inflight (e : Engine) (w : Word) (n : Nat) :
    (e.accept w n).inflight = some
      { addr := e.addr, len := e.len, dstAddr := e.dstAddr, dstAvail := e.dstAvail, crcAcc := e.crcAcc
        epoch := n, held := [], reads := [] } := rfl

@[simp] theorem Engine.witness_regBase (notes : List StoreNote) (e : Engine) : (e.witness notes).regBase = e.regBase := by
  unfold Engine.witness; split <;> rfl
@[simp] theorem Engine.witness_cmd (notes : List StoreNote) (e : Engine) : (e.witness notes).cmd = e.cmd := by
  unfold Engine.witness; split <;> rfl
@[simp] theorem Engine.witness_addr (notes : List StoreNote) (e : Engine) : (e.witness notes).addr = e.addr := by
  unfold Engine.witness; split <;> rfl
@[simp] theorem Engine.witness_len (notes : List StoreNote) (e : Engine) : (e.witness notes).len = e.len := by
  unfold Engine.witness; split <;> rfl
@[simp] theorem Engine.witness_dstAddr (notes : List StoreNote) (e : Engine) : (e.witness notes).dstAddr = e.dstAddr := by
  unfold Engine.witness; split <;> rfl
@[simp] theorem Engine.witness_dstAvail (notes : List StoreNote) (e : Engine) : (e.witness notes).dstAvail = e.dstAvail := by
  unfold Engine.witness; split <;> rfl
@[simp] theorem Engine.witness_crcAcc (notes : List StoreNote) (e : Engine) : (e.witness notes).crcAcc = e.crcAcc := by
  unfold Engine.witness; split <;> rfl
@[simp] theorem Engine.witness_length (notes : List StoreNote) (e : Engine) : (e.witness notes).length = e.length := by
  unfold Engine.witness; split <;> rfl
@[simp] theorem Engine.witness_tag (notes : List StoreNote) (e : Engine) : (e.witness notes).tag = e.tag := by
  unfold Engine.witness; split <;> rfl
@[simp] theorem Engine.witness_payloadAddr (notes : List StoreNote) (e : Engine) : (e.witness notes).payloadAddr = e.payloadAddr := by
  unfold Engine.witness; split <;> rfl
@[simp] theorem Engine.witness_payloadLen (notes : List StoreNote) (e : Engine) : (e.witness notes).payloadLen = e.payloadLen := by
  unfold Engine.witness; split <;> rfl
@[simp] theorem Engine.witness_nextAddr (notes : List StoreNote) (e : Engine) : (e.witness notes).nextAddr = e.nextAddr := by
  unfold Engine.witness; split <;> rfl
@[simp] theorem Engine.witness_nextAvail (notes : List StoreNote) (e : Engine) : (e.witness notes).nextAvail = e.nextAvail := by
  unfold Engine.witness; split <;> rfl
@[simp] theorem Engine.witness_storedCrc (notes : List StoreNote) (e : Engine) : (e.witness notes).storedCrc = e.storedCrc := by
  unfold Engine.witness; split <;> rfl
@[simp] theorem Engine.witness_done (notes : List StoreNote) (e : Engine) : (e.witness notes).done = e.done := by
  unfold Engine.witness; split <;> rfl
@[simp] theorem Engine.witness_matched (notes : List StoreNote) (e : Engine) : (e.witness notes).matched = e.matched := by
  unfold Engine.witness; split <;> rfl
@[simp] theorem Engine.witness_ovr (notes : List StoreNote) (e : Engine) : (e.witness notes).ovr = e.ovr := by
  unfold Engine.witness; split <;> rfl
@[simp] theorem Engine.witness_err (notes : List StoreNote) (e : Engine) : (e.witness notes).err = e.err := by
  unfold Engine.witness; split <;> rfl
@[simp] theorem Engine.witness_doneIe (notes : List StoreNote) (e : Engine) : (e.witness notes).doneIe = e.doneIe := by
  unfold Engine.witness; split <;> rfl
@[simp] theorem Engine.witness_inflight (notes : List StoreNote) (e : Engine) :
    (e.witness notes).inflight = e.inflight.map fun f => { f with held := f.held ++ notes } := by
  unfold Engine.witness; split <;> simp_all

/-! ### State -/

@[simp] theorem State.setEngine_memSize (s : State) (k : Nat) (e : Engine) : (s.setEngine k e).memSize = s.memSize := rfl
@[simp] theorem State.setEngine_engines (s : State) (k : Nat) (e : Engine) : (s.setEngine k e).engines = s.engines.set k e := rfl
@[simp] theorem State.setEngine_mem (s : State) (k : Nat) (e : Engine) : (s.setEngine k e).mem = s.mem := rfl
@[simp] theorem State.setEngine_vars (s : State) (k : Nat) (e : Engine) : (s.setEngine k e).vars = s.vars := rfl
@[simp] theorem State.setEngine_bufs (s : State) (k : Nat) (e : Engine) : (s.setEngine k e).bufs = s.bufs := rfl
@[simp] theorem State.setEngine_agenda (s : State) (k : Nat) (e : Engine) : (s.setEngine k e).agenda = s.agenda := rfl
@[simp] theorem State.setEngine_current (s : State) (k : Nat) (e : Engine) : (s.setEngine k e).current = s.current := rfl
@[simp] theorem State.setEngine_draws (s : State) (k : Nat) (e : Engine) : (s.setEngine k e).draws = s.draws := rfl

@[simp] theorem State.store_memSize (s : State) (cells : List Host.Cell) : (s.store cells).memSize = s.memSize := rfl
@[simp] theorem State.store_engines (s : State) (cells : List Host.Cell) :
    (s.store cells).engines = s.engines.map (Engine.witness (storeNotes s.mem false cells)) := rfl
@[simp] theorem State.store_mem (s : State) (cells : List Host.Cell) : (s.store cells).mem = Memory.writeCells s.mem cells := rfl
@[simp] theorem State.store_vars (s : State) (cells : List Host.Cell) : (s.store cells).vars = s.vars := rfl
@[simp] theorem State.store_bufs (s : State) (cells : List Host.Cell) : (s.store cells).bufs = s.bufs := rfl
@[simp] theorem State.store_agenda (s : State) (cells : List Host.Cell) : (s.store cells).agenda = s.agenda := rfl
@[simp] theorem State.store_current (s : State) (cells : List Host.Cell) : (s.store cells).current = s.current := rfl
@[simp] theorem State.store_draws (s : State) (cells : List Host.Cell) : (s.store cells).draws = s.draws := rfl

@[simp] theorem State.select_memSize (s : State) (k : Nat) : (s.select k).memSize = s.memSize := rfl
@[simp] theorem State.select_engines (s : State) (k : Nat) : (s.select k).engines = s.engines := rfl
@[simp] theorem State.select_mem (s : State) (k : Nat) : (s.select k).mem = s.mem := rfl
@[simp] theorem State.select_vars (s : State) (k : Nat) : (s.select k).vars = s.vars := rfl
@[simp] theorem State.select_bufs (s : State) (k : Nat) : (s.select k).bufs = s.bufs := rfl
@[simp] theorem State.select_agenda (s : State) (k : Nat) : (s.select k).agenda = s.agenda := rfl
@[simp] theorem State.select_current (s : State) (k : Nat) : (s.select k).current = k := rfl
@[simp] theorem State.select_draws (s : State) (k : Nat) : (s.select k).draws = s.draws := rfl

@[simp] theorem State.pop_memSize (s : State) (rest : List Event) : (s.pop rest).memSize = s.memSize := rfl
@[simp] theorem State.pop_engines (s : State) (rest : List Event) : (s.pop rest).engines = s.engines := rfl
@[simp] theorem State.pop_mem (s : State) (rest : List Event) : (s.pop rest).mem = s.mem := rfl
@[simp] theorem State.pop_vars (s : State) (rest : List Event) : (s.pop rest).vars = s.vars := rfl
@[simp] theorem State.pop_bufs (s : State) (rest : List Event) : (s.pop rest).bufs = s.bufs := rfl
@[simp] theorem State.pop_agenda (s : State) (rest : List Event) : (s.pop rest).agenda = rest := rfl
@[simp] theorem State.pop_current (s : State) (rest : List Event) : (s.pop rest).current = s.current := rfl
@[simp] theorem State.pop_draws (s : State) (rest : List Event) : (s.pop rest).draws = s.draws + 1 := rfl

@[simp] theorem State.endLoads_memSize (s : State) (k : Nat) (e : Engine) : (s.endLoads k e).memSize = s.memSize := rfl
@[simp] theorem State.endLoads_engines (s : State) (k : Nat) (e : Engine) : (s.endLoads k e).engines = s.engines := rfl
@[simp] theorem State.endLoads_mem (s : State) (k : Nat) (e : Engine) : (s.endLoads k e).mem = s.mem := rfl
@[simp] theorem State.endLoads_vars (s : State) (k : Nat) (e : Engine) : (s.endLoads k e).vars = s.vars := rfl
@[simp] theorem State.endLoads_agenda (s : State) (k : Nat) (e : Engine) : (s.endLoads k e).agenda = s.agenda := rfl
@[simp] theorem State.endLoads_current (s : State) (k : Nat) (e : Engine) : (s.endLoads k e).current = s.current := rfl
@[simp] theorem State.endLoads_draws (s : State) (k : Nat) (e : Engine) : (s.endLoads k e).draws = s.draws := rfl
@[simp] theorem State.endLoads_view (s : State) (k : Nat) (e : Engine) (f : InFlight) : (s.endLoads k e).view f = s.view f := rfl
@[simp] theorem State.endLoads_bufs (s : State) (k : Nat) (e : Engine) : (s.endLoads k e).bufs = s.endedLoads k e := rfl
theorem State.endLoads_of_idle {e : Engine} (h : e.busy = false) (s : State) (k : Nat) : s.endLoads k e = s := by
  simp [State.endLoads, State.endedLoads, h]

@[simp] theorem State.view_mem (s : State) (f : InFlight) : (s.view f).mem = s.mem := rfl
@[simp] theorem State.view_memSize (s : State) (f : InFlight) : (s.view f).memSize = s.memSize := rfl
@[simp] theorem State.view_fl (s : State) (f : InFlight) : (s.view f).fl = f := rfl

end Sys2Proof.Machine
end

