-- ==== Sys2Proof/Laws/Checks.lean ====
section
/-! SUPPORT. What the checks and the pseudocode of each command come to: one lemma per check, and one per command that says
exactly when it ends without raising and with what. -/

namespace Sys2Proof.Machine

/-! ### Plumbing -/

theorem Except.bind_ok_iff {ε α β : Type} (x : Except ε α) (f : α → Except ε β) (b : β) :
    (x >>= f) = .ok b ↔ ∃ a, x = .ok a ∧ f a = .ok b := by
  cases x <;> simp [bind, Except.bind]

theorem Except.bind_error_iff {ε α β : Type} (x : Except ε α) (f : α → Except ε β) (c : ε) :
    (x >>= f) = .error c ↔ x = .error c ∨ ∃ a, x = .ok a ∧ f a = .error c := by
  cases x <;> simp [bind, Except.bind]

@[simp] theorem ok_bind {ε α β : Type} (a : α) (f : α → Except ε β) : ((.ok a : Except ε α) >>= f) = f a := rfl

@[simp] theorem error_bind {ε α β : Type} (c : ε) (f : α → Except ε β) :
    ((.error c : Except ε α) >>= f) = .error c := rfl

/-! ### The checks -/

theorem srcCheck_ok_iff (v : View) (u : Unit) : srcCheck v = .ok u ↔ v.SliceInMem := by
  unfold srcCheck View.SliceInMem
  split <;> simp_all [inMem]

theorem srcCheck_error_iff (v : View) (c : ErrorCode) : srcCheck v = .error c ↔ ¬ v.SliceInMem ∧ c = .busError := by
  unfold srcCheck View.SliceInMem
  split <;> simp_all [inMem, eq_comm]

theorem dstCheck_ok_iff (v : View) (u : Unit) : dstCheck v = .ok u ↔ v.dstAddr + v.dstAvail ≤ v.memSize := by
  unfold dstCheck
  split <;> simp_all [inMem]

theorem dstCheck_error_iff (v : View) (c : ErrorCode) :
    dstCheck v = .error c ↔ v.memSize < v.dstAddr + v.dstAvail ∧ c = .busError := by
  unfold dstCheck
  split <;> simp_all [inMem, eq_comm]

theorem lenAtLeast_ok_iff (n : Nat) (v : View) (u : Unit) : lenAtLeast n v = .ok u ↔ n ≤ v.len := by
  unfold lenAtLeast
  split <;> simp_all

theorem lenAtLeast_error_iff (n : Nat) (v : View) (c : ErrorCode) :
    lenAtLeast n v = .error c ↔ v.len < n ∧ c = .truncated := by
  unfold lenAtLeast
  split <;> simp_all [eq_comm]

theorem frameCheck_ok_iff (v : View) (l : Nat) :
    frameCheck v = .ok l ↔ 4 ≤ v.len ∧ v.lengthField.toNat ≤ 0x80000000 ∧ v.lengthField.toNat + 12 ≤ v.len
      ∧ l = v.lengthField.toNat := by
  unfold frameCheck lenMax
  split
  · simp; omega
  · split
    · simp; omega
    · split
      · simp; omega
      · simp; omega

/-- R171's tests, in its order. -/
theorem frameCheck_error_iff (v : View) (c : ErrorCode) :
    frameCheck v = .error c ↔
      (v.len < 4 ∧ c = .truncated)
      ∨ (4 ≤ v.len ∧ 0x80000000 < v.lengthField.toNat ∧ c = .chunkTooLarge)
      ∨ (4 ≤ v.len ∧ v.lengthField.toNat ≤ 0x80000000 ∧ v.len < v.lengthField.toNat + 12 ∧ c = .truncated) := by
  unfold frameCheck lenMax
  split
  · rename_i h
    simp only [Except.error.injEq]
    constructor
    · intro hc; exact .inl ⟨h, hc.symm⟩
    · rintro (⟨_, rfl⟩ | ⟨h', _⟩ | ⟨h', _⟩)
      · rfl
      · omega
      · omega
  · split
    · rename_i h1 h2
      simp only [Except.error.injEq]
      constructor
      · intro hc; exact .inr (.inl ⟨by omega, h2, hc.symm⟩)
      · rintro (⟨h', _⟩ | ⟨_, _, rfl⟩ | ⟨_, h', _⟩)
        · omega
        · rfl
        · omega
    · split
      · rename_i h1 h2 h3
        simp only [Except.error.injEq]
        constructor
        · intro hc; exact .inr (.inr ⟨by omega, by omega, h3, hc.symm⟩)
        · rintro (⟨h', _⟩ | ⟨_, h', _⟩ | ⟨_, _, _, rfl⟩)
          · omega
          · omega
          · rfl
      · rename_i h1 h2 h3
        simp only [reduceCtorEq, false_iff]
        rintro (⟨h', _⟩ | ⟨_, h', _⟩ | ⟨_, _, h', _⟩) <;> omega

theorem appendCheck_ok_iff (v : View) (n : Nat) (u : Unit) :
    appendCheck v n = .ok u ↔ n ≤ v.dstAvail ∧ (v.dstAddr + n ≤ v.addr ∨ v.addr + n ≤ v.dstAddr) := by
  unfold appendCheck rangesOverlap
  split
  · simp; omega
  · split
    · simp_all
    · simp_all
      omega

theorem appendCheck_error_iff (v : View) (n : Nat) (c : ErrorCode) :
    appendCheck v n = .error c ↔
      (v.dstAvail < n ∧ c = .outputOverflow)
      ∨ (n ≤ v.dstAvail ∧ v.addr < v.dstAddr + n ∧ v.dstAddr < v.addr + n ∧ c = .overlap) := by
  unfold appendCheck rangesOverlap
  split
  · rename_i h
    simp only [Except.error.injEq]
    constructor
    · intro hc; exact .inl ⟨h, hc.symm⟩
    · rintro (⟨_, rfl⟩ | ⟨h', _⟩)
      · rfl
      · omega
  · split
    · rename_i h1 h2
      simp only [Except.error.injEq]
      simp only [Bool.and_eq_true, decide_eq_true_eq] at h2
      constructor
      · intro hc; exact .inr ⟨by omega, h2.1, h2.2, hc.symm⟩
      · rintro (⟨h', _⟩ | ⟨_, _, _, rfl⟩)
        · omega
        · rfl
    · rename_i h1 h2
      simp only [Bool.and_eq_true, decide_eq_true_eq] at h2
      simp only [reduceCtorEq, false_iff]
      rintro (⟨h', _⟩ | ⟨_, h', h'', _⟩)
      · omega
      · exact h2 ⟨h', h''⟩

/-! ### The commands -/

theorem planNop_ok_iff (v : View) (e : Engine) (fin : Finish) :
    planNop v e = .ok fin ↔ fin = { regs := e, writes := [], code := .ok } := by
  simp [planNop, finish, eq_comm]

theorem planCrcInit_ok_iff (v : View) (e : Engine) (fin : Finish) :
    planCrcInit v e = .ok fin ↔ fin = { regs := { e with crcAcc := 0xFFFFFFFF }, writes := [], code := .ok } := by
  simp [planCrcInit, crcInit, finish, eq_comm]

theorem src_bind_ok_iff {β : Type} (v : View) (r : Except ErrorCode β) (b : β) :
    (srcCheck v >>= fun _ => r) = .ok b ↔ v.SliceInMem ∧ r = .ok b := by
  simp only [Except.bind_ok_iff, srcCheck_ok_iff]
  exact ⟨fun ⟨_, h, hr⟩ => ⟨h, hr⟩, fun ⟨h, hr⟩ => ⟨(), h, hr⟩⟩

theorem lenAtLeast_bind_ok_iff {β : Type} (n : Nat) (v : View) (r : Except ErrorCode β) (b : β) :
    (lenAtLeast n v >>= fun _ => r) = .ok b ↔ n ≤ v.len ∧ r = .ok b := by
  simp only [Except.bind_ok_iff, lenAtLeast_ok_iff]
  exact ⟨fun ⟨_, h, hr⟩ => ⟨h, hr⟩, fun ⟨h, hr⟩ => ⟨(), h, hr⟩⟩

theorem planCrcUpdate_ok_iff (v : View) (e : Engine) (fin : Finish) :
    planCrcUpdate v e = .ok fin ↔ v.SliceInMem ∧ fin =
      { regs := { e with crcAcc := crcUpdate v.fl.crcAcc (v.bytes .data v.addr v.len) }, writes := [], code := .ok } := by
  rw [planCrcUpdate, src_bind_ok_iff]
  simp [finish, eq_comm]

theorem planChecksum_ok_iff (v : View) (e : Engine) (fin : Finish) :
    planChecksum v e = .ok fin ↔ v.SliceInMem ∧ fin =
      { regs := { e with crcAcc := crcUpdate 0xFFFFFFFF (v.bytes .data v.addr v.len) }, writes := [], code := .ok } := by
  rw [planChecksum, src_bind_ok_iff]
  simp [finish, crcInit, eq_comm]

theorem planLenDecode_ok_iff (v : View) (e : Engine) (fin : Finish) :
    planLenDecode v e = .ok fin ↔ v.SliceInMem ∧ 4 ≤ v.len ∧ fin =
      { regs := { e with length := v.lengthField }, writes := [], code := .ok } := by
  rw [planLenDecode, src_bind_ok_iff, lenAtLeast_bind_ok_iff]
  simp [finish, eq_comm]

theorem planTagExtract_ok_iff (v : View) (e : Engine) (fin : Finish) :
    planTagExtract v e = .ok fin ↔ v.SliceInMem ∧ 8 ≤ v.len ∧ fin =
      { regs := { e with tag := v.read32 .tag (v.addr + 4) }, writes := [], code := .ok } := by
  rw [planTagExtract, src_bind_ok_iff, lenAtLeast_bind_ok_iff]
  simp [finish, eq_comm]

/-- The common shape of the framed commands. -/
theorem framed_bind_ok_iff {β : Type} (v : View) (k : Nat → Except ErrorCode β) (b : β) :
    (srcCheck v >>= fun _ => frameCheck v >>= k) = .ok b ↔ v.FrameOk ∧ k v.lengthField.toNat = .ok b := by
  simp only [Except.bind_ok_iff, srcCheck_ok_iff, frameCheck_ok_iff, View.FrameOk]
  constructor
  · rintro ⟨_, h, l, ⟨h4, hmax, hlen, rfl⟩, hk⟩
    exact ⟨⟨h, h4, hmax, hlen⟩, hk⟩
  · rintro ⟨⟨h, h4, hmax, hlen⟩, hk⟩
    exact ⟨(), h, _, ⟨h4, hmax, hlen, rfl⟩, hk⟩

theorem planVerify_ok_iff (v : View) (e : Engine) (fin : Finish) :
    planVerify v e = .ok fin ↔ v.FrameOk ∧ fin =
      { regs :=
          { e with
            length := v.lengthField
            crcAcc := crcUpdate 0xFFFFFFFF (v.chunkCrcInput v.lengthField.toNat)
            storedCrc := v.storedCrcField v.lengthField.toNat
            matched := decide (crc32 (v.chunkCrcInput v.lengthField.toNat) = v.storedCrcField v.lengthField.toNat) }
        writes := []
        code := if crc32 (v.chunkCrcInput v.lengthField.toNat) = v.storedCrcField v.lengthField.toNat then .ok
          else .checksumMismatch } := by
  rw [planVerify, framed_bind_ok_iff]
  refine and_congr_right fun _ => ?_
  simp only [BitVec.ofNat_toNat, BitVec.setWidth_eq, crcInit, finish, finishMismatch, crc32]
  split <;> simp_all [eq_comm]

theorem planRegenerate_ok_iff (v : View) (e : Engine) (fin : Finish) :
    planRegenerate v e = .ok fin ↔ v.FrameOk ∧ fin =
      { regs :=
          { e with
            length := v.lengthField
            crcAcc := crcUpdate 0xFFFFFFFF (v.chunkCrcInput v.lengthField.toNat)
            storedCrc := crc32 (v.chunkCrcInput v.lengthField.toNat) }
        writes := cellsAt (v.addr + 8 + v.lengthField.toNat) (be32Bytes (crc32 (v.chunkCrcInput v.lengthField.toNat)))
        code := .ok } := by
  rw [planRegenerate, framed_bind_ok_iff]
  refine and_congr_right fun _ => ?_
  simp [crcInit, finishStoring, crc32, eq_comm]

theorem planPayload_ok_iff (v : View) (e : Engine) (fin : Finish) :
    planPayload v e = .ok fin ↔ v.FrameOk ∧ fin =
      { regs :=
          { e with
            length := v.lengthField
            payloadAddr := BitVec.ofNat 32 (v.addr + 8)
            payloadLen := v.lengthField }
        writes := []
        code := .ok } := by
  rw [planPayload, framed_bind_ok_iff]
  refine and_congr_right fun _ => ?_
  simp [finish, eq_comm]

theorem planNext_ok_iff (v : View) (e : Engine) (fin : Finish) :
    planNext v e = .ok fin ↔ v.FrameOk ∧ fin =
      { regs :=
          { e with
            length := v.lengthField
            nextAddr := BitVec.ofNat 32 (v.addr + v.lengthField.toNat + 12)
            nextAvail := BitVec.ofNat 32 (v.len - (v.lengthField.toNat + 12)) }
        writes := []
        code := .ok } := by
  rw [planNext, framed_bind_ok_iff]
  refine and_congr_right fun _ => ?_
  simp [finish, eq_comm]

theorem planFrame_ok_iff (v : View) (e : Engine) (fin : Finish) :
    planFrame v e = .ok fin ↔ v.FrameOk ∧ fin =
      { regs :=
          { e with
            length := v.lengthField
            tag := v.read32 .tag (v.addr + 4)
            payloadAddr := BitVec.ofNat 32 (v.addr + 8)
            payloadLen := v.lengthField
            nextAddr := BitVec.ofNat 32 (v.addr + v.lengthField.toNat + 12)
            nextAvail := BitVec.ofNat 32 (v.len - (v.lengthField.toNat + 12))
            storedCrc := v.storedCrcField v.lengthField.toNat }
        writes := []
        code := .ok } := by
  rw [planFrame, framed_bind_ok_iff]
  refine and_congr_right fun _ => ?_
  simp [finish, eq_comm]

theorem planAppend_ok_iff (v : View) (e : Engine) (fin : Finish) :
    planAppend v e = .ok fin ↔ v.AppendOk ∧ fin =
      { regs :=
          { e with
            length := v.lengthField
            dstAddr := BitVec.ofNat 32 (v.dstAddr + (v.lengthField.toNat + 12))
            dstAvail := BitVec.ofNat 32 (v.dstAvail - (v.lengthField.toNat + 12)) }
        writes := cellsAt v.dstAddr (v.bytes .data v.addr (v.lengthField.toNat + 12))
        code := .ok } := by
  simp only [planAppend, Except.bind_ok_iff, srcCheck_ok_iff, dstCheck_ok_iff, frameCheck_ok_iff, appendCheck_ok_iff,
    View.AppendOk, View.FrameOk, finishStoring]
  constructor
  · rintro ⟨_, h, _, hd, l, ⟨h4, hmax, hlen, rfl⟩, _, ⟨hav, hov⟩, hk⟩
    refine ⟨⟨⟨h, h4, hmax, hlen⟩, hd, hav, hov⟩, ?_⟩
    simpa [eq_comm] using hk
  · rintro ⟨⟨⟨h, h4, hmax, hlen⟩, hd, hav, hov⟩, rfl⟩
    exact ⟨(), h, (), hd, _, ⟨h4, hmax, hlen, rfl⟩, (), ⟨hav, hov⟩, by simp⟩

end Sys2Proof.Machine
end

