-- ==== Sys2Proof/Laws/Commands.lean ====
section
/-! SUPPORT. What every command's pseudocode has in common: what it keeps of the engine, which bytes it writes, and that a
command in flight completes. -/

namespace Sys2Proof.Machine

/-! ### What a command keeps of the engine -/

/-- No command's pseudocode writes REG_BASE, CMD, ADDR, LEN, DONE, OVR, ERR, DONE_IE or the in-flight state (ERR, DONE and
the in-flight state are the completion step's). -/
theorem planOf_keeps {i : Instr} {v : View} {e : Engine} {fin : Finish} (h : planOf i v e = .ok fin) :
    fin.regs.regBase = e.regBase ∧ fin.regs.cmd = e.cmd ∧ fin.regs.addr = e.addr ∧ fin.regs.len = e.len
      ∧ fin.regs.done = e.done ∧ fin.regs.ovr = e.ovr ∧ fin.regs.err = e.err ∧ fin.regs.doneIe = e.doneIe
      ∧ fin.regs.inflight = e.inflight := by
  cases i <;> simp only [planOf] at h
  · rw [planNop_ok_iff] at h; subst h; simp
  · rw [planCrcInit_ok_iff] at h; subst h; simp
  · rw [planCrcUpdate_ok_iff] at h; obtain ⟨_, rfl⟩ := h; simp
  · rw [planChecksum_ok_iff] at h; obtain ⟨_, rfl⟩ := h; simp
  · rw [planVerify_ok_iff] at h; obtain ⟨_, rfl⟩ := h; simp
  · rw [planRegenerate_ok_iff] at h; obtain ⟨_, rfl⟩ := h; simp
  · rw [planLenDecode_ok_iff] at h; obtain ⟨_, _, rfl⟩ := h; simp
  · rw [planTagExtract_ok_iff] at h; obtain ⟨_, _, rfl⟩ := h; simp
  · rw [planPayload_ok_iff] at h; obtain ⟨_, rfl⟩ := h; simp
  · rw [planNext_ok_iff] at h; obtain ⟨_, rfl⟩ := h; simp
  · rw [planFrame_ok_iff] at h; obtain ⟨_, rfl⟩ := h; simp
  · rw [planAppend_ok_iff] at h; obtain ⟨_, rfl⟩ := h; simp

/-! ### Which bytes a command writes -/

@[simp] theorem View.bytes_length (v : View) (site : ReadSite) (a n : Nat) : (v.bytes site a n).length = n := by
  induction n generalizing a with
  | zero => rfl
  | succ n ih => simp [View.bytes, ih]

@[simp] theorem be32Bytes_length (w : Word) : (be32Bytes w).length = 4 := rfl

/-- A command writes distinct addresses, all of them in its write set (R85) and in memory. -/
theorem planOf_writes {i : Instr} {v : View} {e : Engine} {fin : Finish} (h : planOf i v e = .ok fin) :
    (fin.writes.map (·.1)).Nodup ∧
      ∀ c ∈ fin.writes, InRanges (writeSet i v.addr v.dstAddr v.lengthField.toNat) c.1 ∧ c.1 < v.memSize := by
  cases i <;> simp only [planOf] at h
  · rw [planNop_ok_iff] at h; subst h; simp
  · rw [planCrcInit_ok_iff] at h; subst h; simp
  · rw [planCrcUpdate_ok_iff] at h; obtain ⟨_, rfl⟩ := h; simp
  · rw [planChecksum_ok_iff] at h; obtain ⟨_, rfl⟩ := h; simp
  · rw [planVerify_ok_iff] at h; obtain ⟨_, rfl⟩ := h; simp
  · rw [planRegenerate_ok_iff] at h
    obtain ⟨⟨hm, _, _, hl⟩, rfl⟩ := h
    refine ⟨cellsAt_nodup _ _, fun c hc => ?_⟩
    have := cellsAt_addr hc
    simp only [be32Bytes_length, View.SliceInMem] at this hm
    refine ⟨⟨_, List.mem_singleton.2 rfl, ?_⟩, ?_⟩ <;> omega
  · rw [planLenDecode_ok_iff] at h; obtain ⟨_, _, rfl⟩ := h; simp
  · rw [planTagExtract_ok_iff] at h; obtain ⟨_, _, rfl⟩ := h; simp
  · rw [planPayload_ok_iff] at h; obtain ⟨_, rfl⟩ := h; simp
  · rw [planNext_ok_iff] at h; obtain ⟨_, rfl⟩ := h; simp
  · rw [planFrame_ok_iff] at h; obtain ⟨_, rfl⟩ := h; simp
  · rw [planAppend_ok_iff] at h
    obtain ⟨⟨_, hd, hav, _⟩, rfl⟩ := h
    refine ⟨cellsAt_nodup _ _, fun c hc => ?_⟩
    have := cellsAt_addr hc
    simp only [View.bytes_length] at this
    refine ⟨⟨_, List.mem_singleton.2 rfl, ?_⟩, ?_⟩ <;> omega

/-- A command that ends without raising writes every byte of its write set (R85). -/
theorem planOf_writes_all {i : Instr} {v : View} {e : Engine} {fin : Finish} (h : planOf i v e = .ok fin) {a : Nat}
    (ha : InRanges (writeSet i v.addr v.dstAddr v.lengthField.toNat) a) : ∃ b, (a, b) ∈ fin.writes := by
  obtain ⟨r, hr, h1, h2⟩ := ha
  have key : ∀ (d : Nat) (bs : List Byte), d ≤ a → a < d + bs.length → ∃ b, (a, b) ∈ cellsAt d bs := fun d bs h1 h2 =>
    ⟨bs[a - d], mem_cellsAt.2 ⟨a - d, List.getElem?_eq_getElem (by omega), by simp; omega⟩⟩
  cases i <;> simp only [writeSet, List.not_mem_nil, List.mem_singleton] at hr <;> subst hr <;> simp only [planOf] at h
  · obtain ⟨_, rfl⟩ := (planRegenerate_ok_iff v e fin).1 h
    exact key _ _ h1 (by simpa using h2)
  · obtain ⟨_, rfl⟩ := (planAppend_ok_iff v e fin).1 h
    exact key _ _ h1 (by simp only [View.bytes_length]; omega)

/-- Only REGENERATE and APPEND write memory (R85, R152). -/
theorem planOf_writes_nil {i : Instr} {v : View} {e : Engine} {fin : Finish} (h : planOf i v e = .ok fin)
    (hi : i ≠ .regenerate ∧ i ≠ .append) : fin.writes = [] := by
  rw [List.eq_nil_iff_forall_not_mem]
  intro c hc
  obtain ⟨r, hr, _⟩ := ((planOf_writes h).2 c hc).1
  cases i <;> simp_all [writeSet]

/-! ### The codes a command ends with -/

/-- The codes a command raises: CHECKSUM_MISMATCH is an outcome and no raise, ILLEGAL_COMMAND is the decoder's (R230). -/
theorem planOf_error_code {i : Instr} {v : View} {e : Engine} {c : ErrorCode} (h : planOf i v e = .error c) :
    c ≠ .ok ∧ c ≠ .checksumMismatch ∧ c ≠ .illegalCommand := by
  by_contra hc
  have hs : ∀ u : Except ErrorCode Unit,
      (u = srcCheck v ∨ u = dstCheck v ∨ (∃ n, u = lenAtLeast n v) ∨ ∃ n, u = appendCheck v n) → u ≠ .error c := by
    rintro u hu rfl
    rcases hu with hu | hu | ⟨n, hu⟩ | ⟨n, hu⟩
    · have := ((srcCheck_error_iff v c).1 hu.symm).2; simp [this] at hc
    · have := ((dstCheck_error_iff v c).1 hu.symm).2; simp [this] at hc
    · have := ((lenAtLeast_error_iff n v c).1 hu.symm).2; simp [this] at hc
    · rcases (appendCheck_error_iff v n c).1 hu.symm with ⟨_, h⟩ | ⟨_, _, _, h⟩ <;> simp [h] at hc
  have hf : frameCheck v ≠ .error c := by
    intro hf
    rcases (frameCheck_error_iff v c).1 hf with ⟨_, h⟩ | ⟨_, _, h⟩ | ⟨_, _, _, h⟩ <;> simp [h] at hc
  have h1 := hs _ (.inl rfl)
  have h2 := hs _ (.inr (.inl rfl))
  have h3 := fun n => hs _ (.inr (.inr (.inl ⟨n, rfl⟩)))
  have h4 := fun n => hs _ (.inr (.inr (.inr ⟨n, rfl⟩)))
  cases i <;> simp only [planOf, planNop, planCrcInit, planCrcUpdate, planChecksum, planVerify, planRegenerate, planLenDecode,
    planTagExtract, planPayload, planNext, planFrame, planAppend, Except.bind_error_iff, finish, finishStoring] at h
  all_goals first | simp_all; done | skip
  rcases h with h | ⟨_, _, h | ⟨l, _, h⟩⟩
  · exact h1 h
  · exact hf h
  · split at h <;> simp [finishMismatch] at h

/-- A command that ends without raising ends with OK, but for VERIFY's mismatch (R150, R230). -/
theorem planOf_code {i : Instr} {v : View} {e : Engine} {fin : Finish} (h : planOf i v e = .ok fin) (hc : fin.code ≠ .ok) :
    fin.code = .checksumMismatch ∧ i = .verify := by
  cases i <;> simp only [planOf] at h
  · rw [planNop_ok_iff] at h; subst h; simp at hc
  · rw [planCrcInit_ok_iff] at h; subst h; simp at hc
  · rw [planCrcUpdate_ok_iff] at h; obtain ⟨_, rfl⟩ := h; simp at hc
  · rw [planChecksum_ok_iff] at h; obtain ⟨_, rfl⟩ := h; simp at hc
  · rw [planVerify_ok_iff] at h; obtain ⟨_, rfl⟩ := h; simpa using hc
  · rw [planRegenerate_ok_iff] at h; obtain ⟨_, rfl⟩ := h; simp at hc
  · rw [planLenDecode_ok_iff] at h; obtain ⟨_, _, rfl⟩ := h; simp at hc
  · rw [planTagExtract_ok_iff] at h; obtain ⟨_, _, rfl⟩ := h; simp at hc
  · rw [planPayload_ok_iff] at h; obtain ⟨_, rfl⟩ := h; simp at hc
  · rw [planNext_ok_iff] at h; obtain ⟨_, rfl⟩ := h; simp at hc
  · rw [planFrame_ok_iff] at h; obtain ⟨_, rfl⟩ := h; simp at hc
  · rw [planAppend_ok_iff] at h; obtain ⟨_, rfl⟩ := h; simp at hc

/-! ### Completion -/

/-- The pseudocode a command runs. -/
theorem exec_eq_complete (i : Instr) (s : State) : exec i s = complete (planOf i) s := by cases i <;> rfl

/-- A command in flight completes, by the commit of what its pseudocode comes to (R222). -/
theorem exec_inFlight {i : Instr} {s : State} {e : Engine} {f : InFlight} (h : s.InFlightAt e f) :
    exec i s = .next (s.commit s.current e f (planOf i (s.view f) e)) := by
  rw [exec_eq_complete, complete, h.1]
  simp only [h.2]

/-- The same, with the outcome known. -/
theorem exec_of_plan {i : Instr} {s : State} {e : Engine} {f : InFlight} (h : s.InFlightAt e f) {p : Plan}
    (hp : planOf i (s.view f) e = p) : exec i s = .next (s.commit s.current e f p) := by
  rw [exec_inFlight h, hp]

theorem completeIllegal_inFlight {s : State} {e : Engine} {f : InFlight} (h : s.InFlightAt e f) :
    completeIllegal s = .next (s.raise s.current e .illegalCommand) := by
  rw [completeIllegal, complete, h.1]
  simp only [h.2]
  rfl

/-- exec answers a next state, whatever the state: the state itself when the current engine has no command in flight, and
otherwise the commit. -/
theorem exec_cases (i : Instr) (s : State) :
    ((∀ e f, ¬ s.InFlightAt e f) ∧ exec i s = .next s) ∨
      ∃ e f, s.InFlightAt e f ∧ exec i s = .next (s.commit s.current e f (planOf i (s.view f) e)) := by
  rw [exec_eq_complete, complete]
  cases he : s.engines[s.current]? with
  | none => exact .inl ⟨fun e f h => by simp [State.InFlightAt, he] at h, rfl⟩
  | some e =>
    cases hf : e.inflight with
    | none =>
      refine .inl ⟨fun e' f h => ?_, by simp [hf]⟩
      obtain ⟨h1, h2⟩ := h
      rw [he] at h1
      obtain rfl := Option.some.inj h1
      simp [hf] at h2
    | some f => exact .inr ⟨e, f, ⟨he, hf⟩, by simp [hf]⟩

/-- A commit of an error changes the current engine alone, and of it only the in-flight state, DONE and ERR (R240). -/
theorem commit_error (s : State) (k : Nat) (e : Engine) (f : InFlight) (c : ErrorCode) :
    s.commit k e f (.error c) = s.setEngine k (e.endCommand c) := rfl

theorem commit_ok (s : State) (k : Nat) (e : Engine) (f : InFlight) (fin : Finish) :
    s.commit k e f (.ok fin) = (s.setEngine k (fin.regs.endCommand fin.code)).store (settle s.mem f fin.writes) := rfl

theorem storeNotes_own (mem : Memory) (own : Bool) (cells : List Host.Cell) : ∀ n ∈ storeNotes mem own cells, n.own = own := by
  intro n hn
  obtain ⟨c, _, rfl⟩ := List.mem_map.1 hn
  rfl

/-- An idle engine takes note of nothing. -/
@[simp] theorem Engine.witness_of_idle {e : Engine} (h : e.inflight = none) (notes : List StoreNote) :
    e.witness notes = e := by simp [Engine.witness, h]

@[simp] theorem Engine.witness_endCommand (e : Engine) (c : ErrorCode) (notes : List StoreNote) :
    (e.endCommand c).witness notes = e.endCommand c := Engine.witness_of_idle rfl notes

@[simp] theorem Engine.busy_endCommand (e : Engine) (c : ErrorCode) : (e.endCommand c).busy = false := rfl

@[simp] theorem Engine.busy_witness (e : Engine) (notes : List StoreNote) : (e.witness notes).busy = e.busy := by
  simp [Engine.busy]

/-- The engine at a place after another engine, or the same, has been replaced and a store made. -/
theorem getElem?_setEngine_store (s : State) (k j : Nat) (e : Engine) (cells : List Host.Cell) :
    ((s.setEngine k e).store cells).engines[j]? =
      (if j = k then (if k < s.engines.length then some e else none) else s.engines[j]?).map
        (Engine.witness (storeNotes s.mem false cells)) := by
  simp only [State.store_engines, State.setEngine_engines, State.setEngine_mem, List.getElem?_map, List.getElem?_set]
  by_cases h : j = k
  · subst h; simp
  · simp [h, Ne.symm h]

/-- The current engine after its command has ended without raising. -/
theorem commit_ok_engine {s : State} {e : Engine} {f : InFlight} (h : s.InFlightAt e f) (fin : Finish) :
    (s.commit s.current e f (.ok fin)).engines[s.current]? = some (fin.regs.endCommand fin.code) := by
  have hlt : s.current < s.engines.length := (List.getElem?_eq_some_iff.1 h.1).1
  rw [commit_ok, getElem?_setEngine_store]
  simp [hlt]

theorem commit_error_engine {s : State} {e : Engine} {f : InFlight} (h : s.InFlightAt e f) (c : ErrorCode) :
    (s.commit s.current e f (.error c)).engines[s.current]? = some (e.endCommand c) := by
  have hlt : s.current < s.engines.length := (List.getElem?_eq_some_iff.1 h.1).1
  simp [commit_error, hlt]

/-- A command stores to the bytes it writes and to no others. -/
theorem settle_addrs (mem : Memory) (f : InFlight) (ws : List Host.Cell) :
    (settle mem f ws).map (·.1) = ws.map (·.1) := by
  unfold settle
  rw [List.map_map]
  refine List.map_congr_left fun c _ => ?_
  simp only [Function.comp]
  split <;> rfl

@[simp] theorem settle_nil (mem : Memory) (f : InFlight) : settle mem f [] = [] := rfl

/-- With no race on the bytes it writes, a command stores its own values. -/
theorem settle_unraced {mem : Memory} {f : InFlight} {ws : List Host.Cell} (h : ∀ c ∈ ws, f.racedAt c.1 = false) :
    settle mem f ws = ws := by
  unfold settle
  conv_rhs => rw [← List.map_id ws]
  refine List.map_congr_left fun c hc => ?_
  simp [h c hc]

@[simp] theorem store_nil (s : State) : s.store [] = s := by
  have hid : ∀ e : Engine, e.witness [] = e := fun e => by
    unfold Engine.witness
    cases hf : e.inflight with
    | none => rfl
    | some f => simp [← hf]
  have : List.map (Engine.witness []) s.engines = s.engines := by
    conv_rhs => rw [← List.map_id s.engines]
    exact List.map_congr_left fun e _ => hid e
  simp [State.store, storeNotes, this]

/-! ### The two ways a command ends, as states -/

/-- A command that ends without raising and writes no memory changes the current engine alone. -/
theorem exec_ok {i : Instr} {s : State} {e : Engine} {f : InFlight} (h : s.InFlightAt e f) {fin : Finish}
    (hp : planOf i (s.view f) e = .ok fin) (hw : fin.writes = []) :
    exec i s = .next { s with engines := s.engines.set s.current (fin.regs.endCommand fin.code) } := by
  rw [exec_inFlight h, hp, commit_ok, hw]
  simp [State.setEngine]

/-- A command that raises changes only BUSY, DONE and ERR of the current engine (R240). -/
theorem exec_error {i : Instr} {s : State} {e : Engine} {f : InFlight} (h : s.InFlightAt e f) {c : ErrorCode}
    (hp : planOf i (s.view f) e = .error c) :
    exec i s = .next { s with
      engines := s.engines.set s.current { e with inflight := none, done := true, err := c } } := by
  rw [exec_inFlight h, hp]
  rfl

/-- BUS_ERROR on the source slice comes before everything else (R233, R239). -/
theorem planOf_busError {i : Instr} {v : View} {e : Engine} (hi : usesSlice i = true) (h : ¬ v.SliceInMem) :
    planOf i v e = .error .busError := by
  have hs : srcCheck v = .error .busError := (srcCheck_error_iff v _).2 ⟨h, rfl⟩
  cases i <;> simp_all [usesSlice, planOf, planCrcUpdate, planChecksum, planVerify, planRegenerate, planLenDecode,
    planTagExtract, planPayload, planNext, planFrame, planAppend]

/-- The addresses and lengths of a chunk that passes the frame check fit 32 bits (R172). -/
theorem View.FrameOk.fits {v : View} (h : v.FrameOk) (hm : v.memSize ≤ 2 ^ 32 - 1) :
    v.addr + v.lengthField.toNat + 12 < 2 ^ 32 ∧ v.len < 2 ^ 32 := by
  obtain ⟨h1, _, _, h4⟩ := h
  unfold View.SliceInMem at h1
  omega

theorem toNat_ofNat_of_lt {n : Nat} (h : n < 2 ^ 32) : (BitVec.ofNat 32 n).toNat = n := by
  rw [BitVec.toNat_ofNat, Nat.mod_eq_of_lt h]

/-! ### Memory after a command that ended without raising -/

theorem View.getElem?_bytes (v : View) (site : ReadSite) (a n i : Nat) :
    (v.bytes site a n)[i]? = if i < n then some (v.read site (a + i)) else none := by
  induction n generalizing a i with
  | zero => simp [View.bytes]
  | succ n ih =>
    cases i with
    | zero => simp [View.bytes]
    | succ i => simp [View.bytes, ih, Nat.add_assoc, Nat.add_comm 1 i]

theorem View.bytes_append (v : View) (site : ReadSite) (a n k : Nat) :
    v.bytes site a (n + k) = v.bytes site a n ++ v.bytes site (a + n) k := by
  induction n generalizing a with
  | zero => simp [View.bytes]
  | succ n ih => rw [Nat.succ_add, View.bytes, View.bytes, ih, List.cons_append, Nat.add_assoc, Nat.add_comm 1 n]

/-- What is stored for a byte of the write set: the command's value, or the byte's present one when it was raced. -/
theorem settle_spec (mem : Memory) (f : InFlight) {ws : List Host.Cell} {c : Host.Cell} (hc : c ∈ ws) :
    ∃ d ∈ settle mem f ws, d.1 = c.1 ∧ (d.2 = c.2 ∨ d.2 = Memory.read mem c.1) ∧ (f.racedAt c.1 = false → d.2 = c.2) := by
  unfold settle
  refine ⟨_, List.mem_map_of_mem hc, ?_, ?_, ?_⟩
  · split <;> rfl
  · split <;> simp
  · intro h; simp [h]

/-- A byte of the write set after the commit (R86 (c)). -/
theorem commit_read_written {s : State} {k : Nat} {e : Engine} {f : InFlight} {fin : Finish} (hm : Memory.wf s.mem)
    (hn : (fin.writes.map (·.1)).Nodup) {c : Host.Cell} (hc : c ∈ fin.writes) :
    (f.racedAt c.1 = false → Memory.read (s.commit k e f (.ok fin)).mem c.1 = c.2)
      ∧ (Memory.read (s.commit k e f (.ok fin)).mem c.1 = c.2
        ∨ Memory.read (s.commit k e f (.ok fin)).mem c.1 = Memory.read s.mem c.1) := by
  obtain ⟨d, hd, hd1, hd2, hd3⟩ := settle_spec s.mem f hc
  have hr : Memory.read (s.commit k e f (.ok fin)).mem c.1 = d.2 := by
    rw [commit_ok, State.store_mem, State.setEngine_mem, ← hd1]
    exact Memory.read_writeCells_of_mem hm (by rw [settle_addrs]; exact hn) hd
  rw [hr]
  exact ⟨hd3, hd2⟩

/-- A byte the command does not write, after the commit. -/
theorem commit_read_other {s : State} {k : Nat} {e : Engine} {f : InFlight} {fin : Finish} (hm : Memory.wf s.mem)
    {a : Nat} (ha : ∀ c ∈ fin.writes, c.1 ≠ a) :
    Memory.read (s.commit k e f (.ok fin)).mem a = Memory.read s.mem a := by
  rw [commit_ok, State.store_mem, State.setEngine_mem]
  refine Memory.read_writeCells_of_not_mem hm _ fun c hc => ?_
  have hmem : c.1 ∈ (settle s.mem f fin.writes).map (·.1) := List.mem_map_of_mem hc
  rw [settle_addrs] at hmem
  obtain ⟨d, hd, hdc⟩ := List.mem_map.1 hmem
  rw [← hdc]
  exact ha d hd

end Sys2Proof.Machine
end

