-- ==== Sys2Proof/Laws/Bytes.lean ====
section
/-! SUPPORT. The byte order (R17), and the CRC register's update (R141): it runs over a concatenation in two parts (R143),
and is injective in the register and in the byte (what R144 rests on). -/

namespace Sys2Proof.Machine

/-! ### be32 -/

theorem be32_toNat (b0 b1 b2 b3 : Byte) :
    (be32 b0 b1 b2 b3).toNat = b0.toNat * 2 ^ 24 + b1.toNat * 2 ^ 16 + b2.toNat * 2 ^ 8 + b3.toNat := by
  unfold be32
  simp only [BitVec.toNat_append]
  rw [← Nat.shiftLeft_add_eq_or_of_lt b1.isLt, ← Nat.shiftLeft_add_eq_or_of_lt b2.isLt,
    ← Nat.shiftLeft_add_eq_or_of_lt b3.isLt]
  simp only [Nat.shiftLeft_eq]
  omega

/-- `be32_bytes` is the inverse of `be32`. -/
theorem be32_be32Bytes (v : Word) :
    be32 (v.extractLsb' 24 8) (v.extractLsb' 16 8) (v.extractLsb' 8 8) (v.extractLsb' 0 8) = v := by
  apply BitVec.eq_of_toNat_eq
  rw [be32_toNat]
  have := v.isLt
  simp only [BitVec.extractLsb'_toNat, Nat.shiftRight_eq_div_pow]
  omega

theorem be32_getLsbD (b0 b1 b2 b3 : Byte) (i : Nat) :
    (be32 b0 b1 b2 b3).getLsbD i =
      if i < 8 then b3.getLsbD i else if i < 16 then b2.getLsbD (i - 8)
      else if i < 24 then b1.getLsbD (i - 16) else b0.getLsbD (i - 24) := by
  unfold be32
  simp only [BitVec.getLsbD_append]
  by_cases h1 : i < 8
  · simp [h1]
  · by_cases h2 : i < 16
    · simp [h1, h2, show i - 8 < 8 by omega]
    · by_cases h3 : i < 24
      · simp [h1, h2, h3, show ¬ i - 8 < 8 by omega, show i - 8 - 8 = i - 16 by omega, show i - 16 < 8 by omega]
      · simp [h1, h2, h3, show ¬ i - 8 < 8 by omega, show ¬ i - 8 - 8 < 8 by omega,
          show i - 8 - 8 - 8 = i - 24 by omega]

/-! ### The CRC register -/

@[simp] theorem crcUpdate_nil (acc : Word) : crcUpdate acc [] = acc := rfl

theorem crcUpdate_append (acc : Word) (x y : List Byte) :
    crcUpdate acc (x ++ y) = crcUpdate (crcUpdate acc x) y := by
  induction x generalizing acc with
  | nil => rfl
  | cons b x ih => exact ih (crcByte acc b)

/-- The polynomial's bit 31 is set, so the top bit of the result tells which branch was taken, and the rest of it gives the
register back. -/
theorem crcBit_injective {a b : Word} (h : crcBit a = crcBit b) : a = b := by
  have h31 : (crcBit a).getLsbD 31 = a.getLsbD 0 ∧ (crcBit b).getLsbD 31 = b.getLsbD 0 := by
    unfold crcBit crcPoly
    constructor <;> split <;> simp_all
  have h0 : a.getLsbD 0 = b.getLsbD 0 := by rw [← h31.1, ← h31.2, h]
  have hs : a >>> 1 = b >>> 1 := by
    unfold crcBit at h
    rw [h0] at h
    split at h
    · exact (BitVec.xor_left_inj _).1 h
    · exact h
  apply BitVec.eq_of_getLsbD_eq
  intro i hi
  cases i with
  | zero => exact h0
  | succ i =>
    have := congrArg (fun w : Word => w.getLsbD i) hs
    simpa [Nat.add_comm 1 i] using this

theorem crcBits_injective {n : Nat} {a b : Word} (h : crcBits n a = crcBits n b) : a = b := by
  induction n generalizing a b with
  | zero => exact h
  | succ n ih => exact crcBit_injective (ih h)

theorem crcByte_injective {a b : Word} {x : Byte} (h : crcByte a x = crcByte b x) : a = b :=
  (BitVec.xor_left_inj _).1 (crcBits_injective h)

theorem crcByte_injective_byte {a : Word} {x y : Byte} (h : crcByte a x = crcByte a y) : x = y := by
  have := (BitVec.xor_right_inj _).1 (crcBits_injective h)
  apply BitVec.eq_of_getLsbD_eq
  intro i hi
  have := congrArg (fun w : Word => w.getLsbD i) this
  simpa [show i < 32 by omega] using this

theorem crcUpdate_injective {a b : Word} {x : List Byte} (h : crcUpdate a x = crcUpdate b x) : a = b := by
  induction x generalizing a b with
  | nil => exact h
  | cons c x ih => exact crcByte_injective (ih h)

end Sys2Proof.Machine
end

