-- ==== Sys2Proof/Laws/Views.lean ====
section
/-! SUPPORT. What a command reads: a byte of its view (R86 (a)), and that its pseudocode depends on the memory only through
its read set (R85). -/

namespace Sys2Proof.Machine

/-! ### One byte -/

theorem madeRead?_append (xs ys : List MadeRead) (site : ReadSite) (a : Nat) :
    madeRead? (xs ++ ys) site a = (madeRead? xs site a).or (madeRead? ys site a) := by
  induction xs with
  | nil => simp [madeRead?]
  | cons x xs ih =>
    simp only [List.cons_append, madeRead?]
    split <;> simp [ih]

/-- A read found is one of those listed. -/
theorem mem_of_madeRead? {rs : List MadeRead} {site : ReadSite} {a : Nat} {b : Byte} (h : madeRead? rs site a = some b) :
    { site := site, addr := a, value := b } ∈ rs := by
  induction rs with
  | nil => simp [madeRead?] at h
  | cons x xs ih =>
    rw [madeRead?] at h
    split at h
    · rename_i hx
      obtain ⟨rfl, rfl⟩ := hx
      cases h
      exact List.mem_cons_self
    · exact List.mem_cons_of_mem _ (ih h)

theorem View.read_made {v : View} {site : ReadSite} {a : Nat} {b : Byte} (h : madeRead? v.fl.reads site a = some b) :
    v.read site a = b := by simp [View.read, h]

/-- A read made now gives the memory's byte, or one it held earlier. -/
theorem View.readNow_mem (v : View) (site : ReadSite) (a : Nat) :
    v.readNow site a = Memory.read v.mem a ∨ v.readNow site a ∈ v.fl.heldAt a := by
  unfold View.readNow
  split
  · exact .inl rfl
  · rename_i olds h
    rw [List.getD_eq_getElem?_getD]
    cases hg : (v.fl.heldAt a)[Config.readChoice v.fl.epoch site a]? with
    | none => exact .inl rfl
    | some b => exact .inr (List.mem_of_getElem? hg)

/-- A byte read is the memory's, or one it held earlier (R86 (a)). -/
theorem View.read_mem {v : View} (hr : v.fl.ReadsHeld v.mem) (site : ReadSite) (a : Nat) :
    v.read site a = Memory.read v.mem a ∨ v.read site a ∈ v.fl.heldAt a := by
  cases h : madeRead? v.fl.reads site a with
  | none => rw [View.read, h]; exact v.readNow_mem site a
  | some b => rw [View.read_made h]; exact hr _ (mem_of_madeRead? h)

/-- A byte no agent has stored to during the command reads as the memory's. -/
theorem View.read_of_unraced {v : View} (hr : v.fl.ReadsHeld v.mem) {a : Nat} (h : v.fl.heldAt a = []) (site : ReadSite) :
    v.read site a = Memory.read v.mem a := by
  have := View.read_mem hr site a
  simpa [h] using this

/-- Two views of one command agree on a byte where their memories do. -/
theorem View.read_congr {v w : View} (hf : v.fl = w.fl) {a : Nat} (h : Memory.read v.mem a = Memory.read w.mem a)
    (site : ReadSite) : v.read site a = w.read site a := by
  unfold View.read View.readNow
  rw [hf, h]

@[simp] theorem InFlight.readsHeld_nil {f : InFlight} (h : f.reads = []) (mem : Memory) : f.ReadsHeld mem := by
  simp [InFlight.ReadsHeld, h]

/-! ### Sequences of bytes -/

theorem View.bytes_congr {v w : View} {site : ReadSite} {a n : Nat}
    (h : ∀ x, a ≤ x → x < a + n → v.read site x = w.read site x) : v.bytes site a n = w.bytes site a n := by
  induction n generalizing a with
  | zero => rfl
  | succ n ih =>
    rw [View.bytes, View.bytes, h a (by omega) (by omega), ih fun x h1 h2 => h x (by omega) (by omega)]

theorem View.read32_congr {v w : View} {site : ReadSite} {a : Nat}
    (h : ∀ x, a ≤ x → x < a + 4 → v.read site x = w.read site x) : v.read32 site a = w.read32 site a := by
  unfold View.read32
  rw [h a (by omega) (by omega), h (a + 1) (by omega) (by omega), h (a + 2) (by omega) (by omega),
    h (a + 3) (by omega) (by omega)]

theorem View.bytes_of_unraced {v : View} (hr : v.fl.ReadsHeld v.mem) {a n : Nat} (h : v.fl.Unraced a n) (site : ReadSite) :
    v.bytes site a n = Memory.bytes v.mem a n := by
  induction n generalizing a with
  | zero => rfl
  | succ n ih =>
    rw [View.bytes, Memory.bytes, View.read_of_unraced hr (h a (by omega) (by omega)),
      ih fun x h1 h2 => h x (by omega) (by omega)]

/-! ### The pseudocode depends on its read set alone -/

/-- Two views with the same parameters and operands. -/
structure View.SameOperands (v w : View) : Prop where
  memSize : v.memSize = w.memSize
  addr : v.fl.addr = w.fl.addr
  len : v.fl.len = w.fl.len
  dstAddr : v.fl.dstAddr = w.fl.dstAddr
  dstAvail : v.fl.dstAvail = w.fl.dstAvail
  crcAcc : v.fl.crcAcc = w.fl.crcAcc

theorem View.lengthField_congr {v w : View} (hs : v.SameOperands w)
    (h : ∀ site x, v.addr ≤ x → x < v.addr + 4 → v.read site x = w.read site x) : v.lengthField = w.lengthField := by
  unfold View.lengthField
  rw [show w.addr = v.addr from congrArg BitVec.toNat hs.addr.symm,
    View.read32_congr fun x => h .length x]

/-- Views with the same operands that read the same bytes on the read set give the same outcome (R85). -/
theorem planOf_congr {i : Instr} {v w : View} (hs : v.SameOperands w)
    (h : ∀ site x, InRanges (readSet i v.addr v.len v.lengthField.toNat) x → v.read site x = w.read site x)
    (e : Engine) : planOf i v e = planOf i w e := by
  have hA : w.addr = v.addr := congrArg BitVec.toNat hs.addr.symm
  have hN : w.len = v.len := congrArg BitVec.toNat hs.len.symm
  have hD : w.dstAddr = v.dstAddr := congrArg BitVec.toNat hs.dstAddr.symm
  have hV : w.dstAvail = v.dstAvail := congrArg BitVec.toNat hs.dstAvail.symm
  have hsrc : srcCheck w = srcCheck v := by unfold srcCheck; rw [hA, hN, ← hs.memSize]
  have hdst : dstCheck w = dstCheck v := by unfold dstCheck; rw [hD, hV, ← hs.memSize]
  have hlen : ∀ n, lenAtLeast n w = lenAtLeast n v := fun n => by unfold lenAtLeast; rw [hN]
  have hframe : w.lengthField = v.lengthField → frameCheck w = frameCheck v := fun hl => by
    unfold frameCheck; rw [hN, hl]
  have happ : ∀ n, appendCheck w n = appendCheck v n := fun n => by unfold appendCheck; rw [hA, hD, hV]
  have in1 : ∀ {a n x : Nat}, a ≤ x → x < a + n → InRanges [(a, n)] x := fun h1 h2 =>
    ⟨_, List.mem_singleton.2 rfl, h1, h2⟩
  cases i
  case nop => rfl
  case crcInit => rfl
  case crcUpdate =>
    simp only [planOf, planCrcUpdate, hsrc, hA, hN]
    rw [hs.crcAcc, View.bytes_congr fun x h1 h2 => h .data x (in1 h1 h2)]
  case checksum =>
    simp only [planOf, planChecksum, hsrc, hA, hN]
    rw [View.bytes_congr fun x h1 h2 => h .data x (in1 h1 h2)]
  case lenDecode =>
    have hl := View.lengthField_congr hs fun site x h1 h2 => h site x (in1 h1 h2)
    simp only [planOf, planLenDecode, hsrc, hlen, hl]
  case tagExtract =>
    have ht : v.read32 .tag (v.addr + 4) = w.read32 .tag (v.addr + 4) :=
      View.read32_congr fun x h1 h2 => h .tag x (in1 h1 h2)
    simp only [planOf, planTagExtract, hsrc, hlen, hA, ht]
  case payload =>
    have hl := View.lengthField_congr hs fun site x h1 h2 => h site x (in1 h1 h2)
    simp only [planOf, planPayload, hsrc, hframe hl.symm, hA]
  case next =>
    have hl := View.lengthField_congr hs fun site x h1 h2 => h site x (in1 h1 h2)
    simp only [planOf, planNext, hsrc, hframe hl.symm, hA, hN]
  case verify =>
    have hl := View.lengthField_congr hs fun site x h1 h2 => h site x (in1 h1 (by omega))
    simp only [planOf, planVerify, hsrc, hframe hl.symm]
    congr 1; funext _
    cases hf : frameCheck v with
    | error c => rfl
    | ok l =>
      obtain ⟨_, _, _, rfl⟩ := (frameCheck_ok_iff v l).1 hf
      have hc : v.chunkCrcInput v.lengthField.toNat = w.chunkCrcInput v.lengthField.toNat := by
        unfold View.chunkCrcInput
        rw [hA, View.bytes_congr fun x h1 h2 => h .data x (in1 (by omega) (by omega))]
      have hst : v.storedCrcField v.lengthField.toNat = w.storedCrcField v.lengthField.toNat := by
        unfold View.storedCrcField
        rw [hA, View.read32_congr fun x h1 h2 => h .stored x (in1 (by omega) (by omega))]
      simp only [ok_bind, hc, hst]
  case regenerate =>
    have hl := View.lengthField_congr hs fun site x h1 h2 => h site x (in1 h1 (by omega))
    simp only [planOf, planRegenerate, hsrc, hframe hl.symm, hA]
    congr 1; funext _
    cases hf : frameCheck v with
    | error c => rfl
    | ok l =>
      obtain ⟨_, _, _, rfl⟩ := (frameCheck_ok_iff v l).1 hf
      have hc : v.chunkCrcInput v.lengthField.toNat = w.chunkCrcInput v.lengthField.toNat := by
        unfold View.chunkCrcInput
        rw [hA, View.bytes_congr fun x h1 h2 => h .data x (in1 (by omega) (by omega))]
      simp only [ok_bind, hc]
  case frame =>
    have in2 : ∀ {a n b m x : Nat}, b ≤ x → x < b + m → InRanges [(a, n), (b, m)] x := fun {_ _ b m _} h1 h2 =>
      ⟨(b, m), by simp, h1, h2⟩
    have in1' : ∀ {a n b m x : Nat}, a ≤ x → x < a + n → InRanges [(a, n), (b, m)] x := fun {a n _ _ _} h1 h2 =>
      ⟨(a, n), by simp, h1, h2⟩
    have hl := View.lengthField_congr hs fun site x h1 h2 => h site x (in1' h1 (by omega))
    have ht : v.read32 .tag (v.addr + 4) = w.read32 .tag (v.addr + 4) :=
      View.read32_congr fun x h1 h2 => h .tag x (in1' (by omega) (by omega))
    simp only [planOf, planFrame, hsrc, hframe hl.symm, hA, hN, ht]
    congr 1; funext _
    cases hf : frameCheck v with
    | error c => rfl
    | ok l =>
      obtain ⟨_, _, _, rfl⟩ := (frameCheck_ok_iff v l).1 hf
      have hst : v.storedCrcField v.lengthField.toNat = w.storedCrcField v.lengthField.toNat := by
        unfold View.storedCrcField
        rw [hA, View.read32_congr fun x h1 h2 => h .stored x (in2 h1 h2)]
      simp only [ok_bind, hst]
  case append =>
    have hl := View.lengthField_congr hs fun site x h1 h2 => h site x (in1 h1 (by omega))
    simp only [planOf, planAppend, hsrc, hdst, hframe hl.symm, happ, hA, hD, hV]
    congr 1; funext _
    congr 1; funext _
    cases hf : frameCheck v with
    | error c => rfl
    | ok l =>
      obtain ⟨_, _, _, rfl⟩ := (frameCheck_ok_iff v l).1 hf
      have hb : v.bytes .data v.addr (v.lengthField.toNat + 12) = w.bytes .data v.addr (v.lengthField.toNat + 12) :=
        View.bytes_congr fun x h1 h2 => h .data x (in1 (by omega) (by omega))
      simp only [ok_bind, hb]

end Sys2Proof.Machine
end

