-- ==== Sys2Proof/Laws/Host.lean ====
section
/-! SUPPORT. The host's accesses: the register map (R30), the windows (R8, R210, R251), and what a step with a host operation
at the head of the agenda comes to. -/

namespace Sys2Proof.Machine

/-! ### The register map -/

@[simp] theorem regAt_regOffset (r : Reg) : regAt (regOffset r) = some r := by cases r <;> rfl

theorem regOffset_lt (r : Reg) : regOffset r < windowBytes := by cases r <;> decide

theorem regOffset_aligned (r : Reg) : regOffset r % 4 = 0 := by cases r <;> rfl

theorem regAt_some {off : Nat} {r : Reg} (h : regAt off = some r) : off = regOffset r := by
  have := List.find?_some h
  exact (beq_iff_eq.1 this).symm

theorem regOffset_le (r : Reg) : regOffset r ≤ 0x40 := by cases r <;> decide

theorem regAt_unmapped {off : Nat} (h : 0x44 ≤ off) : regAt off = none := by
  cases hr : regAt off with
  | none => rfl
  | some r =>
    have := regAt_some hr
    have := regOffset_le r
    omega

/-! ### The windows -/

/-- What R8 says of the windows, as a statement about the list of bases. -/
theorem WellFormed.parameters_iff (memSize : Nat) (bases : List Nat) :
    Sys2Proof.WellFormed.parameters memSize bases = true ↔
      (1 ≤ memSize ∧ memSize ≤ 2 ^ 32 - 1) ∧ bases ≠ [] ∧ (∀ b ∈ bases, b % 0x80 = 0) ∧ bases.Nodup := by
  simp only [Sys2Proof.WellFormed.parameters, Bool.and_eq_true, decide_eq_true_eq, Bool.not_eq_true', List.all_eq_true,
    beq_iff_eq, List.isEmpty_eq_false_iff]
  tauto

/-- With distinct bases, all multiples of 0x80, an address lies in the window of at most one engine. -/
theorem findWindow_of_parameters {es : List Engine} (ha : ∀ b ∈ es.map Engine.regBase, b % 0x80 = 0)
    (hd : (es.map Engine.regBase).Nodup) {k n : Nat} {e : Engine} (hk : es[k]? = some e) {off : Nat} (ho : off < 0x80) :
    findWindow (e.regBase + off) es n = some (n + k, e, off) := by
  induction es generalizing k n with
  | nil => simp at hk
  | cons x es ih =>
    simp only [List.map_cons, List.forall_mem_cons, List.nodup_cons] at ha hd
    cases k with
    | zero =>
      simp only [List.getElem?_cons_zero, Option.some.injEq] at hk
      subst hk
      simp [findWindow, windowBytes, ho]
    | succ k =>
      simp only [List.getElem?_cons_succ] at hk
      have hmem : e.regBase ∈ es.map Engine.regBase := List.mem_map_of_mem (List.mem_of_getElem? hk)
      have hne : e.regBase ≠ x.regBase := fun h => hd.1 (h ▸ hmem)
      have h1 := ha.1
      have h2 := ha.2 _ hmem
      rw [findWindow, if_neg (by unfold windowBytes; omega), ih ha.2 hd.2 hk]
      simp; omega

/-- No window holds the address. -/
theorem findWindow_none {es : List Engine} {a n : Nat} (h : ∀ e ∈ es, a < e.regBase ∨ e.regBase + 0x80 ≤ a) :
    findWindow a es n = none := by
  induction es generalizing n with
  | nil => rfl
  | cons x es ih =>
    have := h x (by simp)
    rw [findWindow, if_neg (by unfold windowBytes; omega), ih fun e he => h e (by simp [he])]

/-- The engine of a window, and where it stands. -/
theorem findWindow_some {es : List Engine} {a n k off : Nat} {e : Engine} (h : findWindow a es n = some (k, e, off)) :
    n ≤ k ∧ es[k - n]? = some e ∧ a = e.regBase + off := by
  induction es generalizing n with
  | nil => simp [findWindow] at h
  | cons x es ih =>
    rw [findWindow] at h
    split at h
    · rename_i hx
      simp only [Option.some.injEq, Prod.mk.injEq] at h
      obtain ⟨rfl, rfl, rfl⟩ := h
      exact ⟨Nat.le_refl _, by simp, by omega⟩
    · obtain ⟨h1, h2, h3⟩ := ih h
      refine ⟨by omega, ?_, h3⟩
      rw [show k - n = (k - (n + 1)) + 1 by omega, List.getElem?_cons_succ]
      exact h2

theorem busTarget_ok {s : State} {a width : Nat} {k off : Nat} {e : Engine} (h : s.busTarget a width = .ok (k, e, off)) :
    width = 4 ∧ a % 4 = 0 ∧ s.engines[k]? = some e ∧ a = e.regBase + off := by
  unfold State.busTarget at h
  split at h
  · simp at h
  · split at h
    · simp at h
    · split at h
      · simp at h
      · rename_i hw ha t ht
        simp only [Except.ok.injEq] at h
        subst h
        obtain ⟨_, h2, h3⟩ := findWindow_some ht
        exact ⟨by omega, by omega, by simpa using h2, h3⟩

/-- An access with a target is one that R98 defines. -/
theorem busTarget_wellFormed {s : State} {a width : Nat} {t : Nat × Engine × Nat} (h : s.busTarget a width = .ok t) :
    Sys2Proof.WellFormed.registerAccess a width = true := by
  obtain ⟨hw, ha, _⟩ := busTarget_ok (k := t.1) (e := t.2.1) (off := t.2.2) h
  simp [Sys2Proof.WellFormed.registerAccess, hw, ha]

/-- The target of a defined access to an engine's window (R98, R210). -/
theorem busTarget_of_inv {s : State} (hp : Sys2Proof.WellFormed.parameters s.memSize (s.engines.map Engine.regBase) = true)
    {k : Nat} {e : Engine} (hk : s.engines[k]? = some e) {off : Nat} (ho : off < 0x80) (h4 : off % 4 = 0) :
    s.busTarget (e.regBase + off) 4 = .ok (k, e, off) := by
  obtain ⟨_, _, ha, hd⟩ := (WellFormed.parameters_iff _ _).1 hp
  have h1 := ha _ (List.mem_map_of_mem (List.mem_of_getElem? hk))
  rw [State.busTarget, if_neg (by omega), if_neg (by omega), findWindow_of_parameters ha hd hk ho]
  simp

/-! ### Register writes -/

/-- A register write to a busy engine leaves its command, its operands and DONE = 0 as they are (R215, R216). -/
theorem writeOffset_of_busy {e : Engine} (hb : e.busy = true) (n off : Nat) (v : Word) :
    (e.writeOffset n off v).inflight = e.inflight ∧ (e.writeOffset n off v).cmd = e.cmd
      ∧ (e.done = false → (e.writeOffset n off v).done = false) ∧ (e.writeOffset n off v).addr = e.addr
      ∧ (e.writeOffset n off v).len = e.len ∧ (e.writeOffset n off v).dstAddr = e.dstAddr
      ∧ (e.writeOffset n off v).dstAvail = e.dstAvail ∧ (e.writeOffset n off v).crcAcc = e.crcAcc := by
  unfold Engine.writeOffset
  split
  · simp
  · rename_i r _
    cases r
    case status => simp +contextual [Engine.writeReg]
    all_goals simp [Engine.writeReg, Engine.writeOperand, hb]

/-- A register write to an idle engine accepts the word, or leaves it idle (R214). -/
theorem writeOffset_of_idle {e : Engine} (hb : e.busy = false) (n off : Nat) (v : Word) :
    e.writeOffset n off v = e.accept v n ∨ (e.writeOffset n off v).inflight = none := by
  have hf : e.inflight = none := by simpa [Engine.busy] using hb
  unfold Engine.writeOffset
  split
  · exact .inr hf
  · rename_i r _
    cases r <;> simp [Engine.writeReg, Engine.writeOperand, hb, hf]

/-! ### Steps with an event at the head of the agenda -/

theorem step_cons {s : State} {ev : Event} {rest : List Event} (h : s.agenda = ev :: rest) :
    step s = eventStep s.draws ev (s.pop rest) := by simp [step, h]

@[simp] theorem State.busTarget_pop (s : State) (rest : List Event) (a width : Nat) :
    (s.pop rest).busTarget a width = s.busTarget a width := rfl

/-- A register write, as a step. -/
theorem step_regWrite {s : State} {a width : Nat} {v : HostVal} {rest : List Event} {k off : Nat} {e : Engine}
    (h : s.agenda = .host (.regWrite a width v) :: rest) (ht : s.busTarget a width = .ok (k, e, off)) :
    step s = .next ((s.pop rest).setEngine k (e.writeOffset s.draws off (s.hostValue v))) := by
  rw [step_cons h]
  simp only [eventStep, hostStep, hostRegWrite, State.busTarget_pop, ht]
  cases v <;> rfl

/-- A register read, as a step. -/
theorem step_regRead {s : State} {a width dst : Nat} {rest : List Event} {k off : Nat} {e : Engine}
    (h : s.agenda = .host (.regRead a width dst) :: rest) (ht : s.busTarget a width = .ok (k, e, off)) :
    step s = .next { s.pop rest with vars := Sparse.set 0 s.vars dst (e.readOffset s.draws off) } := by
  rw [step_cons h]
  simp only [eventStep, hostStep, hostRegRead, State.busTarget_pop, ht]
  rfl

/-- A completion step of a busy engine whose word is a command. -/
theorem completionStep_ok {s : State} {k : Nat} {e : Engine} {i : Instr} (hk : s.engines[k]? = some e)
    (hb : e.busy = true) (hd : decode e.cmd = .ok i) : completionStep k s = exec i ((s.endLoads k e).select k) := by
  simp only [completionStep, hk, hb, if_true, hd]

theorem completionStep_illegal {s : State} {k : Nat} {e : Engine} {c : DecodeError} (hk : s.engines[k]? = some e)
    (hb : e.busy = true) (hd : decode e.cmd = .error c) : completionStep k s = completeIllegal ((s.endLoads k e).select k) := by
  simp only [completionStep, hk, hb, if_true, hd]

theorem completionStep_idle {s : State} {k : Nat} {e : Engine} (hk : s.engines[k]? = some e) (hb : e.busy = false) :
    completionStep k s = .next s := by
  simp [completionStep, hk, hb]

/-- What the word in CMD comes to: the pseudocode of the command it decodes to, or ILLEGAL_COMMAND (R222 (1), R238). -/
def State.outcomeOf (s : State) (e : Engine) (f : InFlight) : Plan :=
  match decode e.cmd with
  | .ok i => planOf i (s.view f) e
  | .error _ => .error .illegalCommand

@[simp] theorem State.outcomeOf_endLoads (s : State) (k : Nat) (e' e : Engine) (f : InFlight) :
    (s.endLoads k e').outcomeOf e f = s.outcomeOf e f := by simp [State.outcomeOf]

theorem outcomeOf_ok_iff {s : State} {e : Engine} {f : InFlight} {fin : Finish} :
    s.outcomeOf e f = .ok fin ↔ ∃ i, decode e.cmd = .ok i ∧ planOf i (s.view f) e = .ok fin := by
  unfold State.outcomeOf
  cases decode e.cmd <;> simp

/-- Every completion step of a busy engine answers a next state: the commit of some outcome (R221, R222). -/
theorem completionStep_busy {s : State} {k : Nat} {e : Engine} {f : InFlight} (hk : s.engines[k]? = some e)
    (hf : e.inflight = some f) :
    completionStep k s = .next (((s.endLoads k e).select k).commit k e f (s.outcomeOf e f)) := by
  have hb : e.busy = true := by simp [Engine.busy, hf]
  have hif : ((s.endLoads k e).select k).InFlightAt e f := ⟨by simpa using hk, hf⟩
  rw [← State.outcomeOf_endLoads s k e]
  cases hd : decode e.cmd with
  | error c => rw [completionStep_illegal hk hb hd, completeIllegal_inFlight hif, State.outcomeOf, hd]; rfl
  | ok i => rw [completionStep_ok hk hb hd, exec_inFlight hif, State.outcomeOf, hd]; rfl

end Sys2Proof.Machine
end

