-- ==== Sys2Proof/Laws/Step.lean ====
section
/-! SUPPORT. Everything a step can do, said once: the changes of a state that a step answering a next state can make; and when
a command ends without raising. -/

namespace Sys2Proof.Machine

/-! ### When a command succeeds -/

/-- What a command needs in order not to raise. -/
def View.Succeeds (v : View) : Instr → Prop
  | .nop | .crcInit => True
  | .crcUpdate | .checksum => v.SliceInMem
  | .lenDecode => v.SliceInMem ∧ 4 ≤ v.len
  | .tagExtract => v.SliceInMem ∧ 8 ≤ v.len
  | .verify | .regenerate | .payload | .next | .frame => v.FrameOk
  | .append => v.AppendOk

theorem planOf_succeeds_iff (i : Instr) (v : View) (e : Engine) : (∃ fin, planOf i v e = .ok fin) ↔ v.Succeeds i := by
  cases i <;> simp only [planOf, View.Succeeds]
  · simp [planNop_ok_iff]
  · simp [planCrcInit_ok_iff]
  · simp [planCrcUpdate_ok_iff]
  · simp [planChecksum_ok_iff]
  · simp [planVerify_ok_iff]
  · simp [planRegenerate_ok_iff]
  · simp [planLenDecode_ok_iff]
  · simp [planTagExtract_ok_iff]
  · simp [planPayload_ok_iff]
  · simp [planNext_ok_iff]
  · simp [planFrame_ok_iff]
  · simp [planAppend_ok_iff]

/-- It depends on the operands, MEM_SIZE and the decoded length alone. -/
theorem View.Succeeds.congr {v w : View} {i : Instr} (hm : w.memSize = v.memSize) (ha : w.fl.addr = v.fl.addr)
    (hn : w.fl.len = v.fl.len) (hd : w.fl.dstAddr = v.fl.dstAddr) (hv : w.fl.dstAvail = v.fl.dstAvail)
    (hl : w.lengthField = v.lengthField) (h : v.Succeeds i) : w.Succeeds i := by
  cases i <;> simp only [View.Succeeds, View.AppendOk, View.FrameOk, View.SliceInMem, View.addr, View.len, View.dstAddr,
    View.dstAvail, hm, ha, hn, hd, hv, hl] at * <;> exact h

/-- A planned store comes from a command that would not raise (R240). -/
theorem plannedBy_some {s : State} {e : Engine} {a : Nat} {v : Byte} (h : cellValue? (s.plannedBy e) a = some v) :
    ∃ f i fin, e.inflight = some f ∧ decode e.cmd = .ok i ∧ planOf i (s.view f) e = .ok fin
      ∧ s.plannedBy e = fin.writes ∧ (i = .regenerate ∨ i = .append) := by
  have hc := mem_of_cellValue? h
  cases hf : e.inflight with
  | none => simp [State.plannedBy, hf] at hc
  | some f =>
    cases hd : decode e.cmd with
    | error c => simp [State.plannedBy, hf, hd] at hc
    | ok i =>
      cases hp : planOf i (s.view f) e with
      | error c => simp [State.plannedBy, hf, hd, hp] at hc
      | ok fin =>
        have hw : s.plannedBy e = fin.writes := by simp [State.plannedBy, hf, hd, hp]
        refine ⟨f, i, fin, rfl, rfl, hp, hw, ?_⟩
        by_contra hi
        rw [not_or] at hi
        rw [hw, planOf_writes_nil hp hi] at hc
        simp at hc

/-- Every planned store lies in memory. -/
theorem plannedBy_inMem (s : State) (e : Engine) : ∀ c ∈ s.plannedBy e, c.1 < s.memSize := by
  intro c hc
  cases hf : e.inflight with
  | none => simp [State.plannedBy, hf] at hc
  | some f =>
    cases hd : decode e.cmd with
    | error c => simp [State.plannedBy, hf, hd] at hc
    | ok i =>
      cases hp : planOf i (s.view f) e with
      | error c => simp [State.plannedBy, hf, hd, hp] at hc
      | ok fin =>
        simp [State.plannedBy, hf, hd, hp] at hc
        exact ((planOf_writes hp).2 c hc).2

/-! ### The changes a step can make -/

/-- The changes of a step that takes the event `ev` (or finds none), from `s0`: the state, its event taken off the
agenda. -/
inductive Change (ev : Option Event) (s0 : State) : State → Prop
  /-- The agent has nothing to do. -/
  | none : Change ev s0 s0
  /-- Engine `k` completes its command, or the illegal word. -/
  | complete (k : Nat) (e : Engine) (f : InFlight) (hev : ev = Option.none ∨ ev = some (.complete k))
      (hk : s0.engines[k]? = some e) (hf : e.inflight = some f) :
      Change ev s0 (((s0.endLoads k e).select k).commit k e f (s0.outcomeOf e f))
  /-- The host reads a register; a WAIT may go on the agenda again. -/
  | hostVar (op : HostOp) (d : Nat) (v : Word) (ag : List Event) (hev : ev = some (.host op)) :
      Change ev s0 { s0 with vars := Sparse.set 0 s0.vars d v, agenda := ag }
  /-- The host writes a register. -/
  | regWrite (a width : Nat) (hv : HostVal) (k : Nat) (e : Engine) (n off : Nat)
      (hev : ev = some (.host (.regWrite a width hv))) (ht : s0.busTarget a width = .ok (k, e, off)) :
      Change ev s0 (s0.setEngine k (e.writeOffset n off (s0.hostValue hv)))
  /-- The host loads. -/
  | hostBuf (a len : HostVal) (d n : Nat) (hev : ev = some (.host (.memRead a len d))) :
      Change ev s0 { s0 with
        bufs := Sparse.set [] s0.bufs d (s0.hostLoads n (s0.hostValue a).toNat (s0.hostValue len).toNat) }
  /-- The host stores. -/
  | hostStore (a : HostVal) (bytes : List Byte) (hev : ev = some (.host (.memWrite a bytes)))
      (h : (s0.hostValue a).toNat + bytes.length ≤ s0.memSize) :
      Change ev s0 (s0.store (cellsAt (s0.hostValue a).toNat bytes))
  /-- Engine `k` makes one of its stores early. -/
  | storeEarly (k a : Nat) (hev : ev = some (.storeEarly k a)) : Change ev s0 (s0.storeEarly k a)
  /-- Engine `k` is reset. -/
  | reset (n k : Nat) (hev : ev = some (.reset k)) : Change ev s0 (s0.resetEngine n k)

theorem completionStep_change {s0 t : State} {k : Nat} {ev : Option Event} (hev : ev = none ∨ ev = some (.complete k))
    (h : completionStep k s0 = .next t) : Change ev s0 t := by
  cases hk : s0.engines[k]? with
  | none =>
    simp only [completionStep, hk, Host.Outcome.next.injEq] at h
    subst h; exact .none
  | some e =>
    cases hf : e.inflight with
    | none =>
      rw [completionStep_idle hk (by simp [Engine.busy, hf])] at h
      cases h; exact .none
    | some f =>
      rw [completionStep_busy hk hf] at h
      cases h; exact .complete k e f hev hk hf

theorem hostStep_change {s0 t : State} {n : Nat} {op : HostOp} (h : hostStep n op s0 = .next t) :
    Change (some (.host op)) s0 t := by
  cases op with
  | regRead a width dst =>
    simp only [hostStep, hostRegRead] at h
    split at h
    · simp at h
    · cases h; exact .hostVar _ _ _ s0.agenda rfl
  | regWrite a width v =>
    simp only [hostStep, hostRegWrite] at h
    split at h
    · simp at h
    · rename_i ht
      cases h; exact .regWrite a width v _ _ _ _ rfl ht
  | memRead a len dst =>
    simp only [hostStep, hostMemRead] at h
    split at h
    · cases h; exact .hostBuf _ _ _ _ rfl
    · simp at h
  | memWrite a bytes =>
    simp only [hostStep, hostMemWrite] at h
    split at h
    · rename_i hm
      cases h; exact .hostStore _ _ rfl ((inMem_iff _ _ _).1 hm)
    · simp at h
  | wait base =>
    simp only [hostStep, hostWait] at h
    split at h
    · simp at h
    · cases h; exact .hostVar _ _ _ _ rfl

/-- Everything a step can do: it takes an event off the agenda, or none is there; and it makes one of the changes. -/
theorem step_change {s t : State} (h : step s = .next t) :
    (s.agenda = [] ∧ Change none s t) ∨ ∃ ev rest, s.agenda = ev :: rest ∧ Change (some ev) (s.pop rest) t := by
  cases hag : s.agenda with
  | nil =>
    refine .inl ⟨rfl, ?_⟩
    simp only [step, hag] at h
    split at h
    · exact completionStep_change (.inl rfl) h
    · cases h; exact .none
  | cons ev rest =>
    refine .inr ⟨ev, rest, rfl, ?_⟩
    rw [step_cons hag] at h
    cases ev with
    | host op => exact hostStep_change h
    | complete k => exact completionStep_change (.inr rfl) h
    | storeEarly k a => cases h; exact .storeEarly k a rfl
    | reset k => cases h; exact .reset _ k rfl

/-! ### What a change keeps of the parameters -/

theorem writeReg_regBase (e : Engine) (n : Nat) (v : Word) (r : Reg) : (e.writeReg n v r).regBase = e.regBase := by
  cases r <;> simp only [Engine.writeReg, Engine.writeOperand] <;> (try split) <;> rfl

theorem writeOffset_regBase (e : Engine) (n off : Nat) (v : Word) : (e.writeOffset n off v).regBase = e.regBase := by
  unfold Engine.writeOffset
  split
  · rfl
  · exact writeReg_regBase _ _ _ _

/-- Replacing an engine by one that looks the same leaves the list looking the same. -/
theorem map_set_of_eq {α : Type} {g : Engine → α} {es : List Engine} {k : Nat} {e e' : Engine} (hk : es[k]? = some e)
    (h : g e' = g e) : (es.set k e').map g = es.map g := by
  rw [List.map_set, h]
  obtain ⟨h1, rfl⟩ := List.getElem?_eq_some_iff.1 hk
  rw [show g es[k] = (es.map g)[k]'(by simpa using h1) by simp]
  exact List.set_getElem_self _

theorem map_set_regBase {es : List Engine} {k : Nat} {e e' : Engine} (hk : es[k]? = some e) (h : e'.regBase = e.regBase) :
    (es.set k e').map Engine.regBase = es.map Engine.regBase := map_set_of_eq hk h

@[simp] theorem map_witness_regBase (notes : List StoreNote) (es : List Engine) :
    (es.map (Engine.witness notes)).map Engine.regBase = es.map Engine.regBase := by
  simp [Function.comp_def]

theorem commit_memSize (s : State) (k : Nat) (e : Engine) (f : InFlight) (p : Plan) : (s.commit k e f p).memSize = s.memSize := by
  cases p <;> rfl

theorem commit_regBase {s : State} {k : Nat} {e : Engine} {f : InFlight} {p : Plan} (hk : s.engines[k]? = some e)
    (hp : ∀ fin, p = .ok fin → fin.regs.regBase = e.regBase) :
    (s.commit k e f p).engines.map Engine.regBase = s.engines.map Engine.regBase := by
  cases p with
  | error c => exact map_set_regBase hk rfl
  | ok fin =>
    rw [commit_ok, State.store_engines, map_witness_regBase]
    exact map_set_regBase hk (by simpa using hp fin rfl)

/-! ### Runs -/

theorem core_run_zero (s : State) : Sys2Proof.core.run 0 s = .next s := rfl

/-- A run of one step more. -/
theorem core_run_succ {s t : State} (h : step s = .next t) (n : Nat) :
    Sys2Proof.core.run (n + 1) s = Sys2Proof.core.run n t := by
  simp only [Host.Core.run, show Sys2Proof.core.step = step from rfl, h]

/-- One turn of WAIT on the engine whose window is at its base (R120, R224). -/
theorem step_wait {s : State} {k : Nat} {e : Engine} {rest : List Event}
    (hp : Sys2Proof.WellFormed.parameters s.memSize (s.engines.map Engine.regBase) = true)
    (hk : s.engines[k]? = some e) (hag : s.agenda = .host (.wait e.regBase) :: rest) :
    step s = .next { s.pop rest with
      vars := Sparse.set 0 s.vars 0 e.status
      agenda := if e.busy then .complete k :: .host (.wait e.regBase) :: rest else rest } := by
  have ht : (s.pop rest).busTarget (e.regBase + regOffset .status) 4 = .ok (k, e, regOffset .status) :=
    busTarget_of_inv hp hk (regOffset_lt _) (regOffset_aligned _)
  have hr : e.readOffset s.draws (regOffset .status) = e.status := by
    simp [Engine.readOffset, unspecifiedWhileBusy, Engine.regValue]
  have hb : e.status.getLsbD 0 = e.busy := by
    simp [Engine.status, bit]; cases e.busy <;> simp
  rw [step_cons hag]
  simp only [eventStep, hostStep, hostWait, ht, hr, hb, State.turnAfterPoll]
  cases e.busy <;> rfl

/-! ### Busy engines -/

theorem firstBusy_some {es : List Engine} {n k : Nat} (h : firstBusy es n = some k) :
    n ≤ k ∧ ∃ e, es[k - n]? = some e ∧ e.busy = true := by
  induction es generalizing n with
  | nil => simp [firstBusy] at h
  | cons x es ih =>
    rw [firstBusy] at h
    split at h
    · cases h
      exact ⟨Nat.le_refl _, x, by simp, by assumption⟩
    · obtain ⟨h1, e, h2, h3⟩ := ih h
      refine ⟨by omega, e, ?_, h3⟩
      rw [show k - n = (k - (n + 1)) + 1 by omega, List.getElem?_cons_succ]
      exact h2

theorem firstBusy_none {es : List Engine} {n : Nat} (h : firstBusy es n = none) : ∀ e ∈ es, e.busy = false := by
  induction es generalizing n with
  | nil => simp
  | cons x es ih =>
    rw [firstBusy] at h
    split at h
    · simp at h
    · rename_i hx
      intro e he
      rcases List.mem_cons.1 he with rfl | he
      · simpa using hx
      · exact ih h e he

/-- Replacing a busy engine by an idle one leaves one busy engine fewer. -/
theorem busyCount_set {es : List Engine} {k : Nat} {e e' : Engine} (hk : es[k]? = some e) (h1 : e.busy = true)
    (h2 : e'.busy = false) : ((es.set k e').filter Engine.busy).length + 1 = (es.filter Engine.busy).length := by
  induction es generalizing k with
  | nil => simp at hk
  | cons x es ih =>
    cases k with
    | zero =>
      simp only [List.getElem?_cons_zero, Option.some.injEq] at hk
      subst hk
      simp [h1, h2]
    | succ k =>
      rw [List.getElem?_cons_succ] at hk
      have := ih hk
      simp only [List.set_cons_succ, List.filter_cons]
      split
      · simp only [List.length_cons]; omega
      · exact this

@[simp] theorem busyCount_witness (es : List Engine) (notes : List StoreNote) :
    ((es.map (Engine.witness notes)).filter Engine.busy).length = (es.filter Engine.busy).length := by
  induction es with
  | nil => rfl
  | cons x es ih =>
    simp only [List.map_cons, List.filter_cons, Engine.busy_witness]
    split <;> simp [ih]

end Sys2Proof.Machine
end

