-- ==== Sys2Proof/Laws/Progress.lean ====
section
/-! SUPPORT. What a store made early settles of a command in flight: the reads it makes fix what the command will write (R222);
and everything a step can do to a command in flight. -/

namespace Sys2Proof.Machine

/-! ### A command's outcome is the same for every engine's registers -/

theorem planOf_engine {i : Instr} {v : View} {e : Engine} {fin : Finish} (h : planOf i v e = .ok fin) (e' : Engine) :
    ∃ fin', planOf i v e' = .ok fin' ∧ fin'.writes = fin.writes := by
  obtain ⟨fin', h'⟩ := (planOf_succeeds_iff i v e').2 ((planOf_succeeds_iff i v e).1 ⟨fin, h⟩)
  refine ⟨fin', h', ?_⟩
  by_cases hi : i ≠ .regenerate ∧ i ≠ .append
  · rw [planOf_writes_nil h hi, planOf_writes_nil h' hi]
  · obtain rfl | rfl : i = .regenerate ∨ i = .append := by tauto
    · obtain ⟨_, rfl⟩ := (planRegenerate_ok_iff v e fin).1 h
      obtain ⟨_, rfl⟩ := (planRegenerate_ok_iff v e' fin').1 h'
      rfl
    · obtain ⟨_, rfl⟩ := (planAppend_ok_iff v e fin).1 h
      obtain ⟨_, rfl⟩ := (planAppend_ok_iff v e' fin').1 h'
      rfl

/-- With the same operands and length field a command raises in both views or in neither. -/
theorem planOf_ok_congr {i : Instr} {v w : View} {e : Engine} {fin : Finish} (h : planOf i v e = .ok fin)
    (hs : v.SameOperands w) (hl : w.lengthField = v.lengthField) (e' : Engine) : ∃ fin', planOf i w e' = .ok fin' :=
  (planOf_succeeds_iff i w e').2 (((planOf_succeeds_iff i v e).1 ⟨fin, h⟩).congr hs.memSize.symm hs.addr.symm hs.len.symm
    hs.dstAddr.symm hs.dstAvail.symm hl)

/-! ### A command that stays in flight -/

/-- The command of `e` is still in flight in `e'`: it may have taken note of stores and made more reads, and other registers
may have changed. -/
def Engine.Continues (e e' : Engine) : Prop :=
  e'.cmd = e.cmd ∧ ∃ f held more, e.inflight = some f ∧ e'.inflight = some { f with held := held, reads := f.reads ++ more }

theorem Engine.Continues.of_inflight {e e' : Engine} {f : InFlight} (hf : e.inflight = some f)
    (hi : e'.inflight = e.inflight) (hc : e'.cmd = e.cmd) : e.Continues e' :=
  ⟨hc, f, f.held, [], hf, by simp [hi, hf]⟩

theorem Engine.Continues.refl {e : Engine} {f : InFlight} (hf : e.inflight = some f) : e.Continues e :=
  .of_inflight hf rfl rfl

theorem Engine.Continues.trans {e e' e'' : Engine} (h : e.Continues e') (h' : e'.Continues e'') : e.Continues e'' := by
  obtain ⟨hc, f, _, more, hf, hi⟩ := h
  obtain ⟨hc', g, held, more', hg, hi'⟩ := h'
  obtain rfl := Option.some.inj (hi.symm.trans hg)
  exact ⟨hc'.trans hc, f, held, more ++ more', hf, by simpa using hi'⟩

theorem Engine.continues_witness {e : Engine} {f : InFlight} (hf : e.inflight = some f) (notes : List StoreNote) :
    e.Continues (e.witness notes) := ⟨by simp, f, f.held ++ notes, [], hf, by simp [hf]⟩

/-! ### What a command will write -/

/-- What a command in flight will write it will write while it is in flight. -/
theorem Engine.WillWrite.mono {e e' : Engine} {m a : Nat} {p : Byte → Prop} (h : e.WillWrite m a p) (hc : e.Continues e') :
    e'.WillWrite m a p := by
  obtain ⟨hc, f, held, more, hf, hf'⟩ := hc
  obtain ⟨g, i, hg, hd, h⟩ := h
  obtain rfl := Option.some.inj (hf.symm.trans hg)
  refine ⟨_, i, hf', by rw [hc, hd], fun mem held' more' => ?_⟩
  obtain ⟨fin, v, hp, hv, hpv⟩ := h mem held' (more ++ more')
  obtain ⟨fin', hp', hw⟩ := planOf_engine hp e'
  exact ⟨fin', v, by simpa using hp', by rw [hw, hv], hpv⟩

/-- And what it will not write it will not. -/
theorem Engine.WillNotWrite.mono {e e' : Engine} {m a : Nat} (h : e.WillNotWrite m a) (hc : e.Continues e') :
    e'.WillNotWrite m a := by
  obtain ⟨hc, f, held, more, hf, hf'⟩ := hc
  obtain ⟨g, hg, h⟩ := h
  obtain rfl := Option.some.inj (hf.symm.trans hg)
  refine ⟨_, hf', fun i mem held' more' fin hd hp => ?_⟩
  obtain ⟨fin', hp', hw⟩ := planOf_engine hp e
  rw [← hw]
  exact h i mem held' (more ++ more') fin' (hc ▸ hd) (by simpa using hp')

/-- In the state it is in now, the command's plan does not write that byte. -/
theorem Engine.WillNotWrite.plan {s : State} {e : Engine} {f : InFlight} {a : Nat} (h : e.WillNotWrite s.memSize a)
    (hf : e.inflight = some f) {i : Instr} {fin : Finish} (hd : decode e.cmd = .ok i)
    (hp : planOf i (s.view f) e = .ok fin) : cellValue? fin.writes a = none := by
  obtain ⟨g, hg, h⟩ := h
  obtain rfl := Option.some.inj (hf.symm.trans hg)
  refine h i s.mem f.held [] fin hd ?_
  rw [List.append_nil]
  exact hp

theorem Engine.WillWrite.imp {e : Engine} {m a : Nat} {p q : Byte → Prop} (h : e.WillWrite m a p) (hpq : ∀ v, p v → q v) :
    e.WillWrite m a q := by
  obtain ⟨f, i, hf, hd, h⟩ := h
  refine ⟨f, i, hf, hd, fun mem held more => ?_⟩
  obtain ⟨fin, v, hp, hv, hpv⟩ := h mem held more
  exact ⟨fin, v, hp, hv, hpq v hpv⟩

theorem Engine.WillWrite.witness {e : Engine} {m a : Nat} {p : Byte → Prop} (h : e.WillWrite m a p) (notes : List StoreNote) :
    (e.witness notes).WillWrite m a p := by
  obtain ⟨f, _, hf, _⟩ := id h
  exact h.mono (Engine.continues_witness hf notes)

/-- What a command will write at a byte is one value. -/
theorem Engine.WillWrite.unique {e : Engine} {m a : Nat} {v w : Byte} (hv : e.WillWrite m a (· = v))
    (hw : e.WillWrite m a (· = w)) : v = w := by
  obtain ⟨f, i, hf, hd, hv⟩ := hv
  obtain ⟨g, j, hg, hd', hw⟩ := hw
  obtain rfl := Option.some.inj (hf.symm.trans hg)
  cases hd.symm.trans hd'
  obtain ⟨_, _, hp, hc, rfl⟩ := hv [] [] []
  obtain ⟨_, _, hp', hc', rfl⟩ := hw [] [] []
  cases hp.symm.trans hp'
  exact Option.some.inj (hc.symm.trans hc')

/-- In the state it is in now, the command's plan writes that byte, and ends with OK. -/
theorem Engine.WillWrite.plan {s : State} {e : Engine} {a : Nat} {p : Byte → Prop} (h : e.WillWrite s.memSize a p) :
    ∃ f i fin v, e.inflight = some f ∧ decode e.cmd = .ok i ∧ planOf i (s.view f) e = .ok fin ∧ fin.code = .ok
      ∧ cellValue? fin.writes a = some v ∧ p v := by
  obtain ⟨f, i, hf, hd, h⟩ := h
  obtain ⟨fin, v, hp, hv, hpv⟩ := h s.mem f.held []
  have hp : planOf i (s.view f) e = .ok fin := by rw [List.append_nil] at hp; exact hp
  refine ⟨f, i, fin, v, hf, hd, hp, ?_, hv, hpv⟩
  by_contra hc
  obtain ⟨_, rfl⟩ := planOf_code hp hc
  rw [planOf_writes_nil hp (by simp)] at hv
  simp [cellValue?] at hv

/-- Notes of stores, and other registers, change nothing of what early reads settle. -/
theorem Engine.StoringIsSettled.of_notes {e e' : Engine} {m : Nat} (h : e.StoringIsSettled m) (hc : e'.cmd = e.cmd)
    (hi : ∀ f', e'.inflight = some f' → ∃ f held, e.inflight = some f ∧ f' = { f with held := held }) :
    e'.StoringIsSettled m := by
  intro f' hf' hr
  obtain ⟨f, held, hf, rfl⟩ := hi f' hf'
  obtain ⟨i, l, hd, hi', h⟩ := h f hf hr
  refine ⟨i, l, hc ▸ hd, hi', fun mem held' more v hv => ?_⟩
  obtain ⟨hl, fin, hp⟩ := h mem held' more v hv
  exact ⟨hl, (planOf_engine hp e').imp fun _ h => h.1⟩

/-! ### Making reads -/

@[simp] theorem View.makeReads_held (v : View) (qs : List (ReadSite × Nat)) : (v.makeReads qs).held = v.fl.held := rfl

/-- A read made stands, whatever is stored and read later. -/
theorem View.read_after_makeReads (v : View) {qs : List (ReadSite × Nat)} {site : ReadSite} {a : Nat} (h : (site, a) ∈ qs)
    (mem : Memory) (m : Nat) (held : List StoreNote) (more : List MadeRead) :
    View.read { mem := mem, memSize := m, fl := { v.makeReads qs with held := held, reads := (v.makeReads qs).reads ++ more } }
      site a = v.read site a := by
  refine View.read_made ?_
  simp only [View.makeReads, List.append_assoc, madeRead?_append]
  cases hm : madeRead? v.fl.reads site a with
  | some b => simp [View.read_made hm]
  | none =>
    suffices madeRead? (qs.map fun q => { site := q.1, addr := q.2, value := v.read q.1 q.2 }) site a
        = some (v.read site a) by simp [this]
    clear hm
    induction qs with
    | nil => simp at h
    | cons q qs ih =>
      simp only [List.map_cons, madeRead?]
      split
      · rename_i hq
        rw [← hq.1, ← hq.2]
      · rename_i hq
        rcases List.mem_cons.1 h with rfl | h
        · exact absurd ⟨rfl, rfl⟩ hq
        · exact ih h

theorem mem_dataReads {a n x : Nat} (h1 : a ≤ x) (h2 : x < a + n) : (ReadSite.data, x) ∈ dataReads a n := by
  induction n generalizing a with
  | zero => omega
  | succ n ih =>
    rw [dataReads]
    by_cases hx : x = a
    · simp [hx]
    · exact List.mem_cons_of_mem _ (ih (by omega) (by omega))

theorem mem_lengthReads {v : View} {x : Nat} (h1 : v.addr ≤ x) (h2 : x < v.addr + 4) :
    (ReadSite.length, x) ∈ lengthReads v := by
  obtain rfl | rfl | rfl | rfl : x = v.addr ∨ x = v.addr + 1 ∨ x = v.addr + 2 ∨ x = v.addr + 3 := by omega
  all_goals simp [lengthReads]

/-- The reads a store rests on begin with those of the length field. -/
theorem lengthReads_subset {i : Instr} (hi : i = .regenerate ∨ i = .append) (v : View) (a : Nat) :
    lengthReads v ⊆ storeReads i v a := by
  rcases hi with rfl | rfl <;> exact List.subset_append_left _ _

/-- Once its reads are among those made, the length field stays. -/
theorem View.lengthField_after_makeReads (v : View) {qs : List (ReadSite × Nat)} (hq : lengthReads v ⊆ qs) (mem : Memory)
    (m : Nat) (held : List StoreNote) (more : List MadeRead) :
    View.lengthField { mem := mem, memSize := m, fl :=
      { v.makeReads qs with held := held, reads := (v.makeReads qs).reads ++ more } } = v.lengthField :=
  View.read32_congr fun _ h1 h2 => v.read_after_makeReads (hq (mem_lengthReads h1 h2)) mem m held more

/-- A command that makes the reads its store to a byte rests on, and whose plan writes that byte now, will write it with the
value planned now. -/
theorem willWrite_of_makeReads {s : State} {e : Engine} {f : InFlight} {i : Instr} {fin : Finish} {a : Nat} {b : Byte}
    (hd : decode e.cmd = .ok i) (hp : planOf i (s.view f) e = .ok fin) (hb : cellValue? fin.writes a = some b) :
    Engine.WillWrite s.memSize { e with inflight := some ((s.view f).makeReads (storeReads i (s.view f) a)) } a (· = b) := by
  have hi : i = .regenerate ∨ i = .append := by
    by_contra hi
    rw [planOf_writes_nil hp (by tauto)] at hb
    simp [cellValue?] at hb
  have hq := lengthReads_subset hi (s.view f) a
  refine ⟨_, i, rfl, hd, fun mem held more => ?_⟩
  generalize hw : ({ mem := mem, memSize := s.memSize, fl :=
    { (s.view f).makeReads (storeReads i (s.view f) a) with
      held := held, reads := ((s.view f).makeReads (storeReads i (s.view f) a)).reads ++ more } } : View) = w
  have hread : ∀ {site x}, (site, x) ∈ storeReads i (s.view f) a → w.read site x = (s.view f).read site x := fun h => by
    rw [← hw]; exact (s.view f).read_after_makeReads h mem s.memSize held more
  have hA : w.addr = (s.view f).addr := by rw [← hw]; rfl
  have hD : w.dstAddr = (s.view f).dstAddr := by rw [← hw]; rfl
  have hl : w.lengthField = (s.view f).lengthField := by
    rw [← hw]; exact (s.view f).lengthField_after_makeReads hq mem s.memSize held more
  obtain ⟨fin', hp'⟩ := planOf_ok_congr hp (w := w) (by rw [← hw]; exact ⟨rfl, rfl, rfl, rfl, rfl, rfl⟩) hl
    { e with inflight := some ((s.view f).makeReads (storeReads i (s.view f) a)) }
  refine ⟨fin', b, hp', ?_, rfl⟩
  rcases hi with rfl | rfl
  · obtain ⟨_, rfl⟩ := (planRegenerate_ok_iff _ _ _).1 hp
    obtain ⟨_, rfl⟩ := (planRegenerate_ok_iff _ _ _).1 hp'
    have : w.chunkCrcInput (s.view f).lengthField.toNat = (s.view f).chunkCrcInput (s.view f).lengthField.toNat := by
      unfold View.chunkCrcInput
      rw [hA]
      exact View.bytes_congr fun x h1 h2 => hread (List.mem_append_right _ (mem_dataReads h1 h2))
    simpa only [hA, hl, this] using hb
  · obtain ⟨_, rfl⟩ := (planAppend_ok_iff _ _ _).1 hp
    obtain ⟨_, rfl⟩ := (planAppend_ok_iff _ _ _).1 hp'
    simp only [cellValue?_cellsAt, hA, hD, hl, View.getElem?_bytes] at hb ⊢
    split at hb
    · rename_i ha
      rw [if_pos ha]
      split at hb
      · rename_i hlt
        rw [if_pos hlt, ← Option.some.inj hb]
        exact congrArg some (hread (List.mem_append_right _ (List.mem_singleton.2 rfl)))
      · simp at hb
    · simp at hb

/-- Engine `e` once its command has made the reads `qs`. -/
abbrev Engine.withReads (e : Engine) (s : State) (f : InFlight) (qs : List (ReadSite × Nat)) : Engine :=
  { e with inflight := some ((s.view f).makeReads qs) }

theorem Engine.continues_withReads {e : Engine} {f : InFlight} (hf : e.inflight = some f) (s : State)
    (qs : List (ReadSite × Nat)) : e.Continues (e.withReads s f qs) := ⟨rfl, f, f.held, _, hf, rfl⟩

/-- Having made the reads its store to a planned byte rests on, the command will write the planned value there. -/
theorem makeStoreReads_of_planned {s : State} {e : Engine} {a : Nat} {v : Byte} (h : cellValue? (s.plannedBy e) a = some v) :
    ∃ f qs, e.inflight = some f ∧ lengthReads (s.view f) ⊆ qs ∧ s.makeStoreReads e a = e.withReads s f qs
      ∧ (s.makeStoreReads e a).WillWrite s.memSize a (· = v) := by
  obtain ⟨f, i, fin, hf, hd, hp, hw, hi⟩ := plannedBy_some h
  have hm : s.makeStoreReads e a = e.withReads s f (storeReads i (s.view f) a) := by
    simp only [State.makeStoreReads, hf, hd]
  refine ⟨f, _, hf, lengthReads_subset hi _ a, hm, ?_⟩
  rw [hm]
  exact willWrite_of_makeReads hd hp (hw ▸ h)

@[simp] theorem Engine.withoutReads_busy (e : Engine) : e.withoutReads.busy = e.busy := by
  simp [Engine.withoutReads, Engine.busy]

/-! ### Early stores -/

/-- Everything an early store can do: nothing, when the byte is none its command would write; or the byte takes the planned
value, the other engines note another agent's store, and the command, having made reads, will write that value there. -/
theorem storeEarly_cases (s : State) (k a : Nat) :
    (s.storeEarly k a = s ∧ ∀ e, s.engines[k]? = some e → cellValue? (s.plannedBy e) a = none) ∨
      ∃ e f qs v, s.engines[k]? = some e ∧ e.inflight = some f ∧ cellValue? (s.plannedBy e) a = some v
        ∧ lengthReads (s.view f) ⊆ qs ∧ (e.withReads s f qs).WillWrite s.memSize a (· = v)
        ∧ s.storeEarly k a = (s.store [(a, v)]).setEngine k
            ((e.withReads s f qs).witness (storeNotes s.mem true [(a, v)])) := by
  unfold State.storeEarly
  cases hk : s.engines[k]? with
  | none => exact .inl ⟨rfl, by simp⟩
  | some e =>
    cases hv : cellValue? (s.plannedBy e) a with
    | none => exact .inl ⟨by simp [hv], fun e' h => by rw [← Option.some.inj h, hv]⟩
    | some v =>
      obtain ⟨f, qs, hf, hq, hm, hw⟩ := makeStoreReads_of_planned hv
      rw [hm] at hw
      exact .inr ⟨e, f, qs, v, rfl, hf, hv, hq, hw, by simp only [hv, hm]⟩

/-! ### A command in flight across a step -/

theorem Change.memSize {s t : State} {ev : Option Event} (h : Change ev s t) : t.memSize = s.memSize := by
  cases h with
  | complete => exact commit_memSize ..
  | storeEarly k a => rcases storeEarly_cases s k a with ⟨h, _⟩ | ⟨_, _, _, _, _, _, _, _, _, h⟩ <;> simp [h]
  | reset => unfold State.resetEngine; split <;> simp
  | _ => rfl

/-- Everything a step can do to a command in flight, but for a reset of its engine: the command completes, or it stays in
flight. -/
theorem Change.inFlight {s t : State} {ev : Option Event} (h : Change ev s t) {k : Nat} {e : Engine} {f : InFlight}
    (hk : s.engines[k]? = some e) (hf : e.inflight = some f) (hev : ev ≠ some (.reset k)) :
    t = ((s.endLoads k e).select k).commit k e f (s.outcomeOf e f) ∨ ∃ e', t.engines[k]? = some e' ∧ e.Continues e' := by
  have hlt := (List.getElem?_eq_some_iff.1 hk).1
  have hw := Engine.continues_witness hf
  cases h with
  | none => exact .inr ⟨e, hk, .refl hf⟩
  | complete j e2 f2 _ hj hf2 =>
    by_cases hjk : j = k
    · subst hjk
      obtain rfl := Option.some.inj (hk.symm.trans hj)
      obtain rfl := Option.some.inj (hf.symm.trans hf2)
      exact .inl rfl
    · refine .inr ?_
      generalize s.outcomeOf e2 f2 = p
      cases p with
      | error c => exact ⟨e, by rw [commit_error]; simpa [List.getElem?_set_ne hjk] using hk, .refl hf⟩
      | ok fin => exact ⟨_, by rw [commit_ok, getElem?_setEngine_store, if_neg (Ne.symm hjk), State.select_engines,
          State.endLoads_engines, hk]; rfl,
          hw _⟩
  | hostVar => exact .inr ⟨e, hk, .refl hf⟩
  | regWrite a width hv j e2 n off _ ht =>
    have hj := (busTarget_ok ht).2.2.1
    by_cases hjk : j = k
    · subst hjk
      obtain rfl := Option.some.inj (hk.symm.trans hj)
      have hb := writeOffset_of_busy (e := e) (by simp [Engine.busy, hf]) n off (s.hostValue hv)
      exact .inr ⟨_, by simp [hlt], .of_inflight hf hb.1 hb.2.1⟩
    · exact .inr ⟨e, by simpa [List.getElem?_set_ne hjk] using hk, .refl hf⟩
  | hostBuf => exact .inr ⟨e, hk, .refl hf⟩
  | hostStore => exact .inr ⟨_, by rw [State.store_engines, List.getElem?_map, hk]; rfl, hw _⟩
  | storeEarly j b _ =>
    refine .inr ?_
    rcases storeEarly_cases s j b with ⟨h, _⟩ | ⟨g, h, qs, v, hj, hh, _, _, _, h'⟩
    · rw [h]; exact ⟨e, hk, .refl hf⟩
    · rw [h']
      by_cases hjk : j = k
      · subst hjk
        obtain rfl := Option.some.inj (hk.symm.trans hj)
        exact ⟨_, by simp [hlt]; rfl, (Engine.continues_withReads hh s qs).trans (Engine.continues_witness rfl _)⟩
      · exact ⟨_, by rw [State.setEngine_engines, List.getElem?_set_ne hjk, State.store_engines, List.getElem?_map, hk]; rfl,
          hw _⟩
  | reset n j hev' =>
    subst hev'
    have hjk : j ≠ k := fun h => hev (by rw [h])
    refine .inr ?_
    unfold State.resetEngine
    cases hj : s.engines[j]? with
    | none => exact ⟨e, hk, .refl hf⟩
    | some g => exact ⟨_, by simp only [getElem?_setEngine_store, if_neg (Ne.symm hjk),
        State.endLoads_engines, hk, Option.map_some]; rfl, hw _⟩

end Sys2Proof.Machine
end

