-- ==== Sys2Proof/Laws/Loads.lean ====
section
/-! SUPPORT. Host loads (R86 (b), R223): which commands a loaded byte waits for, what the end of a command does to it, and the
value it has when all have ended. -/

namespace Sys2Proof.Machine

/-! ### The commands that may write a byte -/

/-- A command writes only bytes that it may write. -/
theorem mayWrite_of_written {i : Instr} {v : View} {e : Engine} {fin : Finish} {a : Nat} {b : Byte}
    (h : planOf i v e = .ok fin) (hb : cellValue? fin.writes a = some b) : mayWrite i v a = true := by
  obtain ⟨r, hr, h1, h2⟩ := ((planOf_writes h).2 _ (mem_of_cellValue? hb)).1
  cases i <;> simp only [writeSet, List.not_mem_nil, List.mem_singleton] at hr <;> subst hr <;>
    simp only [planOf] at h <;> simp only at h1 h2
  · have := ((planRegenerate_ok_iff v e fin).1 h).1.2.2.2
    simp [mayWrite]
    omega
  · have := ((planAppend_ok_iff v e fin).1 h).1.2.2.1
    simp [mayWrite]
    omega

/-- A command in flight that may not write a byte will not, whatever is stored. -/
theorem willNotWrite_of_mayWriteByte {s : State} {e : Engine} {a : Nat} (hb : e.busy = true)
    (h : s.mayWriteByte a e = false) : e.WillNotWrite s.memSize a := by
  obtain ⟨f, hf⟩ := Option.isSome_iff_exists.1 hb
  refine ⟨f, hf, fun i mem held more fin hd hp => ?_⟩
  by_contra hc
  obtain ⟨b, hc⟩ := Option.ne_none_iff_exists'.1 hc
  have := mayWrite_of_written hp hc
  simp only [State.mayWriteByte, hf, hd] at h
  exact absurd (show mayWrite i (s.view f) a = true from this) (by simp [h])

theorem mayWriteByte_busy {s : State} {a : Nat} {e : Engine} (h : s.mayWriteByte a e = true) : e.busy = true := by
  unfold State.mayWriteByte at h
  split at h
  · simp [Engine.busy, *]
  · simp at h

theorem mem_mayWriters {s : State} {a k : Nat} :
    k ∈ s.mayWriters a ↔ ∃ e, s.engines[k]? = some e ∧ s.mayWriteByte a e = true := by
  rw [State.mayWriters, List.mem_filter, List.mem_range, Option.any_eq_true]
  exact ⟨fun h => h.2, fun h => ⟨h.elim fun _ h => (List.getElem?_eq_some_iff.1 h.1).1, h⟩⟩

/-! ### The loaded bytes -/

theorem PendingLoad.close_eq (p : PendingLoad) : p.close = if p.waits = [] then .known p.value else .pending p := by
  simp [PendingLoad.close]

/-- The value of a load that no command allows anything is memory's byte. -/
theorem PendingLoad.value_of_unwritten {p : PendingLoad} (h : p.allowed = []) : p.value = p.seen := by
  simp [PendingLoad.value, PendingLoad.choices, h]

/-- The value of a load is one that R86 (b) allows for some of the commands that write the byte, and for all of them where it
allows one for all. -/
theorem PendingLoad.value_allowed {p : PendingLoad} (h : p.allowed ≠ []) (hne : ∀ vs ∈ p.allowed, vs ≠ []) :
    (∃ vs ∈ p.allowed, p.value ∈ vs) ∧ ((∃ y, ∀ vs ∈ p.allowed, y ∈ vs) → ∀ vs ∈ p.allowed, p.value ∈ vs) := by
  obtain ⟨us, hus⟩ := List.exists_mem_of_ne_nil _ h
  obtain ⟨u, hu⟩ := List.exists_mem_of_ne_nil _ (hne us hus)
  have hc : p.choices ≠ [] := by
    simp only [PendingLoad.choices]
    split
    · exact List.ne_nil_of_mem (List.mem_flatten.2 ⟨us, hus, hu⟩)
    · rename_i hne
      exact fun h => hne (List.isEmpty_iff.2 h)
  have hv : p.value ∈ p.choices := by
    have := Nat.mod_lt (Config.hostReadChoice p.event p.addr) (List.length_pos_iff.2 hc)
    rw [PendingLoad.value, List.getD_eq_getElem?_getD, List.getElem?_eq_getElem this]
    exact List.getElem_mem this
  generalize p.value = x at hv
  simp only [PendingLoad.choices] at hv
  split at hv
  · rename_i hem
    refine ⟨List.mem_flatten.1 hv, fun ⟨y, hy⟩ => ?_⟩
    have : y ∈ p.allowed.flatten.filter fun x => p.allowed.all fun vs => vs.contains x :=
      List.mem_filter.2 ⟨List.mem_flatten.2 ⟨us, hus, hy us hus⟩, by simpa using hy⟩
    rw [List.isEmpty_iff.1 hem] at this
    simp at this
  · obtain ⟨h1, h2⟩ := List.mem_filter.1 hv
    exact ⟨List.mem_flatten.1 h1, fun _ => by simpa using h2⟩

/-- The load of a byte that no command in flight may write gives memory's byte. -/
theorem hostLoad_of_unwritten {s : State} {n a : Nat} (h : ∀ e ∈ s.engines, s.mayWriteByte a e = false) :
    s.hostLoad n a = .known (Memory.read s.mem a) := by
  have hw : s.mayWriters a = [] := by
    rw [List.eq_nil_iff_forall_not_mem]
    intro k hk
    obtain ⟨e, he, hm⟩ := mem_mayWriters.1 hk
    simp [h e (List.mem_of_getElem? he)] at hm
  simp [State.hostLoad, PendingLoad.close_eq, hw, PendingLoad.value_of_unwritten]

@[simp] theorem State.length_hostLoads (s : State) (n a len : Nat) : (s.hostLoads n a len).length = len := by
  induction len generalizing a with
  | zero => rfl
  | succ len ih => rw [State.hostLoads, List.length_cons, ih]

theorem getElem?_hostLoads (s : State) (n a len j : Nat) :
    (s.hostLoads n a len)[j]? = if j < len then some (s.hostLoad n (a + j)) else none := by
  induction len generalizing a j with
  | zero => simp [State.hostLoads]
  | succ len ih =>
    cases j with
    | zero => simp [State.hostLoads]
    | succ j =>
      rw [State.hostLoads, List.getElem?_cons_succ, ih]
      simp only [Nat.add_lt_add_iff_right]
      rw [Nat.add_right_comm a 1 j, Nat.add_assoc]

/-- Every loaded byte is the load of some address. -/
theorem mem_hostLoads {s : State} {n a len : Nat} {x : LoadedByte} (h : x ∈ s.hostLoads n a len) :
    ∃ b, x = s.hostLoad n b := by
  obtain ⟨j, hj⟩ := List.mem_iff_getElem?.1 h
  rw [getElem?_hostLoads] at hj
  split at hj
  · exact ⟨_, (Option.some.inj hj).symm⟩
  · simp at hj

theorem hostLoads_of_unwritten {s : State} {n a len : Nat}
    (h : ∀ e ∈ s.engines, ∀ x, a ≤ x → x < a + len → s.mayWriteByte x e = false) :
    s.hostLoads n a len = (Memory.bytes s.mem a len).map LoadedByte.known := by
  induction len generalizing a with
  | zero => rfl
  | succ len ih =>
    rw [State.hostLoads, hostLoad_of_unwritten fun e he => h e he a (by omega) (by omega),
      ih fun e he x h1 h2 => h e he x (by omega) (by omega)]
    rfl

/-- Taking an event off the agenda changes nothing for a load. -/
theorem State.hostLoads_pop (s : State) (rest : List Event) (n a len : Nat) :
    (s.pop rest).hostLoads n a len = s.hostLoads n a len := by
  induction len generalizing a with
  | zero => rfl
  | succ len ih => rw [State.hostLoads, State.hostLoads, ih]; rfl

/-! ### The end of a command -/

/-- The byte sequences when a command in flight ends. -/
theorem get_endedLoads {e : Engine} (hb : e.busy = true) (s : State) (k name : Nat) :
    Sparse.get [] (s.endedLoads k e) name =
      (Sparse.get [] s.bufs name).map (LoadedByte.commandEnds k fun a => s.allowedBy a e) := by
  rw [State.endedLoads, if_pos hb]
  exact Sparse.get_map (f := List.map (LoadedByte.commandEnds k fun a => s.allowedBy a e)) rfl s.bufs name

theorem endedLoads_wf {s : State} (h : Sparse.wf [] s.bufs) (k : Nat) (e : Engine) : Sparse.wf [] (s.endedLoads k e) := by
  unfold State.endedLoads
  split
  · exact Sparse.map_wf (f := List.map (LoadedByte.commandEnds k fun a => s.allowedBy a e)) (fun v hv => by simpa using hv) h
  · exact h

/-- The names stay. -/
theorem endedLoads_names (s : State) (k : Nat) (e : Engine) : (s.endedLoads k e).map (·.1) = s.bufs.map (·.1) := by
  unfold State.endedLoads
  split
  · rw [List.map_map]; rfl
  · rfl

/-- The end of a command that no load waits for changes no loaded byte. -/
theorem endedLoads_of_unwaited {s : State} {k : Nat} (h : ∀ b ∈ s.bufs, ∀ p, .pending p ∈ b.2 → k ∉ p.waits) (e : Engine) :
    s.endedLoads k e = s.bufs := by
  unfold State.endedLoads
  split
  · refine (List.map_congr_left fun b hb => ?_).trans (List.map_id _)
    refine Prod.ext rfl ((List.map_congr_left fun x hx => ?_).trans (List.map_id _))
    cases x with
    | known v => rfl
    | pending p => simp [LoadedByte.commandEnds, h b hb p hx]
  · rfl

/-- Everything the end of a command can leave pending: a byte that did not wait for it, or one that waits for others too. -/
theorem commandEnds_pending {k : Nat} {al : Nat → List (List Byte)} {x : LoadedByte} {q : PendingLoad}
    (h : x.commandEnds k al = .pending q) :
    (x = .pending q ∧ k ∉ q.waits) ∨ ∃ p, x = .pending p ∧ q.waits ≠ [] ∧
      q = { p with waits := p.waits.filter fun j => j ≠ k, allowed := p.allowed ++ al p.addr } := by
  cases x with
  | known b => simp [LoadedByte.commandEnds] at h
  | pending p =>
    simp only [LoadedByte.commandEnds, PendingLoad.close_eq] at h
    split at h
    · split at h
      · simp at h
      · rename_i hw
        cases h
        exact .inr ⟨p, rfl, hw, rfl⟩
    · rename_i hk
      cases h
      exact .inl ⟨rfl, by simpa using hk⟩

/-- What a command that ends allows a load: nothing when it does not write the byte. -/
theorem allowedBy_of_planned {s : State} {e : Engine} {f : InFlight} {a : Nat} {v : Byte} (hf : e.inflight = some f)
    (hv : cellValue? (s.plannedBy e) a = some v) : s.allowedBy a e = [[f.valueBefore s.mem a, v]] := by
  simp only [State.allowedBy, hf, hv]

theorem allowedBy_of_unplanned {s : State} {e : Engine} {a : Nat} (hv : cellValue? (s.plannedBy e) a = none) :
    s.allowedBy a e = [] := by
  unfold State.allowedBy
  split
  · simp_all
  · rfl

theorem ne_nil_of_mem_allowedBy {s : State} {e : Engine} {a : Nat} {vs : List Byte} (h : vs ∈ s.allowedBy a e) : vs ≠ [] := by
  unfold State.allowedBy at h
  split at h
  · rw [List.mem_singleton.1 h]; simp
  · simp at h

/-! ### Waiting for commands in flight -/

theorem State.loadsWait_nil {s : State} (h : s.bufs = []) : s.LoadsWait := fun b hb => by simp [h] at hb

/-- Loads wait for commands in flight as long as the busy engines stay busy and no byte is loaded. -/
theorem State.LoadsWait.of_busy {s t : State} (h : s.LoadsWait) (hb : t.bufs = s.bufs)
    (he : ∀ (k : Nat) (e : Engine), s.engines[k]? = some e → e.busy = true →
      ∃ e' : Engine, t.engines[k]? = some e' ∧ e'.busy = true) :
    t.LoadsWait := fun b hm p hp => by
  obtain ⟨h1, h2, h3⟩ := h b (hb ▸ hm) p hp
  exact ⟨h1, fun k hk => (h2 k hk).elim fun e h => he k e h.1 h.2, h3⟩

/-- No load waits for an idle engine. -/
theorem State.LoadsWait.unwaited {s : State} (h : s.LoadsWait) {k : Nat} {e : Engine} (hk : s.engines[k]? = some e)
    (hb : e.busy = false) : ∀ b ∈ s.bufs, ∀ p, .pending p ∈ b.2 → k ∉ p.waits := fun b hm p hp hw => by
  obtain ⟨g, hg, hbu⟩ := (h b hm p hp).2.1 k hw
  obtain rfl := Option.some.inj (hk.symm.trans hg)
  simp [hb] at hbu

/-- And when a command ends, with the loads that waited for it. -/
theorem State.LoadsWait.endLoads {s t : State} (h : s.LoadsWait) {k : Nat} {e : Engine} (hb : e.busy = true)
    (ht : t.bufs = s.endedLoads k e)
    (he : ∀ (j : Nat) (g : Engine), j ≠ k → s.engines[j]? = some g → g.busy = true →
      ∃ g' : Engine, t.engines[j]? = some g' ∧ g'.busy = true) :
    t.LoadsWait := fun b hm q hq => by
  rw [ht, State.endedLoads, if_pos hb] at hm
  obtain ⟨c, hc, rfl⟩ := List.mem_map.1 hm
  obtain ⟨x, hx, hq⟩ := List.mem_map.1 hq
  rcases commandEnds_pending hq with ⟨rfl, hk⟩ | ⟨p, rfl, hne, rfl⟩
  · obtain ⟨h1, h2, h3⟩ := h c hc q hx
    exact ⟨h1, fun j hj => (h2 j hj).elim fun g h => he j g (fun hjk => hk (hjk ▸ hj)) h.1 h.2, h3⟩
  · obtain ⟨_, h2, h3⟩ := h c hc p hx
    refine ⟨hne, fun j hj => ?_, fun vs hvs => ?_⟩
    · obtain ⟨hj, hjk⟩ := List.mem_filter.1 hj
      exact (h2 j hj).elim fun g h => he j g (by simpa using hjk) h.1 h.2
    · exact (List.mem_append.1 hvs).elim (h3 vs) ne_nil_of_mem_allowedBy

/-- And when the host loads. -/
theorem State.LoadsWait.load {s t : State} (h : s.LoadsWait) {n a len d : Nat} (he : t.engines = s.engines)
    (hb : t.bufs = Sparse.set [] s.bufs d (s.hostLoads n a len)) : t.LoadsWait := fun b hm p hp => by
  rw [he]
  rcases Sparse.mem_set (hb ▸ hm) with rfl | hm
  · obtain ⟨x, hx⟩ := mem_hostLoads hp
    rw [State.hostLoad, PendingLoad.close_eq] at hx
    split at hx
    · simp at hx
    · rename_i hw
      cases hx
      exact ⟨hw, fun k hk => (mem_mayWriters.1 hk).elim fun e h => ⟨e, h.1, mayWriteByte_busy h.2⟩, by simp⟩
  · exact h b hm p hp

/-- With no command in flight every loaded byte is known. -/
theorem State.LoadsWait.known {s : State} (h : s.LoadsWait) (hi : ∀ e ∈ s.engines, e.busy = false) :
    ∀ b ∈ s.bufs, ∀ x ∈ b.2, ∃ v, x = LoadedByte.known v := fun b hb x hx => by
  cases x with
  | known v => exact ⟨v, rfl⟩
  | pending p =>
    obtain ⟨h1, h2, _⟩ := h b hb p hx
    obtain ⟨k, hk⟩ := List.exists_mem_of_ne_nil _ h1
    obtain ⟨e, he, hbu⟩ := h2 k hk
    simp [hi e (List.mem_of_getElem? he)] at hbu

end Sys2Proof.Machine
end

