-- ==== Sys2Proof/Laws/Invariant.lean ====
section
/-! SUPPORT. The parts of the machine's invariant over the shared operations: stores keep the memory's form, and what a
command in flight notes of a store changes neither its coherence nor whether it can raise. -/

namespace Sys2Proof.Machine

/-! ### Memory -/

/-- A store inside memory keeps the memory's form and extent (R80, R83). -/
theorem State.memOk_store {s : State} {cells : List Host.Cell} (h : s.MemOk) (hc : ∀ c ∈ cells, c.1 < s.memSize) :
    (s.store cells).MemOk :=
  ⟨Memory.writeCells_wf h.1 _, fun c hm => (Memory.mem_writeCells hm).elim (hc c) (h.2 c)⟩

theorem cellsAt_inMem {a memSize : Nat} {bytes : List Byte} (h : a + bytes.length ≤ memSize) :
    ∀ c ∈ cellsAt a bytes, c.1 < memSize := fun c hc => by have := cellsAt_addr hc; omega

/-- Every store an ending command makes lies in memory. -/
theorem settle_inMem {s : State} {i : Instr} {e : Engine} {f : InFlight} {fin : Finish}
    (h : planOf i (s.view f) e = .ok fin) : ∀ c ∈ settle s.mem f fin.writes, c.1 < s.memSize := by
  intro c hc
  have hm : c.1 ∈ (settle s.mem f fin.writes).map (·.1) := List.mem_map_of_mem hc
  rw [settle_addrs] at hm
  obtain ⟨d, hd, hdc⟩ := List.mem_map.1 hm
  rw [← hdc]
  exact ((planOf_writes h).2 d hd).2

/-- Every byte an abandoned command leaves lies in memory. -/
theorem abandoned_inMem (s : State) (n : Nat) (e : Engine) : ∀ c ∈ s.abandoned n e, c.1 < s.memSize := by
  intro c hc
  unfold State.abandoned at hc
  split at hc
  · simp at hc
  · obtain ⟨d, hd, rfl⟩ := List.mem_map.1 hc
    split <;> exact plannedBy_inMem s e d hd

theorem State.reset_memOk : State.reset.MemOk := ⟨Sparse.wf_nil, by simp [State.reset]⟩

/-! ### A command's notes of a store -/

theorem InFlight.heldAt_note (f : InFlight) (mem : Memory) (own : Bool) (cells : List Host.Cell) (a : Nat) :
    ({ f with held := f.held ++ storeNotes mem own cells } : InFlight).heldAt a =
      f.heldAt a ++ ((cells.filter fun c => c.1 == a).map fun _ => Memory.read mem a) := by
  simp only [InFlight.heldAt, storeNotes, List.filter_append, List.map_append, List.append_cancel_left_eq, List.filter_map,
    List.map_map]
  refine List.map_congr_left fun c hc => ?_
  have := (List.mem_filter.1 hc).2
  simp at this
  simp [this]

theorem InFlight.racedAt_note (f : InFlight) (mem : Memory) (own : Bool) (cells : List Host.Cell) (a : Nat) :
    ({ f with held := f.held ++ storeNotes mem own cells } : InFlight).racedAt a =
      (f.racedAt a || (!own && cells.any fun c => c.1 == a)) := by
  simp only [InFlight.racedAt, storeNotes, List.any_append, List.any_map, Function.comp_def]
  cases own <;> simp

/-- A store leaves a byte it does not name. -/
theorem Memory.read_writeCells_of_unnamed {m : Memory} (hm : Memory.wf m) {cells : List Host.Cell} {a : Nat}
    (h : (cells.any fun c => c.1 == a) = false) : Memory.read (Memory.writeCells m cells) a = Memory.read m a := by
  refine Memory.read_writeCells_of_not_mem hm _ fun c hc hca => ?_
  rw [List.any_eq_false] at h
  exact h c hc (by simp [hca])

/-- A value a byte held or holds is, after a store that the command notes, one it held or holds (R86 (a)). -/
theorem held_or_holds_note {f : InFlight} {m : Memory} (hm : Memory.wf m) {a : Nat} {v : Byte}
    (h : v = Memory.read m a ∨ v ∈ f.heldAt a) (own : Bool) (cells : List Host.Cell) :
    v = Memory.read (Memory.writeCells m cells) a
      ∨ v ∈ ({ f with held := f.held ++ storeNotes m own cells } : InFlight).heldAt a := by
  rw [InFlight.heldAt_note, List.mem_append]
  rcases h with rfl | h
  · cases hn : cells.any fun c => c.1 == a with
    | false => exact .inl (Memory.read_writeCells_of_unnamed hm hn).symm
    | true =>
      obtain ⟨c, hc, hca⟩ := List.any_eq_true.1 hn
      exact .inr (.inr (List.mem_map.2 ⟨c, List.mem_filter.2 ⟨hc, hca⟩, rfl⟩))
  · exact .inr (.inl h)

/-! ### One engine -/

/-- What the invariant says of one engine. -/
structure Engine.Ok (m : Nat) (mem : Memory) (e : Engine) : Prop where
  coherent : e.Coherent
  storing : e.StoringIsSettled m
  reads : ∀ f, e.inflight = some f → f.ReadsHeld mem
  early : ∀ f, e.inflight = some f → f.EarlyStoresStand m mem e

theorem State.Inv.ok {s : State} (h : s.Inv) : ∀ e ∈ s.engines, e.Ok s.memSize s.mem :=
  fun e he => ⟨h.coherent e he, h.storing e he, h.reads e he, h.early e he⟩

theorem State.inv_of_ok {s : State}
    (hp : Sys2Proof.WellFormed.parameters s.memSize (s.engines.map Engine.regBase) = true) (hm : s.MemOk)
    (hh : Sparse.wf 0 s.vars ∧ Sparse.wf [] s.bufs) (hl : s.LoadsWait) (h : ∀ e ∈ s.engines, e.Ok s.memSize s.mem) : s.Inv :=
  ⟨hp, hm, hh, hl, fun e he => (h e he).coherent, fun e he => (h e he).storing, fun e he => (h e he).reads,
    fun e he => (h e he).early⟩

theorem Engine.ok_of_idle {e : Engine} (h : e.inflight = none) (m : Nat) (mem : Memory) : e.Ok m mem :=
  ⟨fun f hf => by simp [h] at hf, fun f hf => by simp [h] at hf, fun f hf => by simp [h] at hf,
    fun f hf => by simp [h] at hf⟩

/-- A command just accepted has noted and read nothing. -/
theorem Engine.ok_accept (e : Engine) (w : Word) (n m : Nat) (mem : Memory) : (e.accept w n).Ok m mem := by
  refine ⟨fun f hf => ?_, fun f hf hr => ?_, fun f hf => ?_, fun f hf n hn => ?_⟩ <;>
    (simp only [Engine.accept_inflight, Option.some.injEq] at hf; subst hf)
  · simp
  · simp at hr
  · simp
  · simp at hn

/-- Registers may change, but those the command rests on. -/
theorem Engine.Ok.update {e e' : Engine} {m : Nat} {mem : Memory} (h : e.Ok m mem) (hi : e'.inflight = e.inflight)
    (hc : e'.cmd = e.cmd) (hco : e'.Coherent) : e'.Ok m mem := by
  refine ⟨hco, h.storing.of_notes hc fun f hf => ⟨f, f.held, hi ▸ hf, rfl⟩, fun f hf => h.reads f (hi ▸ hf), fun f hf n hn ho => ?_⟩
  obtain ⟨v, hw, hv⟩ := h.early f (hi ▸ hf) n hn ho
  exact ⟨v, hw.mono (.of_inflight (hi ▸ hf) hi hc), hv⟩

/-- A command that stores makes reads, the length field's among them. -/
theorem Engine.Ok.withReads {s : State} {e : Engine} {f : InFlight} {a : Nat} {v : Byte} {qs : List (ReadSite × Nat)}
    (h : e.Ok s.memSize s.mem) (hf : e.inflight = some f) (hv : cellValue? (s.plannedBy e) a = some v)
    (hq : lengthReads (s.view f) ⊆ qs) : (e.withReads s f qs).Ok s.memSize s.mem := by
  obtain ⟨g, i, fin, hg, hd, hp, _, hi⟩ := plannedBy_some hv
  obtain rfl := Option.some.inj (hf.symm.trans hg)
  refine ⟨fun g hg => ?_, fun g hg _ => ⟨i, (s.view f).lengthField, hd, hi, ?_⟩, fun g hg r hr => ?_,
    fun g hg n hn ho => ?_⟩ <;> obtain rfl := Option.some.inj hg
  · exact h.coherent f hf
  · intro mem held more w hw
    have hl : w.lengthField = (s.view f).lengthField := by
      rw [hw]; exact (s.view f).lengthField_after_makeReads hq mem s.memSize held more
    exact ⟨hl, planOf_ok_congr hp (by rw [hw]; exact ⟨rfl, rfl, rfl, rfl, rfl, rfl⟩) hl _⟩
  · rcases List.mem_append.1 hr with hr | hr
    · exact h.reads f hf r hr
    · obtain ⟨q, _, rfl⟩ := List.mem_map.1 hr
      exact View.read_mem (v := s.view f) (h.reads f hf) q.1 q.2
  · obtain ⟨v, hw, hv⟩ := h.early f hf n hn ho
    exact ⟨v, hw.mono (Engine.continues_withReads hf s qs), hv⟩

/-- A store that the command notes: another agent's, or its own of the value it will write. -/
theorem Engine.Ok.note {e : Engine} {m : Nat} {mem : Memory} (hm : Memory.wf mem) (h : e.Ok m mem) (own : Bool)
    (cells : List Host.Cell)
    (ho : own = true → ∀ c ∈ cells, e.WillWrite m c.1 (· = c.2) ∧ Memory.read (Memory.writeCells mem cells) c.1 = c.2) :
    (e.witness (storeNotes mem own cells)).Ok m (Memory.writeCells mem cells) := by
  cases hf : e.inflight with
  | none => rw [Engine.witness_of_idle hf]; exact Engine.ok_of_idle hf _ _
  | some f =>
    have hi : (e.witness (storeNotes mem own cells)).inflight
        = some { f with held := f.held ++ storeNotes mem own cells } := by simp [hf]
    refine ⟨fun g hg => ?_, h.storing.of_notes (by simp) fun g hg => ⟨f, _, hf, Option.some.inj (hg.symm.trans hi)⟩,
      fun g hg r hr => ?_, fun g hg n hn hno => ?_⟩ <;> obtain rfl := Option.some.inj (hi.symm.trans hg)
    · simpa using h.coherent f hf
    · exact held_or_holds_note hm (h.reads f hf r hr) own cells
    · rcases List.mem_append.1 hn with hn | hn
      · obtain ⟨v, hw, hv⟩ := h.early f hf n hn hno
        refine ⟨v, hw.witness _, fun hra => ?_⟩
        rw [InFlight.racedAt_note, Bool.or_eq_false_iff] at hra
        cases hc : cells.any fun c => c.1 == n.addr with
        | false => rw [Memory.read_writeCells_of_unnamed hm hc]; exact hv hra.1
        | true =>
          obtain ⟨c, hc', hca⟩ := List.any_eq_true.1 hc
          obtain ⟨h1, h2⟩ := ho (by simpa [hc] using hra.2) c hc'
          rw [beq_iff_eq.1 hca] at h1 h2
          rw [h2, h1.unique hw]
      · obtain ⟨c, hc, rfl⟩ := List.mem_map.1 hn
        obtain ⟨h1, h2⟩ := ho hno c hc
        exact ⟨c.2, h1.witness _, fun _ => h2⟩

/-- A command's registers at its end are those of an idle engine. -/
theorem Engine.endCommand_idle (e : Engine) (c : ErrorCode) : (e.endCommand c).inflight = none := rfl

end Sys2Proof.Machine
end

