-- ==== Sys2Proof/Laws/PerInstr.lean ====
section
/-! SUPPORT. What holds of every command as syntax, one lemma per constructor: its word has the one format of R110, with
RSVD = 0, and its opcode selects it and no other (R113). -/

namespace Sys2Proof.Laws.Encoding

/-- The fields of a command's word, and the command its opcode selects. -/
def Statement (i : Instr) : Prop :=
  WellFormed.instr i = true ∧ rsvdField (encode i) = 0 ∧ opcodeField (encode i) = opcodeOf i
    ∧ decodeOpcode (opcodeOf i).toNat = some i ∧ WellFormed.assignedOpcodes.count (opcodeOf i).toNat = 1

theorem nop : Statement .nop := by unfold Statement; decide
theorem crcInit : Statement .crcInit := by unfold Statement; decide
theorem crcUpdate : Statement .crcUpdate := by unfold Statement; decide
theorem checksum : Statement .checksum := by unfold Statement; decide
theorem verify : Statement .verify := by unfold Statement; decide
theorem regenerate : Statement .regenerate := by unfold Statement; decide
theorem lenDecode : Statement .lenDecode := by unfold Statement; decide
theorem tagExtract : Statement .tagExtract := by unfold Statement; decide
theorem payload : Statement .payload := by unfold Statement; decide
theorem next : Statement .next := by unfold Statement; decide
theorem frame : Statement .frame := by unfold Statement; decide
theorem append : Statement .append := by unfold Statement; decide

end Sys2Proof.Laws.Encoding
end

