-- ==== Sys2Proof/Tests/Slice0.lean ====
section
/-! SUPPORT. The model's own tests: the checks of form on ill-formed terms, every command's word read from R113, one or two
vectors of 95_test_vectors.md per command, and for every statement that has hypotheses a state that meets them together. -/

namespace Sys2Proof.Tests
open Sys2Proof.Machine

/-! ### Checks of form -/

theorem smoke_commandWord_reservedOpcode : WellFormed.commandWord 0x00000006 = false := by decide
theorem smoke_commandWord_reservedBits : WellFormed.commandWord 0x00000100 = false := by decide
theorem smoke_commandWord_valid : WellFormed.commandWord 0x00000015 = true := by decide
theorem smoke_registerAccess_width : WellFormed.registerAccess 0x04 2 = false := by decide
theorem smoke_registerAccess_misaligned : WellFormed.registerAccess 0x06 4 = false := by decide
theorem smoke_registerAccess_valid : WellFormed.registerAccess 0x04 4 = true := by decide
theorem smoke_parameters_noMemory : WellFormed.parameters 0 [0] = false := by decide
theorem smoke_parameters_tooMuchMemory : WellFormed.parameters (2 ^ 32) [0] = false := by decide
theorem smoke_parameters_unalignedBase : WellFormed.parameters 0x10000 [0x40] = false := by decide
theorem smoke_parameters_noEngine : WellFormed.parameters 0x10000 [] = false := by decide
theorem smoke_parameters_sharedBase : WellFormed.parameters 0x10000 [0x80, 0x80] = false := by decide
theorem smoke_parameters_valid : WellFormed.parameters (2 ^ 32 - 1) [0, 0x80] = true := by decide

/-! ### Decoding (the words of R113's table, written out) -/

theorem test_decode_nop : decode 0b00000000_00000000_00000000_00000000 = .ok .nop := by decide
theorem test_decode_crcInit : decode 0b00000000_00000000_00000000_00000001 = .ok .crcInit := by decide
theorem test_decode_crcUpdate : decode 0b00000000_00000000_00000000_00000010 = .ok .crcUpdate := by decide
theorem test_decode_checksum : decode 0b00000000_00000000_00000000_00000011 = .ok .checksum := by decide
theorem test_decode_verify : decode 0b00000000_00000000_00000000_00000100 = .ok .verify := by decide
theorem test_decode_regenerate : decode 0b00000000_00000000_00000000_00000101 = .ok .regenerate := by decide
theorem test_decode_lenDecode : decode 0b00000000_00000000_00000000_00010000 = .ok .lenDecode := by decide
theorem test_decode_tagExtract : decode 0b00000000_00000000_00000000_00010001 = .ok .tagExtract := by decide
theorem test_decode_payload : decode 0b00000000_00000000_00000000_00010010 = .ok .payload := by decide
theorem test_decode_next : decode 0b00000000_00000000_00000000_00010011 = .ok .next := by decide
theorem test_decode_frame : decode 0b00000000_00000000_00000000_00010100 = .ok .frame := by decide
theorem test_decode_append : decode 0b00000000_00000000_00000000_00010101 = .ok .append := by decide
/-- The words of V-H-3. -/
theorem test_decode_illegal :
    decode 0x06 = .error .reservedOpcode ∧ decode 0x0F = .error .reservedOpcode ∧ decode 0x16 = .error .reservedOpcode
      ∧ decode 0xFF = .error .reservedOpcode ∧ decode 0x00000100 = .error .reservedBitsSet
      ∧ decode 0x80000004 = .error .reservedBitsSet := by decide

/-! ### Small states -/

/-- `C_IEND` (95_test_vectors.md section 0). -/
def cIend : List Byte := [0, 0, 0, 0, 0x49, 0x45, 0x4E, 0x44, 0xAE, 0x42, 0x60, 0x82]
/-- `C_IEND` with its last 4 bytes 0 (V-CRC-28). -/
def cIendZero : List Byte := [0, 0, 0, 0, 0x49, 0x45, 0x4E, 0x44, 0, 0, 0, 0]
/-- `C_IEND` with last byte 0x83 (V-CRC-19). -/
def cIendBad : List Byte := [0, 0, 0, 0, 0x49, 0x45, 0x4E, 0x44, 0xAE, 0x42, 0x60, 0x83]
/-- `C_TEXT`. -/
def cText : List Byte :=
  [0, 0, 0, 0x0A, 0x74, 0x45, 0x58, 0x74, 0x43, 0x6F, 0x6D, 0x6D, 0x65, 0x6E, 0x74, 0, 0x68, 0x69, 0xA2, 0xA2, 0x58, 0x66]
/-- `C_IHDR`. -/
def cIhdr : List Byte :=
  [0, 0, 0, 0x0D, 0x49, 0x48, 0x44, 0x52, 0, 0, 0, 1, 0, 0, 0, 1, 8, 6, 0, 0, 0, 0x1F, 0x15, 0xC4, 0x89]
theorem test_cIhdr_length : cIhdr.length = 25 := by decide
/-- `80 00 00 01` (V-CRC-22). -/
def tooLarge : List Byte := [0x80, 0, 0, 1]

/-- An engine after reset with operands written. -/
def regs (addr len : Word) : Engine :=
  { Engine.reset 0 with addr := addr, len := len, dstAddr := 0x2000, dstAvail := 0x100 }

/-- The same with a destination window. -/
def regsTo (addr len dst avail : Word) : Engine := { regs addr len with dstAddr := dst, dstAvail := avail }

/-- The in-flight state of a command accepted with those operands. -/
def flight (e : Engine) : InFlight :=
  { addr := e.addr, len := e.len, dstAddr := e.dstAddr, dstAvail := e.dstAvail, crcAcc := e.crcAcc
    epoch := 0, held := [], reads := [] }

/-- Memory with `bytes` at 0x1000. -/
def memory (bytes : List Byte) : Memory := Memory.writeCells [] (cellsAt 0x1000 bytes)

/-- The command `i` in flight. -/
def running (i : Instr) (bytes : List Byte) (e : Engine) : State :=
  { State.reset with engines := [e.accept (encode i) 0], mem := memory bytes, draws := 1 }

/-- What the command sees. -/
def viewOf (bytes : List Byte) (e : Engine) : View := { mem := memory bytes, memSize := 0x10000, fl := flight e }

/-- The power-on state with a schedule. -/
def idle (ag : List Event) : State := { State.reset with agenda := ag }

def resultOf : Host.Outcome State Fault Refusal → Option Engine
  | .next t => t.engines[0]?
  | _ => none

def bytesOf (a n : Nat) : Host.Outcome State Fault Refusal → List Byte
  | .next t => Memory.bytes t.mem a n
  | _ => []

/-- The engine after the command has completed. -/
def after (i : Instr) (bytes : List Byte) (e : Engine) : Option Engine := resultOf (exec i (running i bytes e))

/-! ### Vectors of 95_test_vectors.md -/

/-- V-H-2. -/
theorem test_nop : (after .nop [] (regs 0xFFFFFFFF 1)).map (fun e => (e.status, e.cmd)) = some (0x002, 0) := by decide
/-- V-CRC-11. -/
theorem test_crcInit :
    (after .crcInit [] { regs 0xFFFFFFFF 1 with crcAcc := 0x340BC6D9 }).map (fun e => (e.status, e.crcAcc, e.crcResult))
      = some (0x002, 0xFFFFFFFF, 0) := by decide
set_option maxRecDepth 5000 in
/-- V-CRC-10. -/
theorem test_crcUpdate :
    (after .crcUpdate [0x31, 0x32, 0x33, 0x34] { regs 0x1000 4 with crcAcc := 0 }).map (fun e => (e.status, e.crcAcc))
      = some (0x002, 0xBAA73FBF) := by decide
set_option maxRecDepth 5000 in
/-- V-CRC-8, the second update. -/
theorem test_crcUpdate_continues :
    (after .crcUpdate [0x35, 0x36, 0x37, 0x38, 0x39] { regs 0x1000 5 with crcAcc := 0x641C1F5C }).map
      (fun e => (e.crcAcc, e.crcResult)) = some (0x340BC6D9, 0xCBF43926) := by decide
set_option maxRecDepth 5000 in
/-- V-CRC-3. -/
theorem test_checksum :
    (after .checksum [0x31, 0x32, 0x33, 0x34, 0x35, 0x36, 0x37, 0x38, 0x39] { regs 0x1000 9 with crcAcc := 7 }).map
      (fun e => (e.status, e.crcAcc, e.crcResult)) = some (0x002, 0x340BC6D9, 0xCBF43926) := by decide
/-- V-CRC-14: no wrap-around. -/
theorem test_checksum_busError :
    (after .checksum [] (regs 0xFFFFFFFF 1)).map (fun e => (e.status, e.crcAcc)) = some (0x402, 0xFFFFFFFF) := by decide
set_option maxRecDepth 5000 in
/-- V-CRC-17. -/
theorem test_verify :
    (after .verify cText (regs 0x1000 22)).map (fun e => (e.status, e.length, e.crcAcc, e.crcResult, e.storedCrc))
      = some (0x006, 0x0A, 0x5D5DA799, 0xA2A25866, 0xA2A25866) := by decide
set_option maxRecDepth 5000 in
/-- V-CRC-19, from an engine with MATCH = 1. -/
theorem test_verify_mismatch :
    (after .verify cIendBad { regs 0x1000 12 with matched := true }).map (fun e => (e.status, e.crcResult, e.storedCrc))
      = some (0x302, 0xAE426082, 0xAE426083) := by decide
set_option maxRecDepth 5000 in
/-- V-CRC-28. -/
theorem test_regenerate :
    (after .regenerate cIendZero (regs 0x1000 12)).map (fun e => (e.status, e.length, e.crcResult, e.storedCrc))
      = some (0x002, 0, 0xAE426082, 0xAE426082) := by decide
set_option maxRecDepth 5000 in
theorem test_regenerate_memory :
    bytesOf 0x1000 13 (exec .regenerate (running .regenerate cIendZero (regs 0x1000 12))) = cIend ++ [0] := by decide
/-- V-FR-2. -/
theorem test_lenDecode :
    (after .lenDecode [0xFF, 0xFF, 0xFF, 0xFF] (regs 0x1000 4)).map (fun e => (e.status, e.length))
      = some (0x002, 0xFFFFFFFF) := by decide
/-- V-FR-1. -/
theorem test_lenDecode_bigEndian :
    (after .lenDecode [0, 0, 0, 0x0D, 0x49, 0x48, 0x44, 0x52] (regs 0x1000 8)).map (fun e => (e.status, e.length))
      = some (0x002, 0x0D) := by decide
/-- V-FR-4. -/
theorem test_tagExtract :
    (after .tagExtract cText (regs 0x1000 8)).map (fun e => (e.status, e.tag, e.flags))
      = some (0x002, 0x74455874, 0x5) := by decide
/-- V-FR-5. -/
theorem test_tagExtract_truncated :
    (after .tagExtract cText (regs 0x1000 7)).map (fun e => (e.status, e.tag, e.flags)) = some (0x102, 0, 0) := by decide
set_option maxRecDepth 5000 in
/-- The stored CRC of `C_IHDR` (95_test_vectors.md section 0). -/
theorem test_verify_ihdr :
    (after .verify cIhdr (regs 0x1000 25)).map (fun e => (e.status, e.storedCrc)) = some (0x006, 0x1F15C489) := by decide
/-- V-FR-9: bytes after the record are allowed. -/
theorem test_payload :
    (after .payload cIhdr (regs 0x1000 26)).map (fun e => (e.status, e.length, e.payloadAddr, e.payloadLen))
      = some (0x002, 0x0D, 0x1008, 0x0D) := by decide
/-- V-FR-11: CHUNK_TOO_LARGE. -/
theorem test_payload_tooLarge :
    (after .payload tooLarge (regs 0x1000 8)).map (fun e => (e.status, e.length)) = some (0x202, 0) := by decide
/-- V-FR-13, the first NEXT. -/
theorem test_next :
    (after .next (cText ++ cIend) (regs 0x1000 34)).map (fun e => (e.status, e.length, e.nextAddr, e.nextAvail))
      = some (0x002, 0x0A, 0x1016, 0x0C) := by decide
/-- V-FR-15. -/
theorem test_frame :
    (after .frame (cText ++ cIend) (regs 0x1000 34)).map (fun e => [e.status, e.length, e.tag, e.flags, e.payloadAddr, e.payloadLen,
      e.nextAddr, e.nextAvail, e.storedCrc])
      = some [0x002, 0x0A, 0x74455874, 0x5, 0x1008, 0x0A, 0x1016, 0x0C, 0xA2A25866] := by decide
/-- V-FR-16's command, from reset. -/
theorem test_frame_truncated :
    (after .frame (cText ++ cIend) (regs 0x1000 21)).map (fun e => (e.status, e.tag, e.nextAddr)) = some (0x102, 0, 0) := by decide
/-- V-FR-18. -/
theorem test_append :
    (after .append cIend (regs 0x1000 12)).map (fun e => (e.status, e.length, e.dstAddr, e.dstAvail))
      = some (0x002, 0, 0x200C, 0xF4) := by decide
theorem test_append_memory :
    bytesOf 0x2000 13 (exec .append (running .append cIend (regs 0x1000 12))) = cIend ++ [0] := by decide
/-- V-FR-21: the last overlapping and the first free destination. -/
theorem test_append_overlap :
    (after .append cIend (regsTo 0x1000 12 0x100B 0x100)).map Engine.status = some 0x602
      ∧ (after .append cIend (regsTo 0x1000 12 0x100C 0x100)).map Engine.status = some 0x002 := by decide
/-- V-FR-20, V-FR-22: OUTPUT_OVERFLOW; BUS_ERROR on the window comes before TRUNCATED. -/
theorem test_append_errors :
    (after .append cIend (regsTo 0x1000 12 0x2000 11)).map (fun e => (e.status, e.dstAvail)) = some (0x502, 11)
      ∧ (after .append cIend (regsTo 0x1000 3 0xFFF8 0x10)).map Engine.status = some 0x402 := by decide
/-- V-FR-12, some of its values. -/
theorem test_flags :
    ([0x74455874, 0x61626364, 0x73424954, 0x00002000, 0x00200000, 0xDFDFDFDF].map
      fun t => Engine.flags { Engine.reset 0 with tag := t }) = [0x5, 0x7, 0x1, 0x2, 0x0, 0x0] := by decide
/-- V-H-1. -/
theorem test_reset_registers :
    State.reset.engines.map (fun e => (allRegs.map e.regValue, e.irq))
      = [([0, 0, 0, 0, 0, 0, 0, 0xFFFFFFFF, 0, 0, 0, 0, 0, 0, 0, 0, 0], false)] := by decide
/-- V-H-9's first write: a write of ADDR while busy is dropped and sets OVR. -/
theorem test_busy_write :
    resultOf (step { running .checksum [] (regs 0x1000 4) with agenda := [.host (wr 0 .addr (.lit 0x2000))] })
      = some { regs 0x1000 4 with
          cmd := 3, ovr := true, inflight := some (flight (regs 0x1000 4)) } := by decide
/-- V-H-5. -/
theorem test_status_write :
    (resultOf (step { State.reset with
      engines := [{ Engine.reset 0 with done := true, matched := true, err := .illegalCommand }]
      agenda := [.host (wr 0 .status (.lit 0xFFFFFFFF))] })).map Engine.status = some 0x704 := by decide
/-- The transactions of P1's SETUP, RUN VERIFY and reads (R121). -/
theorem test_transactions :
    (setup 0x80 (.lit 0x1000) (.lit 12) ++ run 0x80 .verify ++ [rd 0x80 .crcResult 1]).filterMap (transaction 0x80 State.reset)
      = [.write 0x0C 0x1000, .write 0x10 12, .write 0x00 4, .read 0x04, .read 0x20] := by decide

/-! ### The witnesses' states -/

theorem inFlightAt_running (i : Instr) (bytes : List Byte) (e : Engine) :
    (running i bytes e).InFlightAt (e.accept (encode i) 0) (flight e) := ⟨rfl, rfl⟩

theorem memory_wf (bytes : List Byte) : Memory.wf (memory bytes) := Memory.writeCells_wf Sparse.wf_nil _

theorem view_running (i : Instr) (bytes : List Byte) (e : Engine) :
    (running i bytes e).view (flight e) = viewOf bytes e := rfl

theorem inv_idle (ag : List Event) : (idle ag).Inv := by
  refine State.inv_of_ok ?_ State.reset_memOk ⟨Sparse.wf_nil, Sparse.wf_nil⟩ (State.loadsWait_nil rfl) fun e he =>
    Engine.ok_of_idle ?_ _ _
  · show WellFormed.parameters 0x10000 [0] = true
    decide
  · obtain rfl : e = Engine.reset 0 := by simpa [idle, State.reset, Config.regBaseAtReset] using he
    rfl

/-- The command `i` in flight, with a schedule. -/
def runningWith (i : Instr) (bytes : List Byte) (e : Engine) (ag : List Event) : State :=
  { running i bytes e with agenda := ag }

theorem inv_runningWith (i : Instr) (addr len : Word) (bytes : List Byte) (ag : List Event)
    (hb : bytes.length ≤ 0xF000) : (runningWith i bytes (regs addr len) ag).Inv := by
  refine State.inv_of_ok ?_ ⟨memory_wf bytes, fun c hc => ?_⟩ ⟨Sparse.wf_nil, Sparse.wf_nil⟩ (State.loadsWait_nil rfl)
    fun e he => ?_
  · show WellFormed.parameters 0x10000 [0] = true
    decide
  · rcases Memory.mem_writeCells hc with hc | hc
    · have := cellsAt_addr hc
      show c.1 < 0x10000
      omega
    · simp at hc
  · obtain rfl : e = (regs addr len).accept (encode i) 0 := by simpa [runningWith, running] using he
    exact Engine.ok_accept _ _ _ _ _

theorem frameOk_text : (viewOf cText (regs 0x1000 22)).FrameOk := by
  refine ⟨?_, ?_, ?_, ?_⟩ <;> (try unfold View.SliceInMem) <;> decide

theorem frameOk_iend : (viewOf cIend (regs 0x1000 12)).FrameOk := by
  refine ⟨?_, ?_, ?_, ?_⟩ <;> (try unfold View.SliceInMem) <;> decide

theorem frameOk_iendZero : (viewOf cIendZero (regs 0x1000 12)).FrameOk := by
  refine ⟨?_, ?_, ?_, ?_⟩ <;> (try unfold View.SliceInMem) <;> decide

theorem appendOk_iend : (viewOf cIend (regs 0x1000 12)).AppendOk := by
  refine ⟨frameOk_iend, ?_, ?_, ?_⟩ <;> decide

/-- The last window that holds the record and the first destination that is free (V-FR-19, V-FR-21, V-FR-23). -/
theorem appendOk_boundary : (viewOf cIend (regsTo 0x1000 12 0xFFF4 12)).AppendOk
    ∧ (viewOf cIend (regsTo 0x1000 12 0x100C 0x0C)).AppendOk := by
  refine ⟨⟨⟨?_, ?_, ?_, ?_⟩, ?_, ?_, ?_⟩, ⟨⟨?_, ?_, ?_, ?_⟩, ?_, ?_, ?_⟩⟩ <;> (try unfold View.SliceInMem) <;> decide

theorem unraced_flight (e : Engine) (a n : Nat) : (flight e).Unraced a n := fun _ _ _ => rfl

theorem undisturbed_flight (e : Engine) (a n : Nat) : (flight e).Undisturbed a n := fun _ _ _ => rfl

/-! ### A witness for the hypotheses of each statement -/

theorem witness_StepRunsTheDecodedCommand_scheduled :
    ∃ (s : State) (k : Nat) (e : Engine) (i : Instr) (rest : List Event), s.engines[k]? = some e ∧ e.busy = true
      ∧ decode e.cmd = .ok i ∧ s.agenda = .complete k :: rest :=
  ⟨runningWith .verify cIend (regs 0x1000 12) [.complete 0], 0, _, .verify, [], rfl, rfl, by decide, rfl⟩

theorem witness_StepRunsTheDecodedCommand_unscheduled :
    ∃ (s : State) (k : Nat) (e : Engine) (i : Instr), s.engines[k]? = some e ∧ e.busy = true
      ∧ decode e.cmd = .ok i ∧ s.agenda = [] ∧ firstBusy s.engines 0 = some k :=
  ⟨running .verify cIend (regs 0x1000 12), 0, _, .verify, rfl, rfl, by decide, rfl, rfl⟩

/-- The reserved opcodes at the ends of their ranges, and the lowest and the highest bit of RSVD. -/
theorem witness_IllegalWordIsAcceptedAndCompletes (w : Word) (h : w ∈ [0x06, 0x0F, 0x16, 0xFF, 0x00000100, 0x80000004]) :
    ∃ (s : State) (k : Nat) (e : Engine) (v : HostVal) (rest : List Event), s.Inv ∧ s.engines[k]? = some e
      ∧ e.busy = false ∧ s.hostValue v = w
      ∧ (rsvdField w ≠ 0 ∨ 0x06 ≤ (opcodeField w).toNat ∧ (opcodeField w).toNat ≤ 0x0F ∨ 0x16 ≤ (opcodeField w).toNat)
      ∧ s.agenda = .host (.regWrite (e.regBase + 0x00) 4 v) :: .complete k :: rest := by
  refine ⟨idle [.host (.regWrite 0 4 (.lit w)), .complete 0], 0, Engine.reset 0, .lit w, [], inv_idle _, rfl, rfl,
    rfl, ?_, rfl⟩
  simp only [List.mem_cons, List.not_mem_nil, or_false] at h
  rcases h with rfl | rfl | rfl | rfl | rfl | rfl <;> decide

theorem witness_IdleEngineTakesNoStep :
    (∃ (s : State) (k : Nat) (rest : List Event), s.agenda = .complete k :: rest
      ∧ ∀ e, s.engines[k]? = some e → e.busy = false)
    ∧ (∃ s : State, s.RunEnded) ∧ ∃ s : State, ∀ e, s.engines[s.current]? = some e → e.busy = false := by
  refine ⟨⟨idle [.complete 0], 0, [], rfl, fun e h => ?_⟩, ⟨State.reset, rfl, ?_⟩, State.reset, fun e h => ?_⟩
  · cases h; rfl
  · decide
  · cases h; rfl

theorem witness_PlacedWordRunsNext : ∃ (s : State) (e : Engine), s.engines[s.current]? = some e :=
  ⟨State.reset, _, rfl⟩

/-- Two engines, both busy. -/
theorem witness_EveryAcceptedCommandCompletes :
    (∃ (s : State) (k : Nat) (e : Engine), s.engines[k]? = some e ∧ e.busy = true ∧ s.agenda ≠ [])
    ∧ (∃ s : State, s.agenda = [] ∧ s.inFlightCount = 2)
    ∧ ∃ s : State, s.agenda = [] ∧ s.Inv ∧ s.inFlightCount = 1 :=
  ⟨⟨runningWith .verify cIend (regs 0x1000 12) [.host (.wait 4)], 0, _, rfl, rfl, by simp [runningWith]⟩,
    ⟨{ State.reset with engines :=
      [(regs 0x1000 12).accept 4 0, { Engine.reset 0x80 with addr := 0x1000 }.accept 0x00000100 1] }, rfl, by decide⟩,
    runningWith .verify cIend (regs 0x1000 12) [], rfl, inv_runningWith _ _ _ _ _ (by decide), by decide⟩

/-- The statements whose only hypothesis is a command in flight: NopResult, CrcInitResult, and the others together with
their own hypotheses below. -/
theorem witness_InFlightAt : ∃ (s : State) (e : Engine) (f : InFlight), s.InFlightAt e f :=
  ⟨_, _, _, inFlightAt_running .nop [] (regs 0 0)⟩

/-- CRC_UPDATE and CHECKSUM: the last slice that fits, and the first that does not (V-CRC-12, V-CRC-13). -/
theorem witness_CrcUpdateResult_ChecksumResult (i : Instr) :
    (∃ (s : State) (e : Engine) (f : InFlight), s = running i [] (regs 0xFFFE 2) ∧ s.InFlightAt e f
      ∧ (s.view f).addr + (s.view f).len ≤ s.memSize)
    ∧ ∃ (s : State) (e : Engine) (f : InFlight), s = running i [] (regs 0xFFFE 3) ∧ s.InFlightAt e f
      ∧ s.memSize < (s.view f).addr + (s.view f).len := by
  refine ⟨⟨_, _, _, rfl, inFlightAt_running _ _ _, ?_⟩, _, _, _, rfl, inFlightAt_running _ _ _, ?_⟩
  · show (viewOf [] (regs 0xFFFE 2)).addr + (viewOf [] (regs 0xFFFE 2)).len ≤ 0x10000
    decide
  · show 0x10000 < (viewOf [] (regs 0xFFFE 3)).addr + (viewOf [] (regs 0xFFFE 3)).len
    decide

/-- VERIFY, PAYLOAD, NEXT, FRAME and REGENERATE: a chunk that passes the frame check, exactly as long as the slice. -/
theorem witness_FramedResults (i : Instr) :
    ∃ (s : State) (e : Engine) (f : InFlight), s.InFlightAt e f ∧ Memory.wf s.mem ∧ (s.view f).FrameOk
      ∧ s.memSize ≤ 2 ^ 32 - 1
      ∧ f.Undisturbed ((s.view f).addr + 8 + (s.view f).lengthField.toNat) 4 :=
  ⟨_, _, _, inFlightAt_running i cText (regs 0x1000 22), memory_wf _, frameOk_text,
    by show 0x10000 ≤ 2 ^ 32 - 1; decide, undisturbed_flight _ _ _⟩

/-- APPEND: windows at the two boundaries, and a byte of the copy that nothing has raced. -/
theorem witness_AppendResult (e0 : Engine) (h : e0 ∈ [regsTo 0x1000 12 0xFFF4 12, regsTo 0x1000 12 0x100C 0x0C]) :
    ∃ (s : State) (e : Engine) (f : InFlight), s.InFlightAt e f ∧ Memory.wf s.mem ∧ (s.view f).AppendOk
      ∧ s.memSize ≤ 2 ^ 32 - 1 ∧ f.racedAt (f.dstAddr.toNat + 11) = false := by
  refine ⟨_, _, _, inFlightAt_running .append cIend e0, memory_wf _, ?_, by show 0x10000 ≤ 2 ^ 32 - 1; decide, rfl⟩
  simp only [List.mem_cons, List.not_mem_nil, or_false] at h
  rcases h with rfl | rfl
  · exact appendOk_boundary.1
  · exact appendOk_boundary.2

/-- CRC_INIT, then CRC_UPDATE over "1234", then over one more byte (V-CRC-8). -/
theorem witness_StreamingCrcIsTheOneShotCrc :
    ∃ (s0 s1 s2 t0 t1 : State) (e0 e1 e2 a0 a1 : Engine) (f0 f1 f2 : InFlight),
      s0.InFlightAt e0 f0 ∧ exec .crcInit s0 = .next t0 ∧ t0.engines[s0.current]? = some a0
      ∧ s1.InFlightAt e1 f1 ∧ (s1.view f1).SliceInMem ∧ f1.crcAcc = a0.crcAcc
      ∧ exec .crcUpdate s1 = .next t1 ∧ t1.engines[s1.current]? = some a1
      ∧ s2.InFlightAt e2 f2 ∧ (s2.view f2).SliceInMem ∧ f2.crcAcc = a1.crcAcc := by
  have h0 := inFlightAt_running .crcInit [] (regs 0x1000 4)
  have h1 := inFlightAt_running .crcUpdate [0x31, 0x32, 0x33, 0x34] (regs 0x1000 4)
  have hs : ((running .crcUpdate [0x31, 0x32, 0x33, 0x34] (regs 0x1000 4)).view (flight (regs 0x1000 4))).SliceInMem := by
    unfold View.SliceInMem; decide
  have hp := (planCrcUpdate_ok_iff _ ((regs 0x1000 4).accept (encode .crcUpdate) 0) _).2 ⟨hs, rfl⟩
  have hp0 := (planCrcInit_ok_iff
    ((running .crcInit [] (regs 0x1000 4)).view (flight (regs 0x1000 4))) ((regs 0x1000 4).accept (encode .crcInit) 0) _).2 rfl
  exact ⟨_, _, running .crcUpdate [0x35] { regs 0x1000 1 with crcAcc := _ }, _, _, _, _, _, _, _, _, _, _,
    h0, exec_of_plan (i := .crcInit) h0 hp0, commit_ok_engine h0 _, h1, hs, rfl,
    exec_of_plan (i := .crcUpdate) h1 hp, commit_ok_engine h1 _,
    inFlightAt_running _ _ _, (by show 0x1000 + 1 ≤ 0x10000; decide), rfl⟩

theorem witness_SingleByteChangeChangesTheCrc : ∃ b c : Byte, b ≠ c := ⟨0, 1, by decide⟩

set_option maxRecDepth 5000 in
theorem crc_iend :
    crc32 ((viewOf cIend (regs 0x1000 12)).chunkCrcInput (viewOf cIend (regs 0x1000 12)).lengthField.toNat)
      = (viewOf cIend (regs 0x1000 12)).storedCrcField (viewOf cIend (regs 0x1000 12)).lengthField.toNat := by decide

/-- `C_IEND`, and the same with its first tag byte changed (V-CRC-25). -/
theorem witness_VerifyDetectsAnySingleByteChange :
    ∃ (s1 s2 t1 : State) (e a1 : Engine) (f : InFlight) (x : Nat),
      s1.InFlightAt e f ∧ s2.InFlightAt e f ∧ s2.memSize = s1.memSize ∧ (s1.view f).FrameOk
      ∧ f.reads = [] ∧ f.Unraced (s1.view f).addr (12 + (s1.view f).lengthField.toNat)
      ∧ exec .verify s1 = .next t1 ∧ t1.engines[s1.current]? = some a1 ∧ a1.matched = true
      ∧ (s1.view f).addr + 4 ≤ x ∧ x < (s1.view f).addr + 8 + (s1.view f).lengthField.toNat
      ∧ Memory.read s2.mem x ≠ Memory.read s1.mem x ∧ ∀ y, y ≠ x → Memory.read s2.mem y = Memory.read s1.mem y := by
  have h1 := inFlightAt_running .verify cIend (regs 0x1000 12)
  obtain ⟨fin, hfin⟩ : ∃ fin, fin = _ := ⟨_, rfl⟩
  have hp := (planVerify_ok_iff _ ((regs 0x1000 12).accept (encode .verify) 0) fin).2 ⟨frameOk_iend, hfin⟩
  have hm : fin.regs.matched = true := by simpa only [hfin, decide_eq_true_eq] using crc_iend
  refine ⟨_, { running .verify cIend (regs 0x1000 12) with mem := Memory.write (memory cIend) 0x1004 0x48 }, _, _, _, _,
    0x1004, h1, ⟨rfl, rfl⟩, rfl, frameOk_iend, rfl, unraced_flight _ _ _,
    exec_of_plan (i := .verify) h1 hp, commit_ok_engine h1 _, ?_, ?_, ?_, ?_, ?_⟩
  · exact hm
  · decide
  · show 0x1004 < (viewOf cIend (regs 0x1000 12)).addr + 8 + (viewOf cIend (regs 0x1000 12)).lengthField.toNat
    decide
  · decide
  · intro y hy
    exact (Memory.read_write (memory_wf _) _ _ _).trans (if_neg hy)

theorem witness_VerifyAfterRegenerateMatches :
    ∃ (s : State) (k : Nat) (e : Engine) (f : InFlight) (rest : List Event),
      s.Inv ∧ s.engines[k]? = some e ∧ e.inflight = some f ∧ decode e.cmd = .ok .regenerate ∧ (s.view f).FrameOk
      ∧ f.Unraced (s.view f).addr (8 + (s.view f).lengthField.toNat)
      ∧ f.Undisturbed ((s.view f).addr + 8 + (s.view f).lengthField.toNat) 4
      ∧ s.agenda = .complete k :: .host (.regWrite (e.regBase + 0x00) 4 (.lit 0x00000004)) :: .complete k :: rest :=
  ⟨runningWith .regenerate cIendZero (regs 0x1000 12) [.complete 0, .host (.regWrite 0 4 (.lit 4)), .complete 0], 0, _, _,
    [], inv_runningWith _ _ _ _ _ (by decide), rfl, rfl, (by decide : decode (encode .regenerate) = .ok .regenerate),
    frameOk_iendZero, unraced_flight _ _ _, undisturbed_flight _ _ _, rfl⟩

/-- LEN_DECODE and TAG_EXTRACT: the shortest slice that holds the field, one byte less, and a slice outside memory. -/
theorem witness_LenDecodeResult_TagExtractResult (i : Instr) (n : Nat) (h : n = 4 ∨ n = 8) :
    (∃ (s : State) (e : Engine) (f : InFlight), s = running i cText (regs 0x1000 (BitVec.ofNat 32 n)) ∧ s.InFlightAt e f
      ∧ (s.view f).SliceInMem ∧ (s.view f).len = n)
    ∧ (∃ (s : State) (e : Engine) (f : InFlight), s = running i cText (regs 0x1000 (BitVec.ofNat 32 (n - 1)))
      ∧ s.InFlightAt e f ∧ (s.view f).SliceInMem ∧ (s.view f).len < n)
    ∧ ∃ (s : State) (e : Engine) (f : InFlight), s = running i cText (regs 0xFFFF (BitVec.ofNat 32 n)) ∧ s.InFlightAt e f
      ∧ ¬ (s.view f).SliceInMem := by
  refine ⟨⟨_, _, _, rfl, inFlightAt_running _ _ _, ?_, ?_⟩, ⟨_, _, _, rfl, inFlightAt_running _ _ _, ?_, ?_⟩,
    _, _, _, rfl, inFlightAt_running _ _ _, ?_⟩ <;> rw [view_running] <;> (try unfold View.SliceInMem) <;>
    rcases h with rfl | rfl <;> decide

/-- The four ways a framed command raises, each at the edge of its range: a slice one byte too long for memory; LEN = 3;
a length of 2^31 + 1; a slice one byte shorter than the record. -/
theorem witness_FramedCommandsRaiseInOrder :
    (∃ (s : State) (e : Engine) (f : InFlight), s.InFlightAt e f ∧ s.memSize < (s.view f).addr + (s.view f).len)
    ∧ (∃ (s : State) (e : Engine) (f : InFlight), s.InFlightAt e f ∧ (s.view f).SliceInMem ∧ (s.view f).len < 4)
    ∧ (∃ (s : State) (e : Engine) (f : InFlight), s.InFlightAt e f ∧ (s.view f).SliceInMem ∧ 4 ≤ (s.view f).len
        ∧ 0x80000000 < (s.view f).lengthField.toNat)
    ∧ ∃ (s : State) (e : Engine) (f : InFlight), s.InFlightAt e f ∧ (s.view f).SliceInMem ∧ 4 ≤ (s.view f).len
        ∧ (s.view f).lengthField.toNat ≤ 0x80000000 ∧ (s.view f).len < (s.view f).lengthField.toNat + 12 := by
  refine ⟨⟨_, _, _, inFlightAt_running .verify cIend (regs 0xFFF5 12), ?_⟩,
    ⟨_, _, _, inFlightAt_running .verify cIend (regs 0x1000 3), ?_, ?_⟩,
    ⟨_, _, _, inFlightAt_running .verify tooLarge (regs 0x1000 4), ?_, ?_, ?_⟩,
    _, _, _, inFlightAt_running .verify cText (regs 0x1000 21), ?_, ?_, ?_, ?_⟩ <;> (try unfold View.SliceInMem) <;> decide

/-- APPEND's seven ways to raise, each at the edge of its range. -/
theorem witness_AppendRaisesInOrder :
    (∃ (s : State) (e : Engine) (f : InFlight), s.InFlightAt e f ∧ ¬ (s.view f).SliceInMem)
    ∧ (∃ (s : State) (e : Engine) (f : InFlight), s.InFlightAt e f ∧ (s.view f).SliceInMem
        ∧ s.memSize < (s.view f).dstAddr + (s.view f).dstAvail)
    ∧ (∃ (s : State) (e : Engine) (f : InFlight), s.InFlightAt e f ∧ (s.view f).SliceInMem
        ∧ (s.view f).dstAddr + (s.view f).dstAvail ≤ s.memSize ∧ (s.view f).len < 4)
    ∧ (∃ (s : State) (e : Engine) (f : InFlight), s.InFlightAt e f ∧ (s.view f).SliceInMem
        ∧ (s.view f).dstAddr + (s.view f).dstAvail ≤ s.memSize ∧ 4 ≤ (s.view f).len
        ∧ 0x80000000 < (s.view f).lengthField.toNat)
    ∧ (∃ (s : State) (e : Engine) (f : InFlight), s.InFlightAt e f ∧ (s.view f).SliceInMem
        ∧ (s.view f).dstAddr + (s.view f).dstAvail ≤ s.memSize ∧ 4 ≤ (s.view f).len
        ∧ (s.view f).lengthField.toNat ≤ 0x80000000 ∧ (s.view f).len < (s.view f).lengthField.toNat + 12)
    ∧ (∃ (s : State) (e : Engine) (f : InFlight), s.InFlightAt e f ∧ (s.view f).FrameOk
        ∧ (s.view f).dstAddr + (s.view f).dstAvail ≤ s.memSize
        ∧ (s.view f).dstAvail < (s.view f).lengthField.toNat + 12)
    ∧ ∃ (s : State) (e : Engine) (f : InFlight), s.InFlightAt e f ∧ (s.view f).FrameOk
        ∧ (s.view f).dstAddr + (s.view f).dstAvail ≤ s.memSize
        ∧ (s.view f).lengthField.toNat + 12 ≤ (s.view f).dstAvail
        ∧ ∃ x, (s.view f).addr ≤ x ∧ x < (s.view f).addr + ((s.view f).lengthField.toNat + 12)
          ∧ (s.view f).dstAddr ≤ x ∧ x < (s.view f).dstAddr + ((s.view f).lengthField.toNat + 12) := by
  refine ⟨⟨_, _, _, inFlightAt_running .append cIend (regs 0xFFF5 12), ?_⟩,
    ⟨_, _, _, inFlightAt_running .append cIend (regsTo 0x1000 12 0xFFF1 0x10), ?_, ?_⟩,
    ⟨_, _, _, inFlightAt_running .append cIend (regs 0x1000 3), ?_, ?_, ?_⟩,
    ⟨_, _, _, inFlightAt_running .append tooLarge (regs 0x1000 4), ?_, ?_, ?_, ?_⟩,
    ⟨_, _, _, inFlightAt_running .append cText (regs 0x1000 21), ?_, ?_, ?_, ?_, ?_⟩,
    ⟨_, _, _, inFlightAt_running .append cIend (regsTo 0x1000 12 0x2000 11), ⟨?_, ?_, ?_, ?_⟩, ?_, ?_⟩,
    _, _, _, inFlightAt_running .append cIend (regsTo 0x1000 12 0x100B 12), ⟨?_, ?_, ?_, ?_⟩, ?_, ?_,
      0x100B, ?_, ?_, ?_, ?_⟩ <;>
    (try unfold View.SliceInMem) <;> decide

/-- A command that raises BUS_ERROR, and one that raises TRUNCATED. -/
theorem witness_RaisingHasNoPartialEffects :
    (∃ (s t : State) (e e' : Engine) (f : InFlight), s.InFlightAt e f ∧ exec .checksum s = .next t
      ∧ t.engines[s.current]? = some e' ∧ e'.err = .busError)
    ∧ ∃ (s t : State) (e e' : Engine) (f : InFlight), s.InFlightAt e f ∧ exec .append s = .next t
      ∧ t.engines[s.current]? = some e' ∧ e'.err = .truncated := by
  have h1 := inFlightAt_running .checksum [] (regs 0xFFFF 2)
  have h2 := inFlightAt_running .append cIend (regs 0x1000 3)
  refine ⟨⟨_, _, _, _, _, h1, exec_error h1 (c := .busError) (by decide), rfl, rfl⟩,
    _, _, _, _, _, h2, exec_error h2 (c := .truncated) (by decide), rfl, rfl⟩

/-- Frames: every command in flight answers a next state. -/
theorem witness_Frames (i : Instr) :
    ∃ (s t : State) (e : Engine) (f : InFlight), s.InFlightAt e f ∧ Memory.wf s.mem ∧ exec i s = .next t :=
  ⟨_, _, _, _, inFlightAt_running i cIend (regs 0x1000 12), memory_wf _, exec_inFlight (inFlightAt_running _ _ _)⟩

/-- A REGENERATE with nothing stored to its write set, from memories that differ there alone. -/
theorem witness_CommandsReadOnlyTheirReadSet_written :
    ∃ (s1 s2 : State) (e : Engine) (f : InFlight) (a : Nat), s1.InFlightAt e f ∧ s2.InFlightAt e f
      ∧ s1.memSize = s2.memSize ∧ Memory.wf s1.mem ∧ Memory.wf s2.mem
      ∧ (∀ x, InRanges (readSet .regenerate f.addr.toNat f.len.toNat (s1.view f).lengthField.toNat) x →
        Memory.read s1.mem x = Memory.read s2.mem x)
      ∧ InRanges (writeSet .regenerate f.addr.toNat f.dstAddr.toNat (s1.view f).lengthField.toNat) a
      ∧ f.racedAt a = false ∧ Memory.read s1.mem a ≠ Memory.read s2.mem a := by
  have hl : ((running .regenerate cIendZero (regs 0x1000 12)).view (flight (regs 0x1000 12))).lengthField = 0 := by decide
  refine ⟨_, running .regenerate cIendBad (regs 0x1000 12), _, _, 0x1008,
    inFlightAt_running .regenerate cIendZero (regs 0x1000 12), ⟨rfl, rfl⟩, rfl, memory_wf _, memory_wf _, ?_, ?_, rfl,
    by decide⟩
  · rintro x ⟨r, hr, h1, h2⟩
    rw [hl] at hr
    simp only [readSet, List.mem_singleton] at hr
    subst hr
    have h1 : 0x1000 ≤ x := h1
    have h2 : x < 0x1000 + 8 := h2
    obtain ⟨j, rfl⟩ : ∃ j, x = 0x1000 + j := ⟨x - 0x1000, by omega⟩
    have key : ∀ j < 8, Memory.read (memory cIendZero) (0x1000 + j) = Memory.read (memory cIendBad) (0x1000 + j) := by
      decide
    exact key j (by omega)
  · rw [hl]
    exact ⟨(0x1008, 4), List.mem_singleton.2 rfl, by decide, by decide⟩

/-- A byte outside the write set of a REGENERATE of `C_IEND`, the last before it. -/
theorem witness_StoringCommandsWriteOnlyTheirWriteSet :
    ¬ InRanges (writeSet .regenerate 0x1000 0x2000 0) 0x1007 := by
  rintro ⟨r, hr, h1, h2⟩
  simp only [writeSet, List.mem_singleton] at hr
  subst hr
  omega

/-- A second engine beside the one that completes. -/
theorem witness_CommandsLeaveOtherAgentsAlone :
    ∃ (s t : State) (k : Nat) (e : Engine), exec .nop s = .next t ∧ k ≠ s.current ∧ s.engines[k]? = some e :=
  ⟨{ State.reset with engines := [(regs 0 0).accept 0 0, Engine.reset 0x80] }, _, 1, _, rfl, by decide, rfl⟩

/-- Two memories that differ outside the read set of a CHECKSUM. -/
theorem witness_CommandsReadOnlyTheirReadSet :
    ∃ (s1 s2 : State) (e : Engine) (f : InFlight), s1.InFlightAt e f ∧ s2.InFlightAt e f ∧ s1.memSize = s2.memSize
      ∧ Memory.wf s1.mem ∧ Memory.wf s2.mem
      ∧ (∀ x, InRanges (readSet .checksum f.addr.toNat f.len.toNat (s1.view f).lengthField.toNat) x →
        Memory.read s1.mem x = Memory.read s2.mem x)
      ∧ s1.mem ≠ s2.mem := by
  refine ⟨_, running .checksum (cIend ++ [1]) (regs 0x1000 12), _, _, inFlightAt_running .checksum cIend (regs 0x1000 12),
    ⟨rfl, rfl⟩, rfl, memory_wf _, memory_wf _, ?_, by decide⟩
  rintro x ⟨r, hr, h1, h2⟩
  simp only [readSet, List.mem_singleton] at hr
  subst hr
  have h1 : 0x1000 ≤ x := h1
  have h2 : x < 0x1000 + 12 := h2
  obtain ⟨j, rfl⟩ : ∃ j, x = 0x1000 + j := ⟨x - 0x1000, by omega⟩
  have hj : j < 12 := by omega
  have key : ∀ j < 12, Memory.read (memory cIend) (0x1000 + j) = Memory.read (memory (cIend ++ [1])) (0x1000 + j) := by
    decide
  exact key j hj

/-- A command in flight, unraced; and raced at a byte it has read at one place and not at another. -/
theorem witness_EngineReadsAHeldValue :
    (∃ (s : State) (f : InFlight), f.ReadsHeld s.mem ∧ f.heldAt 0x1004 = [])
    ∧ ∃ (s : State) (f : InFlight), f.ReadsHeld s.mem ∧ f.heldAt 0x1004 = [7]
      ∧ madeRead? f.reads .data 0x1004 = some 7 ∧ madeRead? f.reads .tag 0x1004 = none :=
  ⟨⟨running .append cIend (regs 0x1000 12), flight (regs 0x1000 12), by simp [flight], rfl⟩,
    running .append cIend (regs 0x1000 12),
    { flight (regs 0x1000 12) with
      held := [{ addr := 0x1004, old := 7, own := false }], reads := [{ site := .data, addr := 0x1004, value := 7 }] },
    by unfold InFlight.ReadsHeld; decide, rfl, rfl, rfl⟩

theorem witness_StoresAreRecordedForCommandsInFlight :
    ∃ (s : State) (k : Nat) (e : Engine) (f : InFlight) (a : Nat) (v : Byte), Memory.wf s.mem ∧ s.engines[k]? = some e
      ∧ e.inflight = some f ∧ (v = Memory.read s.mem a ∨ v ∈ f.heldAt a) :=
  ⟨running .checksum cIend (regs 0x1000 12), 0, _, _, 0x1004, 0x49, memory_wf _, rfl, rfl, by decide⟩

/-- A REGENERATE in flight with its completion next. -/
def regenerating : State := runningWith .regenerate cIendZero (regs 0x1000 12) [.complete 0]

set_option maxRecDepth 5000 in
theorem planned_regenerating :
    cellValue? (regenerating.plannedBy ((regs 0x1000 12).accept (encode .regenerate) 0)) 0x1008 = some 0xAE := by decide

/-- The same once it has made the reads its byte 0x1008 rests on. -/
theorem witness_EarlyStoresBelongToTheCommand_kept :
    ∃ (s t : State) (k : Nat) (e : Engine), Memory.wf s.mem ∧ s.engines[k]? = some e
      ∧ e.WillWrite s.memSize 0x1008 (· = 0xAE) ∧ step s = .next t ∧ ∀ rest, s.agenda ≠ .reset k :: rest := by
  obtain ⟨f, qs, _, _, hm, hw⟩ := makeStoreReads_of_planned planned_regenerating
  generalize regenerating.makeStoreReads _ 0x1008 = e at hm hw
  have hf : e.inflight = some ((regenerating.view f).makeReads qs) := by rw [hm]
  have hc := completionStep_busy (s := (regenerating.setEngine 0 e).pop []) (k := 0) (e := e) rfl hf
  exact ⟨regenerating.setEngine 0 e, _, 0, e, memory_wf _, rfl, hw, (step_cons (ev := .complete 0) (rest := []) rfl).trans hc,
    by simp [regenerating, runningWith]⟩

def bufsOf : Host.Outcome State Fault Refusal → List (Nat × List LoadedByte)
  | .next t => t.bufs
  | _ => []

/-- A byte that a REGENERATE of `C_IEND` with LEN 0x20 may write and does not, 9 when the host loads it. -/
def openLoad : PendingLoad := { event := 1, addr := 0x1010, seen := 9, waits := [0], allowed := [] }

/-- That command in flight, and the byte loaded. -/
def loading (ag : List Event) : State :=
  { runningWith .regenerate cIendZero (regs 0x1000 0x20) ag with bufs := [(1, [.pending openLoad])] }

set_option maxRecDepth 5000 in
/-- R86 (b): the host has stored 9 there during the command, and its load waits for the command; the command not writing the
byte, the load got the 9. -/
theorem test_load_outside_write_set :
    bufsOf (step ((runningWith .regenerate cIendZero (regs 0x1000 0x20) [.host (.memRead (.lit 0x1010) (.lit 1) 1)]).store
        [(0x1010, 9)])) = [(1, [.pending openLoad])]
      ∧ bufsOf (step ((loading [.complete 0]).store [(0x1010, 9)])) = [(1, [.known 9])] := by decide

set_option maxRecDepth 5000 in
/-- R86 (b): of a byte the command writes, the host having stored 9 there, a load gets the value at the acceptance or the
command's. -/
theorem test_load_of_write_set :
    let s := regenerating.store [(0x1008, 9)]
    s.engines.map (s.allowedBy 0x1008) = [[[0x00, 0xAE]]] := by decide

theorem inv_loading (ag : List Event) : (loading ag).Inv := by
  have h := inv_runningWith .regenerate 0x1000 0x20 cIendZero ag (by decide)
  refine ⟨h.parameters, h.memory, ⟨Sparse.wf_nil, ?_⟩, ?_, h.coherent, h.storing, h.reads, h.early⟩
  · exact (by decide : Sparse.wf [] [(1, [LoadedByte.pending openLoad])])
  intro b hb p hp
  obtain rfl := List.mem_singleton.1 hb
  obtain rfl : p = openLoad := by simpa using hp
  refine ⟨by simp [openLoad], fun k hk => ?_, by simp [openLoad]⟩
  obtain rfl : k = 0 := by simpa [openLoad] using hk
  exact ⟨_, rfl, rfl⟩

/-- A load that waits for the command that completes next, and one that does not; a load whose commands have ended, without and
with a value; and a command that will not write a byte, of a load that does not wait for it. -/
theorem witness_HostLoadReturnsAnAllowedValue :
    (∃ (s t : State) (k : Nat) (e : Engine) (f : InFlight) (p : PendingLoad) (rest : List Event), s.Inv ∧ step s = .next t
      ∧ (Sparse.get [] s.bufs 1)[0]? = some (.pending p) ∧ (∀ a n rest, s.agenda ≠ .host (.memRead a n 1) :: rest)
      ∧ k ∈ p.waits ∧ s.engines[k]? = some e ∧ e.inflight = some f ∧ s.agenda = .complete k :: rest)
    ∧ (∃ (s t : State) (p : PendingLoad), s.Inv ∧ step s = .next t
      ∧ (Sparse.get [] s.bufs 1)[0]? = some (.pending p) ∧ (∀ a n rest, s.agenda ≠ .host (.memRead a n 1) :: rest)
      ∧ ∀ k ∈ p.waits, (∀ rest, s.agenda ≠ .complete k :: rest ∧ s.agenda ≠ .reset k :: rest)
          ∧ (s.agenda = [] → firstBusy s.engines 0 ≠ some k))
    ∧ (∃ p : PendingLoad, p.allowed = [])
    ∧ (∃ p : PendingLoad, p.allowed ≠ [] ∧ (∀ vs ∈ p.allowed, vs ≠ []) ∧ ∃ y, ∀ vs ∈ p.allowed, y ∈ vs)
    ∧ ∃ (s t : State) (k a : Nat) (e : Engine), Memory.wf s.mem ∧ s.engines[k]? = some e ∧ e.busy = true
      ∧ k ∉ s.mayWriters a ∧ step s = .next t ∧ (∀ rest, s.agenda ≠ .reset k :: rest) ∧ e.WillNotWrite s.memSize a := by
  have hc := completionStep_busy (s := (loading [.complete 0]).pop []) (k := 0)
    (e := (regs 0x1000 0x20).accept (encode .regenerate) 0) (f := flight (regs 0x1000 0x20)) rfl rfl
  refine ⟨⟨loading [.complete 0], _, 0, _, _, openLoad, [], inv_loading _,
      (step_cons (ev := .complete 0) (rest := []) rfl).trans hc, rfl, by simp [loading, runningWith], by simp [openLoad], rfl,
      rfl, rfl⟩,
    ⟨loading [.host (.memWrite (.lit 0x1000) [])], _, openLoad, inv_loading _, rfl, rfl, by simp [loading, runningWith], ?_⟩,
    ⟨openLoad, rfl⟩, ⟨{ openLoad with allowed := [[0, 0xAE]] }, by simp, by simp, 0, by simp⟩, ?_⟩
  · intro k _
    simp [loading, runningWith]
  · refine ⟨regenerating, _, 0, 0x1007, _, memory_wf _, rfl, rfl, by decide, (step_cons (ev := .complete 0) (rest := []) rfl).trans
      (completionStep_busy (s := regenerating.pop []) (k := 0) (e := (regs 0x1000 12).accept (encode .regenerate) 0)
        (f := flight (regs 0x1000 12)) rfl rfl), by simp [regenerating, runningWith],
      willNotWrite_of_mayWriteByte rfl (by decide)⟩

theorem witness_RacedStoreLeavesOneOfTheTwoValues :
    ∃ (s t : State) (e : Engine) (f : InFlight) (fin : Finish) (c : Host.Cell), s.InFlightAt e f ∧ Memory.wf s.mem
      ∧ planOf .append (s.view f) e = .ok fin ∧ exec .append s = .next t ∧ c ∈ fin.writes ∧ f.racedAt c.1 = false := by
  have h := inFlightAt_running .append cIend (regs 0x1000 12)
  have hp := (planAppend_ok_iff _ ((regs 0x1000 12).accept (encode .append) 0) _).2 ⟨appendOk_iend, rfl⟩
  exact ⟨_, _, _, _, _, (0x2000, 0), h, memory_wf _, hp, exec_inFlight h, by decide, rfl⟩

theorem witness_UnracedCommandsAreDetermined (i : Instr) :
    ∃ (s : State) (e : Engine) (f : InFlight), s.InFlightAt e f ∧ f.ReadsHeld s.mem
      ∧ ∀ x, InRanges (readSet i f.addr.toNat f.len.toNat (s.view f).lengthField.toNat) x → f.heldAt x = [] :=
  ⟨_, _, _, inFlightAt_running i cIend (regs 0x1000 12), by simp [flight], fun _ _ => rfl⟩

/-- The ends of the window, and the last register. -/
theorem witness_WindowsAreReachedAtTheirBase (off : Nat) (h : off ∈ [0x00, 0x40, 0x7C, 0x7F]) :
    ∃ (s : State) (k : Nat) (e : Engine), s.Inv ∧ s.engines[k]? = some e ∧ off < 0x80 := by
  refine ⟨idle [], 0, _, inv_idle _, rfl, ?_⟩
  simp only [List.mem_cons, List.not_mem_nil, or_false] at h
  omega

/-- Register accesses of an idle engine: CmdWriteWhileIdleIsAccepted, OperandWritesWhileIdleTakeEffect,
StatusAndIrqEnWrites. -/
theorem witness_WritesWhileIdle (off : Nat) (v : HostVal) :
    ∃ (s : State) (k : Nat) (e : Engine) (rest : List Event), s.Inv ∧ s.engines[k]? = some e ∧ e.busy = false
      ∧ s.agenda = .host (.regWrite (e.regBase + off) 4 v) :: rest :=
  ⟨idle [.host (.regWrite (0 + off) 4 v)], 0, _, [], inv_idle _, rfl, rfl, rfl⟩

/-- Register accesses of a busy engine: WritesWhileBusyAreDropped, StatusAndIrqEnWrites. -/
theorem witness_WritesWhileBusy (off : Nat) (v : HostVal) :
    ∃ (s : State) (k : Nat) (e : Engine) (rest : List Event), s.Inv ∧ s.engines[k]? = some e ∧ e.busy = true
      ∧ s.agenda = .host (.regWrite (e.regBase + off) 4 v) :: rest :=
  ⟨runningWith .checksum cIend (regs 0x1000 12) [.host (.regWrite (0 + off) 4 v)], 0, _, [],
    inv_runningWith _ _ _ _ _ (by decide), rfl, rfl, rfl⟩

/-- The two kinds of offset, at the ends of their ranges. -/
theorem witness_ReadOnlyAndUnmappedWritesAreIgnored (off : Nat) (h : off ∈ [0x20, 0x40, 0x44, 0x7C]) :
    ∃ (s : State) (k : Nat) (e : Engine) (rest : List Event), s.Inv ∧ s.engines[k]? = some e ∧ off % 4 = 0
      ∧ (off ∈ [0x20, 0x24, 0x2C, 0x30, 0x34, 0x38, 0x3C, 0x40] ∨ 0x44 ≤ off ∧ off ≤ 0x7C)
      ∧ s.agenda = .host (.regWrite (e.regBase + off) 4 (.lit 0xFFFFFFFF)) :: rest := by
  refine ⟨idle [.host (.regWrite (0 + off) 4 (.lit 0xFFFFFFFF))], 0, _, [], inv_idle _, rfl, ?_, ?_, rfl⟩ <;>
    simp only [List.mem_cons, List.not_mem_nil, or_false] at h <;> rcases h with rfl | rfl | rfl | rfl <;> decide

/-- A result register of an idle engine, STATUS of a busy one, and the ends of the unmapped range. -/
theorem witness_RegisterReads :
    (∃ (s : State) (k : Nat) (e : Engine) (rest : List Event), s.Inv ∧ s.engines[k]? = some e ∧ e.busy = false
      ∧ s.agenda = .host (.regRead (e.regBase + regOffset .storedCrc) 4 1) :: rest)
    ∧ (∃ (s : State) (k : Nat) (e : Engine) (rest : List Event), s.Inv ∧ s.engines[k]? = some e ∧ e.busy = true
      ∧ s.agenda = .host (.regRead (e.regBase + regOffset .status) 4 1) :: rest)
    ∧ ∀ off ∈ [0x44, 0x7C], ∃ (s : State) (k : Nat) (e : Engine) (rest : List Event), s.Inv ∧ s.engines[k]? = some e
      ∧ s.agenda = .host (.regRead (e.regBase + off) 4 1) :: rest :=
  ⟨⟨idle [.host (.regRead (0 + 0x40) 4 1)], 0, _, [], inv_idle _, rfl, rfl, rfl⟩,
    ⟨runningWith .checksum cIend (regs 0x1000 12) [.host (.regRead (0 + 0x04) 4 1)], 0, _, [],
      inv_runningWith _ _ _ _ _ (by decide), rfl, rfl, rfl⟩,
    fun off _ => ⟨idle [.host (.regRead (0 + off) 4 1)], 0, _, [], inv_idle _, rfl, rfl⟩⟩

/-- A byte access, a misaligned one, and one past the only window. -/
theorem witness_UndefinedRegisterAccessesAreRefused :
    (∃ (s : State) (op : HostOp), op = .regRead 0x04 1 0 ∧ s.agenda = [.host op])
    ∧ (∃ (s : State) (op : HostOp), op = .regRead 0x06 4 0 ∧ s.agenda = [.host op])
    ∧ ∃ (s : State) (op : HostOp), op = .regWrite 0x80 4 (.lit 0) ∧ s.agenda = [.host op]
        ∧ ∀ e ∈ s.engines, 0x80 < e.regBase ∨ e.regBase + 0x80 ≤ 0x80 :=
  ⟨⟨idle [.host (.regRead 0x04 1 0)], _, rfl, rfl⟩, ⟨idle [.host (.regRead 0x06 4 0)], _, rfl, rfl⟩,
    idle [.host (.regWrite 0x80 4 (.lit 0))], _, rfl, rfl, by decide⟩

/-- The last bytes of memory, and one byte more; for stores and for loads, by values and by host variables. -/
theorem witness_HostStores_HostLoads :
    (∃ (s : State) (v : HostVal) (a : Nat) (bytes : List Byte), Memory.wf s.mem ∧ (s.hostValue v).toNat = a
      ∧ s.agenda = [.host (.memWrite v bytes)] ∧ a + bytes.length = s.memSize ∧ bytes.length = 2)
    ∧ (∃ (s : State) (v : HostVal) (a : Nat) (bytes : List Byte), Memory.wf s.mem ∧ (s.hostValue v).toNat = a
      ∧ s.agenda = [.host (.memWrite v bytes)] ∧ a + bytes.length = s.memSize + 1)
    ∧ (∃ (s : State) (va vn : HostVal) (a n : Nat), (s.hostValue va).toNat = a ∧ (s.hostValue vn).toNat = n
      ∧ s.agenda = [.host (.memRead va vn 1)] ∧ a + n = s.memSize ∧ n = 2
      ∧ ∀ e ∈ s.engines, ∀ x, a ≤ x → x < a + n → s.mayWriteByte x e = false)
    ∧ ∃ (s : State) (va vn : HostVal) (a n : Nat), (s.hostValue va).toNat = a ∧ (s.hostValue vn).toNat = n
      ∧ s.agenda = [.host (.memRead va vn 1)] ∧ a + n = s.memSize + 1 := by
  refine ⟨⟨idle [.host (.memWrite (.lit 0xFFFE) [1, 2])], _, _, _, Sparse.wf_nil, rfl, rfl, rfl, rfl⟩,
    ⟨idle [.host (.memWrite (.lit 0xFFFF) [1, 2])], _, _, _, Sparse.wf_nil, rfl, rfl, rfl⟩,
    ⟨{ idle [.host (.memRead (.var 3) (.lit 2) 1)] with vars := [(3, 0xFFFE)] }, _, _, _, _, rfl, rfl, rfl, rfl, rfl, ?_⟩,
    idle [.host (.memRead (.lit 0xFFFF) (.lit 2) 1)], _, _, _, _, rfl, rfl, rfl, rfl⟩
  intro e he x _ _
  obtain rfl : e = Engine.reset 0 := by simpa [idle, State.reset, Config.regBaseAtReset] using he
  rfl

/-- R221: a WAIT at a base that is no engine's lets the busy engine complete (assumption 26). -/
theorem test_wait_elsewhere :
    (match step { State.reset with
        engines := [{ Engine.reset 0 with doneIe := true }, (Engine.reset 0x80).accept 4 0], agenda := [.host (.wait 4)] } with
      | .next t => t.agenda
      | _ => []) = [.complete 1, .host (.wait 4)] := by decide

theorem witness_WaitEndsWithBusyClear :
    (∃ (s : State) (k : Nat) (e : Engine) (rest : List Event), s.Inv ∧ s.engines[k]? = some e ∧ e.busy = false
      ∧ s.agenda = .host (.wait e.regBase) :: rest)
    ∧ ∃ (s : State) (k : Nat) (e : Engine) (rest : List Event), s.Inv ∧ s.engines[k]? = some e ∧ e.busy = true
      ∧ s.agenda = .host (.wait e.regBase) :: rest :=
  ⟨⟨idle [.host (.wait 0)], 0, _, [], inv_idle _, rfl, rfl, rfl⟩,
    runningWith .verify cIend (regs 0x1000 12) [.host (.wait 0)], 0, _, [], inv_runningWith _ _ _ _ _ (by decide),
    rfl, rfl, rfl⟩

set_option maxRecDepth 5000 in
/-- Reset of an idle engine, and of one with a REGENERATE in flight that would write byte 0x1008 and not 0x100C. -/
theorem witness_ResetLeavesTheStatedValues_ResetOfABusyEngine :
    (∃ (s : State) (k : Nat) (e : Engine) (rest : List Event), s.engines[k]? = some e ∧ s.agenda = .reset k :: rest
      ∧ e.busy = false)
    ∧ ∃ (s : State) (k : Nat) (e : Engine) (f : InFlight) (rest : List Event), Memory.wf s.mem ∧ s.engines[k]? = some e
      ∧ e.inflight = some f ∧ s.agenda = .reset k :: rest ∧ cellValue? (s.plannedBy e) 0x1008 = some 0xAE
      ∧ cellValue? (s.plannedBy e) 0x100C = none := by
  refine ⟨⟨idle [.reset 0], 0, _, [], rfl, rfl, rfl⟩,
    runningWith .regenerate cIendZero (regs 0x1000 12) [.reset 0], 0, _, _, [], memory_wf _, rfl, rfl, rfl, ?_, ?_⟩
  · decide
  · decide

/-- A step with a command that completes, from a state that meets the invariant: EveryStepKeepsTheInvariant,
NoStepChangesTheParameters, OnlyTheHostWritesCmdAddrAndLen. -/
theorem witness_StepInvariants :
    ∃ (s t : State) (k : Nat) (e : Engine), s.Inv ∧ step s = .next t ∧ s.engines[k]? = some e
      ∧ ∀ ev rest, s.agenda = ev :: rest → (∀ a w v, ev ≠ .host (.regWrite a w v)) ∧ ∀ j, ev ≠ .reset j := by
  refine ⟨runningWith .append cIend (regs 0x1000 12) [.complete 0], _, 0, _, inv_runningWith _ _ _ _ _ (by decide),
    (step_cons (ev := .complete 0) (rest := []) rfl).trans (completionStep_busy
      (s := (runningWith .append cIend (regs 0x1000 12) [.complete 0]).pop []) (k := 0)
      (e := (regs 0x1000 12).accept (encode .append) 0) (f := flight (regs 0x1000 12)) rfl rfl), rfl, ?_⟩
  intro ev rest h
  obtain ⟨rfl, _⟩ : .complete 0 = ev ∧ [] = rest := List.cons.inj h
  simp

theorem witness_OnlyACmdWriteBeginsACommand :
    ∃ (s t : State) (k : Nat) (e e' : Engine), step s = .next t ∧ s.engines[k]? = some e ∧ e.busy = false
      ∧ t.engines[k]? = some e' ∧ e'.busy = true := by
  refine ⟨idle [.host (.regWrite 0 4 (.lit 4))], _, 0, _, _,
    step_regWrite rfl (busTarget_of_inv (inv_idle _).parameters (k := 0) rfl (off := 0) (by decide) (by decide)),
    rfl, rfl, rfl, rfl⟩

set_option maxRecDepth 5000 in
/-- An early store that belongs to a REGENERATE, and one that does not. -/
theorem witness_EarlyStoresBelongToTheCommand :
    (∃ (s : State) (k a : Nat) (e : Engine) (rest : List Event), s.Inv ∧ s.engines[k]? = some e
      ∧ s.agenda = .storeEarly k a :: rest ∧ cellValue? (s.plannedBy e) a = some 0xAE)
    ∧ ∃ (s : State) (k a : Nat) (e : Engine) (rest : List Event), s.Inv ∧ s.engines[k]? = some e
      ∧ s.agenda = .storeEarly k a :: rest ∧ cellValue? (s.plannedBy e) a = none := by
  refine ⟨⟨runningWith .regenerate cIendZero (regs 0x1000 12) [.storeEarly 0 0x1008], 0, 0x1008, _, [],
      inv_runningWith _ _ _ _ _ (by decide), rfl, rfl, ?_⟩,
    runningWith .regenerate cIendZero (regs 0x1000 12) [.storeEarly 0 0x1007], 0, 0x1007, _, [],
    inv_runningWith _ _ _ _ _ (by decide), rfl, rfl, ?_⟩
  · decide
  · decide

end Sys2Proof.Tests
end

section
/-! The derived registers bit by bit (R47, R50–R53, R63). A register that the model composes from single bits, shifted and
joined, is read one bit at a time. -/

namespace Sys2Proof.Machine

@[simp] theorem bit_getLsbD (b : Bool) (i : Nat) : (bit b).getLsbD i = (decide (i = 0) && b) := by
  cases b <;> simp [bit]

@[simp] theorem bit_getElem (b : Bool) (i : Nat) (hi : i < 32) : (bit b)[i] = (decide (i = 0) && b) := by
  rw [← BitVec.getLsbD_eq_getElem hi, bit_getLsbD]

theorem Engine.flags_getElem_zero (e : Engine) : e.flags[0] = e.tag[29] := by
  simp [Engine.flags, tagAncillary]

theorem Engine.flags_getElem_one (e : Engine) : e.flags[1] = e.tag[13] := by
  simp [Engine.flags, tagPrivate]

theorem Engine.flags_getElem_two (e : Engine) : e.flags[2] = e.tag[5] := by
  simp [Engine.flags, tagSafeToCopy]

theorem Engine.flags_getLsbD_of_three_le (e : Engine) {i : Nat} (hi : 3 ≤ i) : e.flags.getLsbD i = false := by
  have h0 : i ≠ 0 := by omega
  have h1 : i - 1 ≠ 0 := by omega
  have h2 : i - 2 ≠ 0 := by omega
  simp [Engine.flags, h0, h1, h2]

/-- The reserved bits 31:3 of FLAGS read 0 (R50). -/
theorem Engine.flags_reserved (e : Engine) : e.flags.extractLsb' 3 29 = 0 := by
  apply BitVec.eq_of_getLsbD_eq
  intro i _
  have hi : e.flags.getLsbD (3 + i) = false := e.flags_getLsbD_of_three_le (Nat.le_add_right 3 i)
  simp [hi]

/-- Settles O47: FLAGS holds TAG's three flag bits and no other bit; CRC_RESULT and the interrupt line are computed by the
formulas of R47 and R63. -/
theorem derivedRegisters : Obligations.DerivedRegisters := by
  intro e
  exact ⟨e.flags_getElem_zero, e.flags_getElem_one, e.flags_getElem_two, e.flags_reserved, rfl, rfl⟩

end Sys2Proof.Machine
end

section
/-! The encoding (R110, R113, R118): the two fields of a command word, and decoding as the inverse of the encoder. From these
the 32-bit words that are commands, and those that are none. -/

namespace Sys2Proof

/-! ### The fields of a word -/

theorem toNat_opcodeField (w : Word) : (opcodeField w).toNat = w.toNat % 0x100 := by
  simp [opcodeField]

theorem rsvdField_eq_zero_iff (w : Word) : rsvdField w = 0 ↔ w.toNat < 0x100 := by
  have hw := w.isLt
  rw [rsvdField, ← BitVec.toNat_inj, BitVec.extractLsb'_toNat, Nat.shiftRight_eq_div_pow,
    show BitVec.toNat (0 : BitVec 24) = 0 from rfl]
  omega

/-- With RSVD = 0 the word is its OPCODE (R113). -/
theorem toNat_opcodeField_of_rsvdField {w : Word} (h : rsvdField w = 0) : (opcodeField w).toNat = w.toNat := by
  rw [toNat_opcodeField, Nat.mod_eq_of_lt ((rsvdField_eq_zero_iff w).1 h)]

/-- The laws of each command's word, for all commands. -/
theorem Laws.Encoding.statement : ∀ i, Laws.Encoding.Statement i
  | .nop => nop
  | .crcInit => crcInit
  | .crcUpdate => crcUpdate
  | .checksum => checksum
  | .verify => verify
  | .regenerate => regenerate
  | .lenDecode => lenDecode
  | .tagExtract => tagExtract
  | .payload => payload
  | .next => next
  | .frame => frame
  | .append => append

@[simp] theorem rsvdField_encode (i : Instr) : rsvdField (encode i) = 0 := by
  obtain ⟨_, h, _⟩ := Laws.Encoding.statement i
  exact h

@[simp] theorem opcodeField_encode (i : Instr) : opcodeField (encode i) = opcodeOf i := by
  obtain ⟨_, _, h, _⟩ := Laws.Encoding.statement i
  exact h

/-! ### The opcodes -/

@[simp] theorem decodeOpcode_opcodeOf (i : Instr) : decodeOpcode (opcodeOf i).toNat = some i := by
  obtain ⟨_, _, _, h, _⟩ := Laws.Encoding.statement i
  exact h

theorem opcodeOf_mem_assignedOpcodes (i : Instr) : (opcodeOf i).toNat ∈ WellFormed.assignedOpcodes := by
  obtain ⟨_, _, _, _, h⟩ := Laws.Encoding.statement i
  exact List.count_pos_iff.1 (by omega)

/-- An OPCODE that selects a command is that command's opcode. -/
theorem eq_opcodeOf_of_decodeOpcode {op : Nat} {i : Instr} (h : decodeOpcode op = some i) : op = (opcodeOf i).toNat := by
  unfold decodeOpcode at h
  split at h <;> cases h <;> rfl

/-- R113's list holds the opcodes that select a command, and no other number. -/
theorem mem_assignedOpcodes_iff {op : Nat} : op ∈ WellFormed.assignedOpcodes ↔ ∃ i, decodeOpcode op = some i := by
  constructor
  · have hsome : ∀ op ∈ WellFormed.assignedOpcodes, (decodeOpcode op).isSome = true := by decide
    exact fun h => Option.isSome_iff_exists.1 (hsome op h)
  · rintro ⟨i, h⟩
    rw [eq_opcodeOf_of_decodeOpcode h]
    exact opcodeOf_mem_assignedOpcodes i

/-- A reserved OPCODE is none of R113's list (R114). -/
theorem not_mem_assignedOpcodes_of_reserved {op : Nat} (h : 0x06 ≤ op ∧ op ≤ 0x0F ∨ 0x16 ≤ op) :
    op ∉ WellFormed.assignedOpcodes := by
  simp only [WellFormed.assignedOpcodes, List.mem_cons, List.not_mem_nil, or_false]
  omega

/-! ### The words that are commands -/

/-- R118, read as a condition on the two fields. -/
theorem decode_eq_ok_iff {w : Word} {i : Instr} :
    decode w = .ok i ↔ rsvdField w = 0 ∧ decodeOpcode (opcodeField w).toNat = some i := by
  rw [decode]
  by_cases hr : rsvdField w = 0
  · rw [if_neg (not_not.2 hr)]
    cases decodeOpcode (opcodeField w).toNat <;> simp [hr]
  · rw [if_pos hr]
    exact ⟨nofun, fun h => absurd h.1 hr⟩

/-- One word decodes to each command: the one the encoder gives. -/
theorem decode_eq_ok_iff_eq_encode {w : Word} {i : Instr} : decode w = .ok i ↔ w = encode i := by
  rw [decode_eq_ok_iff]
  constructor
  · rintro ⟨hr, ho⟩
    apply BitVec.eq_of_toNat_eq
    calc w.toNat = (opcodeField w).toNat := (toNat_opcodeField_of_rsvdField hr).symm
      _ = (opcodeField (encode i)).toNat := by rw [eq_opcodeOf_of_decodeOpcode ho, opcodeField_encode]
      _ = (encode i).toNat := toNat_opcodeField_of_rsvdField (rsvdField_encode i)
  · rintro rfl
    simp

/-- R113: validity as a condition on the two fields. -/
theorem commandWord_iff {w : Word} :
    WellFormed.commandWord w = true ↔ rsvdField w = 0 ∧ (opcodeField w).toNat ∈ WellFormed.assignedOpcodes := by
  rw [WellFormed.commandWord, List.contains_iff_mem]
  constructor
  · intro h
    have hlt : ∀ n ∈ WellFormed.assignedOpcodes, n < 0x100 := by decide
    have hr := (rsvdField_eq_zero_iff w).2 (hlt _ h)
    exact ⟨hr, (toNat_opcodeField_of_rsvdField hr).symm ▸ h⟩
  · rintro ⟨hr, ho⟩
    rwa [toNat_opcodeField_of_rsvdField hr] at ho

/-- The valid words are those that decode. -/
theorem commandWord_iff_decodes {w : Word} : WellFormed.commandWord w = true ↔ ∃ i, decode w = .ok i := by
  simp only [commandWord_iff, mem_assignedOpcodes_iff, decode_eq_ok_iff, exists_and_left]

/-- Settles O2: a word decodes to a command exactly when it is that command's word, and is valid exactly when it decodes. -/
theorem validWordsAreExactlyTheEncodedOnes : Obligations.ValidWordsAreExactlyTheEncodedOnes := by
  intro w
  refine ⟨commandWord_iff, fun row hrow => ?_, commandWord_iff_decodes, fun i => decode_eq_ok_iff_eq_encode.1⟩
  have hword : row.1 = encode row.2 := by
    revert row
    decide
  rw [hword, decode_eq_ok_iff_eq_encode]

/-- A word with a reserved OPCODE or a bit of RSVD set is no command (R114, R115). -/
theorem decode_error_of_reserved {w : Word}
    (h : rsvdField w ≠ 0 ∨ 0x06 ≤ (opcodeField w).toNat ∧ (opcodeField w).toNat ≤ 0x0F ∨ 0x16 ≤ (opcodeField w).toNat) :
    ∃ c, decode w = .error c := by
  cases hd : decode w with
  | error c => exact ⟨c, rfl⟩
  | ok i =>
    obtain ⟨hr, ho⟩ := commandWord_iff.1 (commandWord_iff_decodes.2 ⟨i, hd⟩)
    exact absurd ho (not_mem_assignedOpcodes_of_reserved (h.resolve_left (absurd hr)))

end Sys2Proof
end

section
/-! A word that is no command, from its acceptance to its end (R114, R115, R214, R238). -/

namespace Sys2Proof.Machine

/-- A write of CMD on an idle engine is an acceptance, whatever the word (R214). -/
theorem writeOffset_cmd_of_idle {e : Engine} (hb : e.busy = false) (n : Nat) (w : Word) :
    e.writeOffset n (regOffset .cmd) w = e.accept w n := by
  simp [Engine.writeOffset, Engine.writeReg, hb]

/-- Acceptance and an error end leave an idle engine as it was but for CMD, DONE and ERR (R240). -/
theorem Engine.endCommand_accept {e : Engine} (hb : e.busy = false) (w : Word) (n : Nat) (c : ErrorCode) :
    (e.accept w n).endCommand c = { e with cmd := w, done := true, err := c } := by
  have hf : e.inflight = none := by simpa [Engine.busy] using hb
  simp [Engine.endCommand, Engine.accept, hf]

/-- The acceptance of a word by an idle engine, as a step (R214). -/
theorem step_accept {s : State} {k : Nat} {e : Engine} {v : HostVal} {rest : List Event} (hs : s.Inv)
    (hk : s.engines[k]? = some e) (hb : e.busy = false)
    (ha : s.agenda = .host (.regWrite (e.regBase + regOffset .cmd) 4 v) :: rest) :
    step s = .next ((s.pop rest).setEngine k (e.accept (s.hostValue v) s.draws)) := by
  have ht := busTarget_of_inv hs.parameters hk (regOffset_lt .cmd) (regOffset_aligned .cmd)
  rw [step_regWrite ha ht, writeOffset_cmd_of_idle hb]

/-- The end of a command that no load waits for settles no loaded byte. -/
theorem State.endLoads_of_unwaited {s : State} {k : Nat} (h : ∀ b ∈ s.bufs, ∀ p, .pending p ∈ b.2 → k ∉ p.waits)
    (e : Engine) : s.endLoads k e = s := by
  rw [State.endLoads, endedLoads_of_unwaited h]

/-- The scheduled completion of a word that is no command and that no load waits for, as a step (R238). -/
theorem step_complete_illegal {s : State} {k : Nat} {e : Engine} {c : DecodeError} {rest : List Event}
    (ha : s.agenda = .complete k :: rest) (hk : s.engines[k]? = some e) (hb : e.busy = true) (hd : decode e.cmd = .error c)
    (hw : ∀ b ∈ s.bufs, ∀ p, .pending p ∈ b.2 → k ∉ p.waits) :
    step s = .next (((s.pop rest).select k).raise k e .illegalCommand) := by
  obtain ⟨f, hf⟩ := Option.isSome_iff_exists.1 hb
  have hif : ((s.pop rest).select k).InFlightAt e f := ⟨hk, hf⟩
  calc step s = completionStep k (s.pop rest) := step_cons ha
    _ = completeIllegal ((s.pop rest).select k) := by
      rw [completionStep_illegal (s := s.pop rest) hk hb hd, State.endLoads_of_unwaited (s := s.pop rest) hw]
    _ = .next (((s.pop rest).select k).raise k e .illegalCommand) := completeIllegal_inFlight hif

/-- Settles O5: the first step accepts the word, the second raises ILLEGAL_COMMAND; no loaded byte waited for the engine, which
was idle, so the end of the command settles none. -/
theorem illegalWordIsAcceptedAndCompletes : Obligations.IllegalWordIsAcceptedAndCompletes := by
  rintro s k e v w rest hs hk hb rfl hw ha
  obtain ⟨c, hd⟩ := decode_error_of_reserved hw
  have hlt : k < s.engines.length := (List.getElem?_eq_some_iff.1 hk).1
  have hk' (e' : Engine) : (s.engines.set k e')[k]? = some e' := by simp [hlt]
  refine ⟨_, _, _, step_accept hs hk hb ha, hk' _, rfl, rfl, rfl,
    step_complete_illegal rfl (hk' _) rfl hd (hs.loads.unwaited hk hb), ?_⟩
  simp [State.raise, State.setEngine, State.select, State.pop, Engine.endCommand_accept hb]

end Sys2Proof.Machine
end

section
/-! The CRC register as an algorithm: its eight repetitions a byte (R141), and `crc32` as a code that tells sequences differing
in one byte apart (R142, R144). -/

namespace Sys2Proof.Machine

theorem crcBit_eq (acc : Word) : crcBit acc = if acc[0] then (acc >>> 1) ^^^ 0xEDB88320 else acc >>> 1 := rfl

/-- The recursion over the repetitions is iteration (R141). -/
theorem crcBits_eq_iterate (n : Nat) (acc : Word) : crcBits n acc = crcBit^[n] acc := by
  induction n generalizing acc with
  | zero => rfl
  | succ n ih => exact ih (crcBit acc)

/-- The recursion over the bytes is a left fold (R141). -/
theorem crcUpdate_eq_foldl (acc : Word) (x : List Byte) : crcUpdate acc x = x.foldl crcByte acc := by
  induction x generalizing acc with
  | nil => rfl
  | cons b x ih => exact ih (crcByte acc b)

@[simp] theorem crc32_nil : crc32 [] = 0 := by decide

/-- CRC_RESULT reads the checksum of the bytes that the register has taken (R47, R142). -/
theorem Engine.crcResult_of_crcAcc {e : Engine} {x : List Byte} (h : e.crcAcc = crcUpdate 0xFFFFFFFF x) :
    e.crcResult = crc32 x := by
  rw [Engine.crcResult, h, crc32, crcInit]

/-- The checksum determines the register. -/
theorem crc32_eq_iff {x y : List Byte} : crc32 x = crc32 y ↔ crcUpdate crcInit x = crcUpdate crcInit y :=
  BitVec.xor_left_inj _

/-- Settles O11: each recursion of the model is the loop that R141 writes, over the bytes and over the repetitions. -/
theorem crcUpdateFollowsTheAlgorithm : Obligations.CrcUpdateFollowsTheAlgorithm := by
  intro acc x
  refine ⟨?_, rfl, crc32_nil⟩
  have hbyte : crcByte = fun r b => crcBit^[8] (r ^^^ b.setWidth 32) :=
    funext fun r => funext fun b => crcBits_eq_iterate 8 (r ^^^ b.setWidth 32)
  rw [crcUpdate_eq_foldl, hbyte, funext crcBit_eq]

/-- Settles O17: after the common bytes the registers are equal, one different byte makes them different, and no further
byte makes two different registers equal. -/
theorem singleByteChangeChangesTheCrc : Obligations.SingleByteChangeChangesTheCrc := by
  intro x y b c hbc hcrc
  have hreg := crc32_eq_iff.1 hcrc
  rw [crcUpdate_append, crcUpdate_append] at hreg
  exact hbc (crcByte_injective_byte (crcUpdate_injective hreg))

end Sys2Proof.Machine
end

section
/-! The results of CRC_INIT, CRC_UPDATE, CHECKSUM and VERIFY (R143, R145–R150): the engine that each leaves, read off what its
pseudocode ends with. -/

namespace Sys2Proof.Machine

/-! ### How a completion leaves the current engine -/

/-- The current engine after a command that ended without raising. -/
theorem exec_ok_engine {i : Instr} {s : State} {e : Engine} {f : InFlight} (h : s.InFlightAt e f) {fin : Finish}
    (hp : planOf i (s.view f) e = .ok fin) :
    ∃ t, exec i s = .next t ∧ t.engines[s.current]? = some (fin.regs.endCommand fin.code) :=
  ⟨_, exec_of_plan h hp, commit_ok_engine h fin⟩

/-- No other engine stands at its place. -/
theorem eq_endCommand_of_exec {i : Instr} {s t : State} {e a : Engine} {f : InFlight} (h : s.InFlightAt e f) {fin : Finish}
    (hp : planOf i (s.view f) e = .ok fin) (hx : exec i s = .next t) (ha : t.engines[s.current]? = some a) :
    a = fin.regs.endCommand fin.code := by
  obtain ⟨t', hx', ha'⟩ := exec_ok_engine h hp
  cases hx.symm.trans hx'
  exact Option.some.inj (ha.symm.trans ha')

/-- A slice not all in memory is a BUS_ERROR of every command that uses it, and nothing else (R140, R233, R240). -/
theorem exec_busError {i : Instr} (hi : usesSlice i = true) {s : State} {e : Engine} {f : InFlight} (h : s.InFlightAt e f)
    (hm : s.memSize < (s.view f).addr + (s.view f).len) :
    exec i s = .next { s with
      engines := s.engines.set s.current { e with inflight := none, done := true, err := .busError } } :=
  exec_error h (planOf_busError hi (Nat.not_le.2 hm))

/-! ### What each pseudocode ends with -/

theorem planOf_crcInit (v : View) (e : Engine) :
    planOf .crcInit v e = .ok { regs := { e with crcAcc := 0xFFFFFFFF }, writes := [], code := .ok } :=
  (planCrcInit_ok_iff v e _).2 rfl

theorem planOf_crcUpdate {v : View} (h : v.SliceInMem) (e : Engine) :
    planOf .crcUpdate v e = .ok
      { regs := { e with crcAcc := crcUpdate v.fl.crcAcc (v.bytes .data v.addr v.len) }, writes := [], code := .ok } :=
  (planCrcUpdate_ok_iff v e _).2 ⟨h, rfl⟩

theorem planOf_checksum {v : View} (h : v.SliceInMem) (e : Engine) :
    planOf .checksum v e = .ok
      { regs := { e with crcAcc := crcUpdate 0xFFFFFFFF (v.bytes .data v.addr v.len) }, writes := [], code := .ok } :=
  (planChecksum_ok_iff v e _).2 ⟨h, rfl⟩

/-! ### The results -/

/-- Settles O10: CRC_INIT has no check that could raise, and all ones inverted are 0. -/
theorem crcInitResult : Obligations.CrcInitResult := by
  intro s e f h
  exact ⟨exec_ok h (planOf_crcInit (s.view f) e) rfl, Engine.crcResult_of_crcAcc (x := []) rfl, rfl⟩

/-- Settles O12, by the two outcomes of the slice's check. -/
theorem crcUpdateResult : Obligations.CrcUpdateResult := by
  intro s e f h
  refine ⟨fun (hm : (s.view f).SliceInMem) => ?_, exec_busError rfl h, rfl⟩
  exact exec_ok h (planOf_crcUpdate hm e) rfl

/-- Settles O13, by the two outcomes of the slice's check. -/
theorem checksumResult : Obligations.ChecksumResult := by
  intro s e f h
  refine ⟨fun (hm : (s.view f).SliceInMem) => ?_, exec_busError rfl h, rfl⟩
  exact ⟨_, exec_ok h (planOf_checksum hm e) rfl, rfl, Engine.crcResult_of_crcAcc rfl⟩

/-- Settles O14: the CRC that VERIFY compares with the stored one is what CRC_RESULT reads afterwards. -/
theorem verifyResult : Obligations.VerifyResult := by
  intro s e f h hframe
  exact ⟨_, exec_ok h ((planVerify_ok_iff (s.view f) e _).2 ⟨hframe, rfl⟩) rfl, rfl⟩

/-- Settles O16: each command continues the register that the one before left, and the incremental law joins the two
updates. -/
theorem streamingCrcIsTheOneShotCrc : Obligations.StreamingCrcIsTheOneShotCrc := by
  refine ⟨fun acc x y => (crcUpdate_append acc x y).symm, ?_⟩
  intro s0 s1 s2 t0 t1 e0 e1 e2 a0 a1 f0 f1 f2 h0 hx0 ha0 h1 hm1 hlink1 hx1 ha1 h2 hm2 hlink2
  have hinit : f1.crcAcc = 0xFFFFFFFF := by
    rw [hlink1, eq_endCommand_of_exec h0 (planOf_crcInit _ e0) hx0 ha0]
    rfl
  have hfirst : f2.crcAcc = crcUpdate 0xFFFFFFFF ((s1.view f1).bytes .data (s1.view f1).addr (s1.view f1).len) := by
    rw [hlink2, eq_endCommand_of_exec h1 (planOf_crcUpdate hm1 e1) hx1 ha1, ← hinit]
    rfl
  obtain ⟨t2, hx2, ha2⟩ := exec_ok_engine h2 (planOf_crcUpdate hm2 e2)
  refine ⟨t2, _, hx2, ha2, ?acc, Engine.crcResult_of_crcAcc ?acc⟩
  rw [crcUpdate_append, ← hfirst]
  rfl

end Sys2Proof.Machine
end

section
/-! The results of LEN_DECODE and TAG_EXTRACT (R173, R174): a fixed field of the chunk, read after the tests for BUS_ERROR and
TRUNCATED, with no frame check. -/

namespace Sys2Proof.Machine

/-! ### What each pseudocode comes to -/

theorem planOf_lenDecode {v : View} (hm : v.SliceInMem) (hn : 4 ≤ v.len) (e : Engine) :
    planOf .lenDecode v e = .ok { regs := { e with length := v.lengthField }, writes := [], code := .ok } :=
  (planLenDecode_ok_iff v e _).2 ⟨hm, hn, rfl⟩

theorem planOf_tagExtract {v : View} (hm : v.SliceInMem) (hn : 8 ≤ v.len) (e : Engine) :
    planOf .tagExtract v e = .ok { regs := { e with tag := v.read32 .tag (v.addr + 4) }, writes := [], code := .ok } :=
  (planTagExtract_ok_iff v e _).2 ⟨hm, hn, rfl⟩

/-- A slice in memory, but too short for the field, is TRUNCATED, whatever would have followed (R232). -/
theorem checks_truncated {β : Type} {v : View} {n : Nat} (hm : v.SliceInMem) (hn : v.len < n) (r : Except ErrorCode β) :
    (do srcCheck v; lenAtLeast n v; r) = .error .truncated := by
  rw [(srcCheck_ok_iff v ()).2 hm, ok_bind, (lenAtLeast_error_iff n v _).2 ⟨hn, rfl⟩, error_bind]

theorem planOf_lenDecode_truncated {v : View} (hm : v.SliceInMem) (hn : v.len < 4) (e : Engine) :
    planOf .lenDecode v e = .error .truncated :=
  checks_truncated hm hn _

theorem planOf_tagExtract_truncated {v : View} (hm : v.SliceInMem) (hn : v.len < 8) (e : Engine) :
    planOf .tagExtract v e = .error .truncated :=
  checks_truncated hm hn _

/-! ### The flag bits of a tag's bytes (R51–R53, R180) -/

theorem Engine.flags_of_tag_eq {e : Engine} {b0 b1 b2 b3 : Byte} (h : e.tag = be32 b0 b1 b2 b3) :
    e.flags[0] = b0[5] ∧ e.flags[1] = b2[5] ∧ e.flags[2] = b3[5] := by
  rw [e.flags_getElem_zero, e.flags_getElem_one, e.flags_getElem_two, h]
  simp only [← BitVec.getLsbD_eq_getElem, be32_getLsbD]
  exact ⟨rfl, rfl, rfl⟩

/-! ### The results -/

/-- Settles O20, by the outcomes of the two tests; the field's value is that of its four bytes, the first the highest. -/
theorem lenDecodeResult : Obligations.LenDecodeResult := by
  intro s e f h
  refine ⟨fun hm hn => ?ok, be32_toNat _ _ _ _, fun hm hn => ?truncated, fun hm => ?busError, rfl⟩
  case ok => exact exec_ok h (planOf_lenDecode hm hn e) rfl
  case truncated => exact exec_error h (planOf_lenDecode_truncated hm hn e)
  case busError => exact exec_error h (planOf_busError rfl hm)

/-- Settles O21, by the outcomes of the two tests; a flag is bit 5 of tag byte 0, 2 or 3, which TAG holds in bits 31:24, 15:8
and 7:0. -/
theorem tagExtractResult : Obligations.TagExtractResult := by
  intro s e f h
  refine ⟨fun hm hn => ?ok, fun hm hn => ?truncated, fun hm => ?busError, rfl⟩
  case ok => exact ⟨_, exec_ok h (planOf_tagExtract hm hn e) rfl, rfl, Engine.flags_of_tag_eq rfl⟩
  case truncated => exact exec_error h (planOf_tagExtract_truncated hm hn e)
  case busError => exact exec_error h (planOf_busError rfl hm)

end Sys2Proof.Machine
end

section
/-! The result of NOP (R219). -/

namespace Sys2Proof.Machine

theorem planOf_nop (v : View) (e : Engine) : planOf .nop v e = .ok { regs := e, writes := [], code := .ok } :=
  (planNop_ok_iff v e _).2 rfl

/-- Settles O9: NOP has no check that could raise, and ends with the registers as they are. -/
theorem nopResult : Obligations.NopResult := by
  intro s e f h
  exact ⟨exec_ok h (planOf_nop (s.view f) e) rfl, rfl⟩

end Sys2Proof.Machine
end

section
/-! Register writes (R211–R218): what a write of each kind of register leaves of the engine, and the step with it. -/

namespace Sys2Proof.Machine

/-! ### The registers of the map, by what a write does -/

@[simp] theorem Engine.writeOffset_regOffset (e : Engine) (n : Nat) (r : Reg) (v : Word) :
    e.writeOffset n (regOffset r) v = e.writeReg n v r := by
  simp [Engine.writeOffset]

/-- The engine with one operand register set, the one named; unchanged when the name is no operand's (R213). -/
def Engine.setOperand (e : Engine) (r : Reg) (v : Word) : Engine :=
  { e with
    addr := if r = .addr then v else e.addr
    len := if r = .len then v else e.len
    dstAddr := if r = .dstAddr then v else e.dstAddr
    dstAvail := if r = .dstAvail then v else e.dstAvail
    crcAcc := if r = .crcAcc then v else e.crcAcc
    tag := if r = .tag then v else e.tag }

/-- The register that a register's value is computed from (R47, R50). -/
def sourceReg : Reg → Reg
  | .flags => .tag
  | .crcResult => .crcAcc
  | r => r

section
variable {r : Reg} (hr : r ∈ [.addr, .len, .dstAddr, .dstAvail, .crcAcc, .tag])
include hr

theorem Engine.writeReg_operand (e : Engine) (n : Nat) (v : Word) :
    e.writeReg n v r = e.writeOperand (e.setOperand r v) := by
  simp only [List.mem_cons, List.not_mem_nil, or_false] at hr
  rcases hr with rfl | rfl | rfl | rfl | rfl | rfl <;> rfl

/-- All 32 bits are set (R213). -/
theorem Engine.regValue_setOperand_self (e : Engine) (v : Word) : (e.setOperand r v).regValue r = v := by
  simp only [List.mem_cons, List.not_mem_nil, or_false] at hr
  rcases hr with rfl | rfl | rfl | rfl | rfl | rfl <;> rfl

end

theorem Engine.regValue_setOperand_of_ne {r q : Reg} (h : sourceReg q ≠ r) (e : Engine) (v : Word) :
    (e.setOperand r v).regValue q = e.regValue q := by
  have hne := h.symm
  cases q
  case addr | len | dstAddr | dstAvail | crcAcc | tag => exact if_neg hne
  case flags => exact congrArg (fun t => Engine.flags { e with tag := t }) (if_neg hne)
  case crcResult => exact congrArg (· ^^^ 0xFFFFFFFF) (if_neg hne)
  all_goals rfl

/-- A write of an operand register to an idle engine takes effect (R213). -/
theorem Engine.writeReg_operand_of_idle {e : Engine} (hb : e.busy = false) {r : Reg}
    (hr : r ∈ [.addr, .len, .dstAddr, .dstAvail, .crcAcc, .tag]) (n : Nat) (v : Word) :
    e.writeReg n v r = e.setOperand r v := by
  rw [Engine.writeReg_operand hr, Engine.writeOperand, hb]
  rfl

/-- A write of CMD or of an operand to a busy engine is dropped (R215, R216). -/
theorem Engine.writeReg_of_busy {e : Engine} (hb : e.busy = true) {r : Reg}
    (hr : r ∈ [.cmd, .addr, .len, .dstAddr, .dstAvail, .crcAcc, .tag]) (n : Nat) (v : Word) :
    e.writeReg n v r = { e with ovr := true } := by
  rcases List.mem_cons.1 hr with rfl | hr
  · exact if_pos hb
  · exact (Engine.writeReg_operand hr e n v).trans (if_pos hb)

theorem Engine.writeReg_status (e : Engine) (n : Nat) (v : Word) :
    e.writeReg n v .status =
      { e with done := if v[1] then false else e.done, ovr := if v[3] then false else e.ovr } := by
  have clear_eq (b c : Bool) : (b && !c) = if c then false else b := by cases c <;> simp
  simp only [Engine.writeReg, clear_eq, ← BitVec.getLsbD_eq_getElem]

/-- R212: the read-only registers, by their offsets. -/
theorem Engine.writeOffset_readOnly {off : Nat} (h : off ∈ [0x20, 0x24, 0x2C, 0x30, 0x34, 0x38, 0x3C, 0x40])
    (e : Engine) (n : Nat) (v : Word) : e.writeOffset n off v = e := by
  simp only [List.mem_cons, List.not_mem_nil, or_false] at h
  rcases h with rfl | rfl | rfl | rfl | rfl | rfl | rfl | rfl <;> rfl

/-- R59: the unmapped offsets. -/
theorem Engine.writeOffset_unmapped {off : Nat} (h : 0x44 ≤ off) (e : Engine) (n : Nat) (v : Word) :
    e.writeOffset n off v = e := by
  simp [Engine.writeOffset, regAt_unmapped h]

/-! ### A register write, as a step -/

section
variable {s : State} {k : Nat} {e : Engine} {v : HostVal} {rest : List Event} (hs : s.Inv) (hk : s.engines[k]? = some e)
include hs hk

/-- A write at an offset of an engine's window changes that engine alone (R210, R251). -/
theorem step_writeOffset {off : Nat} (ho : off < 0x80) (h4 : off % 4 = 0)
    (ha : s.agenda = .host (.regWrite (e.regBase + off) 4 v) :: rest) :
    step s = .next { s with
      engines := s.engines.set k (e.writeOffset s.draws off (s.hostValue v)), agenda := rest, draws := s.draws + 1 } :=
  step_regWrite ha (busTarget_of_inv hs.parameters hk ho h4)

/-- The same, for a register and with what the write leaves of the engine known. -/
theorem step_writeReg {r : Reg} (ha : s.agenda = .host (.regWrite (e.regBase + regOffset r) 4 v) :: rest) {e' : Engine}
    (hw : e.writeReg s.draws (s.hostValue v) r = e') :
    step s = .next { s with engines := s.engines.set k e', agenda := rest, draws := s.draws + 1 } := by
  rw [step_writeOffset hs hk (regOffset_lt r) (regOffset_aligned r) ha, Engine.writeOffset_regOffset, hw]

end

/-! ### The statements -/

/-- Settles O41: each of the seven registers gives the write the same answer while BUSY is 1, to set OVR. -/
theorem writesWhileBusyAreDropped : Obligations.WritesWhileBusyAreDropped := by
  intro s k e r v rest hs hk hb hr ha
  exact step_writeReg hs hk ha (Engine.writeReg_of_busy hb hr _ _)

/-- Settles O42: the operand is set, and a register whose value is not computed from it reads as before. -/
theorem operandWritesWhileIdleTakeEffect : Obligations.OperandWritesWhileIdleTakeEffect := by
  intro s k e r v rest hs hk hb hr ha
  have hidle : e.inflight = none := by simpa [Engine.busy] using hb
  refine ⟨e.setOperand r (s.hostValue v), step_writeReg hs hk ha (Engine.writeReg_operand_of_idle hb hr _ _),
    Engine.regValue_setOperand_self hr e _, hidle, ?flags, ?crcResult, ?frame⟩
  case flags => rintro rfl; rfl
  case crcResult => rintro rfl; rfl
  case frame =>
    intro q hq hflags hcrc
    have hsource : sourceReg q ≠ r := by
      cases q
      case flags => exact fun h => hflags h.symm rfl
      case crcResult => exact fun h => hcrc h.symm rfl
      all_goals exact hq
    exact Engine.regValue_setOperand_of_ne hsource e _

/-- Settles O43: neither write looks at BUSY; a cleared DONE holds the line low, whatever DONE_IE is. -/
theorem statusAndIrqEnWrites : Obligations.StatusAndIrqEnWrites := by
  intro s k e v rest hs hk
  refine ⟨fun ha => ?status, fun hdone => ?irq, fun ha => ?irqEn⟩
  case status => exact step_writeReg (r := .status) hs hk ha (Engine.writeReg_status e _ _)
  case irq => simp [Engine.irq, hdone]
  case irqEn => exact step_writeReg (r := .irqEn) hs hk ha rfl

/-- Settles O44: for both kinds of offset the write leaves the engine of the window as it was, and so the list of engines. -/
theorem readOnlyAndUnmappedWritesAreIgnored : Obligations.ReadOnlyAndUnmappedWritesAreIgnored := by
  intro s k e off v rest hs hk h4 hoff ha
  have hsame : e.writeOffset s.draws off (s.hostValue v) = e :=
    hoff.elim (fun h => Engine.writeOffset_readOnly h e _ _) (fun h => Engine.writeOffset_unmapped h.1 e _ _)
  have hlt : off < 0x80 := by
    simp only [List.mem_cons, List.not_mem_nil, or_false] at hoff
    omega
  obtain ⟨hk', rfl⟩ := List.getElem?_eq_some_iff.1 hk
  rw [step_writeOffset hs hk hlt h4 ha, hsame, List.set_getElem_self]

end Sys2Proof.Machine
end

section
/-! What raising leaves unchanged (R240): the error code that the ended engine shows tells an outcome from a raise. -/

namespace Sys2Proof.Machine

/-- The engine of a command that raised differs in BUSY, DONE and ERR alone. -/
theorem eq_endCommand_of_exec_error {i : Instr} {s t : State} {e a : Engine} {f : InFlight} (h : s.InFlightAt e f)
    {c : ErrorCode} (hp : planOf i (s.view f) e = .error c) (hx : exec i s = .next t)
    (ha : t.engines[s.current]? = some a) : a = e.endCommand c := by
  cases hx.symm.trans (exec_of_plan h hp)
  exact Option.some.inj (ha.symm.trans (commit_error_engine h c))

/-- Settles O28: pseudocode that ends without raising shows a code other than OK for VERIFY's mismatch alone, and one that
raises never shows that code. -/
theorem raisingHasNoPartialEffects : Obligations.RaisingHasNoPartialEffects := by
  refine ⟨fun i s t e e' f h hx he' herr => ?_, fun s e f h => completeIllegal_inFlight h⟩
  cases hp : planOf i (s.view f) e with
  | ok fin =>
    obtain rfl := eq_endCommand_of_exec h hp hx he'
    exact .inl (planOf_code hp herr)
  | error c =>
    obtain rfl := eq_endCommand_of_exec_error h hp hx he'
    obtain ⟨_, hmismatch, _⟩ := planOf_error_code hp
    cases hx.symm.trans (exec_error h hp)
    exact .inr ⟨hmismatch, rfl⟩

end Sys2Proof.Machine
end

section
/-! Reset (R270, R272): the register values of an engine after reset, and what a reset step leaves. -/

namespace Sys2Proof.Machine

/-- R270's values: all registers read 0 but CRC_ACC. STATUS, CRC_RESULT (the complement of CRC_ACC) and FLAGS are no fields of
their own; they are computed from fields that hold the same values whatever the base, so base 0 decides them. -/
theorem Engine.regValue_reset (base : Nat) {r : Reg} (h : r ≠ .crcAcc) : (Engine.reset base).regValue r = 0 := by
  cases r
  case crcAcc => exact absurd rfl h
  case status => change (Engine.reset 0).status = 0; decide
  case crcResult => change (Engine.reset 0).crcResult = 0; decide
  case flags => change (Engine.reset 0).flags = 0; decide
  all_goals rfl

@[simp] theorem Engine.witness_reset (base : Nat) (notes : List StoreNote) :
    (Engine.reset base).witness notes = Engine.reset base := Engine.witness_of_idle rfl notes

/-- An idle engine has no command to abandon. -/
theorem State.abandoned_of_idle {e : Engine} (h : e.busy = false) (s : State) (n : Nat) : s.abandoned n e = [] := by
  have hf : e.inflight = none := by simpa [Engine.busy] using h
  simp [State.abandoned, hf]

theorem State.resetEngine_of_getElem? {s : State} {k : Nat} {e : Engine} (hk : s.engines[k]? = some e) (n : Nat) :
    s.resetEngine n k = ((s.endLoads k e).setEngine k (Engine.reset e.regBase)).store (s.abandoned n e) := by
  simp [State.resetEngine, hk]

/-- The engine whose reset input is asserted, whatever it was doing: the stores of the command it abandons leave no note in
it. -/
theorem State.resetEngine_engine {s : State} {k : Nat} {e : Engine} (hk : s.engines[k]? = some e) (n : Nat) :
    (s.resetEngine n k).engines[k]? = some (Engine.reset e.regBase) := by
  have hlt : k < s.engines.length := (List.getElem?_eq_some_iff.1 hk).1
  rw [State.resetEngine_of_getElem? hk, getElem?_setEngine_store]
  simp [hlt]

/-- R272: the reset of an idle engine stores nothing and settles no load. -/
theorem State.resetEngine_of_idle {s : State} {k : Nat} {e : Engine} (hk : s.engines[k]? = some e) (hb : e.busy = false)
    (n : Nat) : s.resetEngine n k = s.setEngine k (Engine.reset e.regBase) := by
  rw [State.resetEngine_of_getElem? hk, State.endLoads_of_idle hb, State.abandoned_of_idle hb, store_nil]

/-- A reset, as a step. -/
theorem step_reset {s : State} {k : Nat} {rest : List Event} (h : s.agenda = .reset k :: rest) :
    step s = .next ((s.pop rest).resetEngine s.draws k) := step_cons h

/-- Settles O52: the engine after the step is the power-on engine at its own base, busy or idle; an idle engine's reset
replaces that engine and nothing else. -/
theorem resetLeavesTheStatedValues : Obligations.ResetLeavesTheStatedValues := by
  intro s k e rest hk ha
  have hk' : (s.pop rest).engines[k]? = some e := hk
  refine ⟨(s.pop rest).resetEngine s.draws k, Engine.reset e.regBase, Engine.reset Config.regBaseAtReset, step_reset ha,
    State.resetEngine_engine hk' s.draws, fun r hr => Engine.regValue_reset _ hr, rfl, rfl, rfl, rfl, rfl, rfl, rfl, rfl,
    rfl, rfl, fun hb => ?idle, rfl, rfl⟩
  case idle => exact State.resetEngine_of_idle hk' hb s.draws

end Sys2Proof.Machine
end

section
/-! The invariant across a step (R5, R221): what each change of `Change` does to the parameters, the memory, the host's data and
each engine, so that every step keeps the whole. -/

namespace Sys2Proof.Machine

/-! ### The parameters -/

theorem Change.regBase {s t : State} {ev : Option Event} (h : Change ev s t) :
    t.engines.map Engine.regBase = s.engines.map Engine.regBase := by
  cases h with
  | complete k e f _ hk _ =>
    refine commit_regBase (s := (s.endLoads k e).select k) hk fun fin hp => ?_
    obtain ⟨_, _, hp⟩ := outcomeOf_ok_iff.1 hp
    exact (planOf_keeps hp).1
  | regWrite a width hv k e n off _ ht => exact map_set_regBase (busTarget_ok ht).2.2.1 (writeOffset_regBase e n off _)
  | hostStore => exact map_witness_regBase _ _
  | storeEarly k a =>
    rcases storeEarly_cases s k a with ⟨h, _⟩ | ⟨e, f, qs, v, hk, _, _, _, _, h⟩
    · rw [h]
    · rw [h, ← map_witness_regBase (storeNotes s.mem false [(a, v)]) s.engines]
      exact map_set_regBase (e := e.witness (storeNotes s.mem false [(a, v)])) (by simp [hk]) (by simp)
  | reset n k =>
    unfold State.resetEngine
    split
    · rfl
    · rename_i e hk
      rw [State.store_engines, map_witness_regBase]
      exact map_set_regBase hk rfl
  | none | hostVar | hostBuf => rfl

/-- Settles O57, by the changes that a step can make. -/
theorem noStepChangesTheParameters : Obligations.NoStepChangesTheParameters := by
  intro s t h
  rcases step_change h with ⟨_, hc⟩ | ⟨ev, rest, _, hc⟩ <;> exact ⟨hc.memSize, hc.regBase⟩

/-! ### The invariant under the shared operations -/

theorem State.Inv.pop {s : State} (h : s.Inv) (rest : List Event) : (s.pop rest).Inv :=
  ⟨h.parameters, h.memory, h.hostData, h.loads, h.coherent, h.storing, h.reads, h.early⟩

theorem State.Inv.select {s : State} (h : s.Inv) (k : Nat) : (s.select k).Inv :=
  ⟨h.parameters, h.memory, h.hostData, h.loads, h.coherent, h.storing, h.reads, h.early⟩

/-- An engine in legal form takes the place of another with the same base. -/
theorem State.Inv.setEngine {s : State} (h : s.Inv) {k : Nat} {e e' : Engine} (hk : s.engines[k]? = some e)
    (hbase : e'.regBase = e.regBase) (hok : e'.Ok s.memSize s.mem) (hl : (s.setEngine k e').LoadsWait) :
    (s.setEngine k e').Inv := by
  refine State.inv_of_ok ?_ h.memory h.hostData hl fun x hx => ?_
  · rw [State.setEngine_engines, map_set_regBase hk hbase]
    exact h.parameters
  · rcases List.mem_or_eq_of_mem_set hx with hx | rfl
    · exact h.ok x hx
    · exact hok

/-- The loads still wait for commands in flight when an engine changes and, if it was busy, is still busy. -/
theorem State.LoadsWait.setEngine {s : State} (h : s.LoadsWait) {k : Nat} {e e' : Engine} (hk : s.engines[k]? = some e)
    (hb : e.busy = true → e'.busy = true) : (s.setEngine k e').LoadsWait :=
  h.of_busy rfl fun j g hj hg => by
    have hlt := (List.getElem?_eq_some_iff.1 hk).1
    by_cases hjk : j = k
    · subst hjk
      obtain rfl := Option.some.inj (hk.symm.trans hj)
      exact ⟨e', by simp [hlt], hb hg⟩
    · exact ⟨g, by simpa [List.getElem?_set_ne (Ne.symm hjk)] using hj, hg⟩

/-- A store inside memory, noted by every command in flight as another agent's. -/
theorem State.Inv.store {s : State} (h : s.Inv) {cells : List Host.Cell} (hc : ∀ c ∈ cells, c.1 < s.memSize) :
    (s.store cells).Inv := by
  refine State.inv_of_ok ?_ (State.memOk_store h.memory hc) h.hostData (h.loads.of_busy rfl fun k e hk hb => ?_)
    fun x hx => ?_
  · rw [State.store_engines, map_witness_regBase]
    exact h.parameters
  · exact ⟨_, by rw [State.store_engines, List.getElem?_map, hk]; rfl, by simpa using hb⟩
  · obtain ⟨e, he, rfl⟩ := List.mem_map.1 hx
    exact (h.ok e he).note h.memory.1 false cells nofun

/-- Engine `k` becomes idle, by a completion or a reset, and the loads that waited for its command are settled. -/
theorem State.Inv.endEngine {s : State} (h : s.Inv) {k : Nat} {e e' : Engine} (hk : s.engines[k]? = some e)
    (hbase : e'.regBase = e.regBase) (hidle : e'.inflight = none) : ((s.endLoads k e).setEngine k e').Inv := by
  refine State.inv_of_ok ?parameters h.memory ⟨h.hostData.1, endedLoads_wf h.hostData.2 k e⟩ ?loads fun x hx => ?ok
  case parameters =>
    rw [State.setEngine_engines, State.endLoads_engines, map_set_regBase hk hbase]
    exact h.parameters
  case loads =>
    cases hb : e.busy with
    | false =>
      rw [State.endLoads_of_idle hb]
      exact h.loads.setEngine hk (by simp [hb])
    | true => exact h.loads.endLoads hb rfl fun j g hjk hj hg => ⟨g, by simpa [List.getElem?_set_ne (Ne.symm hjk)] using hj, hg⟩
  case ok =>
    rcases List.mem_or_eq_of_mem_set hx with hx | rfl
    · exact h.ok x hx
    · exact Engine.ok_of_idle hidle _ _

/-! ### The invariant under each change -/

/-- A completion, of a command or of an illegal word. -/
theorem State.Inv.complete {s : State} (h : s.Inv) {k : Nat} {e : Engine} {f : InFlight} (hk : s.engines[k]? = some e) :
    (((s.endLoads k e).select k).commit k e f (s.outcomeOf e f)).Inv := by
  cases hp : s.outcomeOf e f with
  | error c =>
    rw [commit_error]
    exact (h.endEngine (e' := e.endCommand c) hk rfl rfl).select k
  | ok fin =>
    obtain ⟨i, _, hp⟩ := outcomeOf_ok_iff.1 hp
    rw [commit_ok]
    exact ((h.endEngine (e' := fin.regs.endCommand fin.code) hk (planOf_keeps hp).1 rfl).select k).store (settle_inMem hp)

/-- A register write: it leaves a busy engine's command as it is, and begins a command in an idle engine, or none. -/
theorem State.Inv.regWrite {s : State} (h : s.Inv) {k : Nat} {e : Engine} (hk : s.engines[k]? = some e) (n off : Nat)
    (v : Word) : (s.setEngine k (e.writeOffset n off v)).Inv := by
  have hok := h.ok e (List.mem_of_getElem? hk)
  cases hb : e.busy with
  | true =>
    obtain ⟨hi, hc, hd, ha, hn, hda, hdv, hcrc⟩ := writeOffset_of_busy hb n off v
    refine h.setEngine hk (writeOffset_regBase e n off v) (hok.update hi hc fun f hf => ?_)
      (h.loads.setEngine hk fun _ => by simpa [Engine.busy, hi] using hb)
    rw [ha, hn, hda, hdv, hcrc]
    have hco := hok.coherent f (hi ▸ hf)
    exact ⟨hd hco.1, hco.2⟩
  | false =>
    refine h.setEngine hk (writeOffset_regBase e n off v) ?_ (h.loads.setEngine hk (by simp [hb]))
    rcases writeOffset_of_idle hb n off v with hw | hw
    · rw [hw]; exact Engine.ok_accept _ _ _ _ _
    · exact Engine.ok_of_idle hw _ _

/-- An early store: for the other engines a store, for its own the store of the value that the reads made settle. -/
theorem State.Inv.storeEarly {s : State} (h : s.Inv) (k a : Nat) : (s.storeEarly k a).Inv := by
  rcases storeEarly_cases s k a with ⟨hs, _⟩ | ⟨e, f, qs, v, hk, hf, hv, hq, hw, hs⟩
  · rw [hs]; exact h
  have hstore : (s.store [(a, v)]).Inv := h.store fun c hc => by
    rw [List.mem_singleton.1 hc]
    exact plannedBy_inMem s e _ (mem_of_cellValue? hv)
  have hk' : (s.store [(a, v)]).engines[k]? = some (e.witness (storeNotes s.mem false [(a, v)])) := by simp [hk]
  have hok := (h.ok e (List.mem_of_getElem? hk)).withReads hf hv hq
  rw [hs]
  refine hstore.setEngine hk' (by simp) (hok.note h.memory.1 true [(a, v)] fun _ c hc => ?_)
    (hstore.loads.setEngine hk' fun _ => by simp [Engine.busy])
  obtain rfl := List.mem_singleton.1 hc
  exact ⟨hw, Memory.read_writeCells_of_mem h.memory.1 (by simp) hc⟩

/-- A reset: the engine is idle, and what the abandoned command leaves is a store. -/
theorem State.Inv.reset {s : State} (h : s.Inv) (n k : Nat) : (s.resetEngine n k).Inv := by
  cases hk : s.engines[k]? with
  | none => simpa [State.resetEngine, hk] using h
  | some e =>
    rw [State.resetEngine_of_getElem? hk]
    exact (h.endEngine (e' := Engine.reset e.regBase) hk rfl rfl).store (abandoned_inMem s n e)

theorem Change.inv {s t : State} {ev : Option Event} (hc : Change ev s t) (h : s.Inv) : t.Inv := by
  cases hc with
  | none => exact h
  | complete k e f _ hk _ => exact h.complete hk
  | hostVar op d v ag =>
    exact ⟨h.parameters, h.memory, ⟨Sparse.set_wf h.hostData.1 d v, h.hostData.2⟩, h.loads, h.coherent, h.storing, h.reads,
      h.early⟩
  | regWrite a width hv k e n off _ ht => exact h.regWrite (busTarget_ok ht).2.2.1 n off _
  | hostBuf a len d n =>
    exact ⟨h.parameters, h.memory, ⟨h.hostData.1, Sparse.set_wf h.hostData.2 d _⟩, h.loads.load rfl rfl, h.coherent,
      h.storing, h.reads, h.early⟩
  | hostStore a bytes _ hm => exact h.store (cellsAt_inMem hm)
  | storeEarly k a => exact h.storeEarly k a
  | reset n k => exact h.reset n k

theorem State.Inv.step {s t : State} (h : s.Inv) (hs : step s = .next t) : t.Inv := by
  rcases step_change hs with ⟨_, hc⟩ | ⟨ev, rest, _, hc⟩
  · exact hc.inv h
  · exact hc.inv (h.pop rest)

/-- Settles O56, by the changes that a step can make. -/
theorem everyStepKeepsTheInvariant : Obligations.EveryStepKeepsTheInvariant := fun _ _ h hs => h.step hs

end Sys2Proof.Machine
end

section
/-! The words of R113's table. -/

namespace Sys2Proof

theorem decodeTableWord_of_word (w : Word) : decodeTableWord 32 w.toNat = (decode w).toOption := by
  rw [decodeTableWord, if_pos ⟨Nat.le_refl 32, w.isLt⟩, BitVec.ofNat_toNat, BitVec.setWidth_eq]

/-- Settles O1, by the two fields of the word. -/
theorem decodeOfEncodeIsTheCommand : Obligations.DecodeOfEncodeIsTheCommand := by
  intro i
  have hd : decode (encode i) = .ok i := decode_eq_ok_iff_eq_encode.2 rfl
  refine ⟨hd, ?_, commandWord_iff_decodes.2 ⟨i, hd⟩, rsvdField_encode i, opcodeField_encode i⟩
  rw [decodeTableWord_of_word, hd]
  rfl

/-- Settles O3: ten words, each decoded. -/
theorem tableWordsDecode : Obligations.TableWordsDecode := by
  unfold Obligations.TableWordsDecode
  decide

end Sys2Proof
end

section
/-! Completion steps, as steps (R220–R222): which command runs, and that an idle engine takes none. -/

namespace Sys2Proof.Machine

theorem firstBusy_eq_none_iff {es : List Engine} {n : Nat} : firstBusy es n = none ↔ ∀ e ∈ es, e.busy = false := by
  refine ⟨firstBusy_none, fun h => ?_⟩
  cases hb : firstBusy es n with
  | none => rfl
  | some k =>
    obtain ⟨_, e, he, hbusy⟩ := firstBusy_some hb
    simp [h e (List.mem_of_getElem? he)] at hbusy

/-- The first busy engine, of all engines. -/
theorem exists_of_firstBusy {es : List Engine} {k : Nat} (h : firstBusy es 0 = some k) :
    ∃ e f, es[k]? = some e ∧ e.inflight = some f := by
  obtain ⟨_, e, he, hb⟩ := firstBusy_some h
  obtain ⟨f, hf⟩ := Option.isSome_iff_exists.1 hb
  exact ⟨e, f, he, hf⟩

theorem step_nil_some {s : State} {k : Nat} (ha : s.agenda = []) (hb : firstBusy s.engines 0 = some k) :
    step s = completionStep k s := by
  simp only [step, ha, hb]

theorem step_nil_none {s : State} (ha : s.agenda = []) (hb : firstBusy s.engines 0 = none) : step s = .next s := by
  simp only [step, ha, hb]

/-- An engine that is idle, or is none, takes no step. -/
theorem completionStep_of_idle {s : State} {k : Nat} (h : ∀ e, s.engines[k]? = some e → e.busy = false) :
    completionStep k s = .next s := by
  cases hk : s.engines[k]? with
  | none => simp [completionStep, hk]
  | some e => exact completionStep_idle hk (h e hk)

/-- A scheduled completion of a command in flight, as a step. -/
theorem step_complete {s : State} {k : Nat} {e : Engine} {f : InFlight} {rest : List Event}
    (ha : s.agenda = .complete k :: rest) (hk : s.engines[k]? = some e) (hf : e.inflight = some f) :
    step s = .next ((((s.pop rest).endLoads k e).select k).commit k e f (s.outcomeOf e f)) := by
  rw [step_cons ha]
  exact completionStep_busy (s := s.pop rest) hk hf

/-- Settles O4: in both cases the step is the completion step of engine `k`. -/
theorem stepRunsTheDecodedCommand : Obligations.StepRunsTheDecodedCommand := by
  intro s k e i hk hb hd
  refine ⟨fun rest ha => ?_, fun ha hfirst => ?_⟩
  · rw [step_cons ha]
    exact completionStep_ok (s := s.pop rest) hk hb hd
  · rw [step_nil_some ha hfirst]
    exact completionStep_ok hk hb hd

/-- Settles O6: neither a completion step nor a command has an effect without a command in flight. -/
theorem idleEngineTakesNoStep : Obligations.IdleEngineTakesNoStep := by
  intro s
  refine ⟨fun k rest ha hidle => ?scheduled, fun ⟨ha, hidle⟩ => ?ended, fun i hidle => ?direct⟩
  case scheduled =>
    rw [step_cons ha]
    exact completionStep_of_idle (s := s.pop rest) hidle
  case ended => exact step_nil_none ha (firstBusy_eq_none_iff.2 hidle)
  case direct =>
    rcases exec_cases i s with ⟨_, h⟩ | ⟨e, f, ⟨he, hf⟩, _⟩
    · exact h
    · have := hidle e he
      simp [Engine.busy, hf] at this

/-- The placing of a command word is its acceptance by the current engine, with the completion step scheduled. -/
theorem withFetchWord_encode {s : State} {e : Engine} (hk : s.engines[s.current]? = some e) (i : Instr) :
    s.withFetchWord 32 (encode i).toNat = { s.setEngine s.current (e.accept (encode i) s.draws) with
      agenda := .complete s.current :: s.agenda, draws := s.draws + 1 } := by
  simp [State.withFetchWord, State.placeCommand, hk]

/-- Settles O7: the word placed decodes to the command, and the next step is its completion. -/
theorem placedWordRunsNext : Obligations.PlacedWordRunsNext := by
  intro s i e hk
  have hlt : s.current < s.engines.length := (List.getElem?_eq_some_iff.1 hk).1
  have hk' : (s.engines.set s.current (e.accept (encode i) s.draws))[s.current]? = some (e.accept (encode i) s.draws) := by
    simp [hlt]
  rw [withFetchWord_encode hk, step_cons rfl]
  exact (completionStep_ok hk' rfl (decode_eq_ok_iff_eq_encode.2 rfl)).trans (congrArg (exec i) rfl)

end Sys2Proof.Machine
end

section
/-! The power-on state (R31, R270, R273), STATUS bit by bit (R39), and the register accesses that have no meaning (R98). -/

namespace Sys2Proof.Machine

/-- Settles O54: the engine at power-on is one that has been reset. -/
theorem powerOnRegisters : Obligations.PowerOnRegisters :=
  ⟨Engine.reset Config.regBaseAtReset, rfl, fun _ hr => Engine.regValue_reset _ hr, rfl, rfl, rfl⟩

/-- Settles O55: nothing is stored, loaded or in flight. -/
theorem invariantAtPowerOn : Obligations.InvariantAtPowerOn := by
  refine State.inv_of_ok (by decide) State.reset_memOk ⟨Sparse.wf_nil, Sparse.wf_nil⟩ (State.loadsWait_nil rfl) fun e he => ?_
  rw [List.mem_singleton.1 he]
  exact Engine.ok_of_idle rfl _ _

/-- The bits of STATUS above its four flags are those of the error code, from bit 8 on. -/
theorem Engine.status_getLsbD_of_four_le (e : Engine) {i : Nat} (hi : 4 ≤ i) :
    e.status.getLsbD i = (decide (8 ≤ i) && e.err.code.getLsbD (i - 8)) := by
  have h0 : i ≠ 0 := by omega
  have h1 : i - 1 ≠ 0 := by omega
  have h2 : i - 2 ≠ 0 := by omega
  have h3 : i - 3 ≠ 0 := by omega
  by_cases h8 : 8 ≤ i
  · by_cases h32 : i < 32
    · simp [Engine.status, h0, h1, h2, h3, h8, h32, show ¬ i < 8 by omega]
    · simp [Engine.status, h0, h32, BitVec.getLsbD_of_ge e.err.code (i - 8) (by omega)]
  · simp [Engine.status, h0, h1, h2, h3, h8, show i < 8 by omega]

/-- Settles O46: each flag is a single bit, and the code lies above the reserved bits 7:4. -/
theorem statusLayout : Obligations.StatusLayout := by
  intro e
  refine ⟨by simp [Engine.status], by simp [Engine.status], by simp [Engine.status], by simp [Engine.status], ?code, ?low,
    ?high, rfl, rfl, rfl, rfl, rfl, rfl, rfl, rfl⟩
  all_goals
    apply BitVec.eq_of_getLsbD_eq
    intro i hi
    rw [BitVec.getLsbD_extractLsb', e.status_getLsbD_of_four_le (by omega)]
  case code => simp [hi]
  case low => simp [show ¬ 8 ≤ 4 + i by omega]
  case high => simp [BitVec.getLsbD_of_ge e.err.code (12 + i - 8) (by omega)]

theorem busTarget_of_width {s : State} {a width : Nat} (h : width ≠ 4) :
    s.busTarget a width = .error .registerAccessWidth := if_pos h

theorem busTarget_of_misaligned {s : State} {a : Nat} (h : a % 4 ≠ 0) :
    s.busTarget a 4 = .error .registerAccessMisaligned := by
  rw [State.busTarget, if_neg (by simp), if_pos h]

theorem busTarget_of_noWindow {s : State} {a : Nat} (h4 : a % 4 = 0)
    (h : ∀ e ∈ s.engines, a < e.regBase ∨ e.regBase + 0x80 ≤ a) : s.busTarget a 4 = .error .noRegisterWindow := by
  rw [State.busTarget, if_neg (by simp), if_neg (by simp [h4]), findWindow_none h]

/-- A register access without a target is refused. -/
theorem step_refused {s : State} {a width dst : Nat} {v : HostVal} {rest : List Event} {op : HostOp}
    (hop : op = .regRead a width dst ∨ op = .regWrite a width v) (ha : s.agenda = .host op :: rest) {r : Refusal}
    (ht : s.busTarget a width = .error r) : step s = .refused r := by
  rw [step_cons ha]
  rcases hop with rfl | rfl <;> simp only [eventStep, hostStep, hostRegRead, hostRegWrite, State.busTarget_pop, ht]

/-- Settles O48: each such access has no target. -/
theorem undefinedRegisterAccessesAreRefused : Obligations.UndefinedRegisterAccessesAreRefused := by
  intro s a width dst v rest op hop ha
  refine ⟨fun hw => step_refused hop ha (busTarget_of_width hw), ?_, ?_⟩
  · rintro rfl h4
    exact step_refused hop ha (busTarget_of_misaligned h4)
  · rintro rfl h4 hwin
    exact step_refused hop ha (busTarget_of_noWindow h4 hwin)

end Sys2Proof.Machine
end

section
/-! The results of PAYLOAD, NEXT, FRAME and APPEND (R175, R181–R183): the addresses and lengths they compute fit 32 bits, so that
the registers hold them as natural numbers. -/

namespace Sys2Proof.Machine

/-! ### The computed addresses and lengths (R172) -/

section
variable {v : View} (h : v.FrameOk) (hm : v.memSize ≤ 2 ^ 32 - 1)
include h hm

theorem View.FrameOk.toNat_payloadAddr : (BitVec.ofNat 32 (v.addr + 8)).toNat = v.addr + 8 :=
  toNat_ofNat_of_lt (by have := h.fits hm; omega)

theorem View.FrameOk.toNat_nextAddr :
    (BitVec.ofNat 32 (v.addr + v.lengthField.toNat + 12)).toNat = v.addr + v.lengthField.toNat + 12 :=
  toNat_ofNat_of_lt (h.fits hm).1

theorem View.FrameOk.toNat_nextAvail :
    (BitVec.ofNat 32 (v.len - (v.lengthField.toNat + 12))).toNat = v.len - (v.lengthField.toNat + 12) :=
  toNat_ofNat_of_lt (by have := h.fits hm; omega)

end

section
variable {v : View} (h : v.AppendOk) (hm : v.memSize ≤ 2 ^ 32 - 1)
include h hm

theorem View.AppendOk.toNat_dstAddr :
    (BitVec.ofNat 32 (v.dstAddr + (v.lengthField.toNat + 12))).toNat = v.dstAddr + (v.lengthField.toNat + 12) := by
  obtain ⟨_, hwin, hav, _⟩ := h
  exact toNat_ofNat_of_lt (by omega)

theorem View.AppendOk.toNat_dstAvail :
    (BitVec.ofNat 32 (v.dstAvail - (v.lengthField.toNat + 12))).toNat = v.dstAvail - (v.lengthField.toNat + 12) := by
  obtain ⟨_, hwin, _, _⟩ := h
  exact toNat_ofNat_of_lt (by omega)

end

/-! ### The bytes a command leaves -/

/-- A byte that a command writes and no other agent has stored to holds the command's value at its end. -/
theorem commit_read_unraced {s : State} {i : Instr} {e : Engine} {f : InFlight} {fin : Finish} (hm : Memory.wf s.mem)
    (hp : planOf i (s.view f) e = .ok fin) {a : Nat} {b : Byte} (hb : cellValue? fin.writes a = some b)
    (hr : f.racedAt a = false) (k : Nat) : Memory.read (s.commit k e f (.ok fin)).mem a = b :=
  (commit_read_written hm (planOf_writes hp).1 (mem_of_cellValue? hb)).1 hr

/-- The byte `j` of a sequence laid out from `a` on. -/
theorem cellValue?_cellsAt_add (a : Nat) (bs : List Byte) (j : Nat) : cellValue? (cellsAt a bs) (a + j) = bs[j]? := by
  simp [cellValue?_cellsAt]

/-- Four bytes that hold a word's bytes, lowest address first, hold the word (R17). -/
theorem be32_read_of_bytes {m : Memory} {a : Nat} {w : Word}
    (h : ∀ j b, (be32Bytes w)[j]? = some b → Memory.read m (a + j) = b) :
    be32 (Memory.read m a) (Memory.read m (a + 1)) (Memory.read m (a + 2)) (Memory.read m (a + 3)) = w := by
  rw [show Memory.read m a = _ from h 0 _ rfl, h 1 _ rfl, h 2 _ rfl, h 3 _ rfl]
  exact be32_be32Bytes w

/-! ### The results -/

/-- Settles O22: ADDR + 8 is an address inside the slice. -/
theorem payloadResult : Obligations.PayloadResult := by
  intro s e f h hframe hm
  exact ⟨_, exec_ok h ((planPayload_ok_iff (s.view f) e _).2 ⟨hframe, rfl⟩) rfl, rfl, hframe.toNat_payloadAddr hm⟩

/-- Settles O23: the record ends inside the slice, so neither result wraps. -/
theorem nextResult : Obligations.NextResult := by
  intro s e f h hframe hm
  have haddr := hframe.toNat_nextAddr hm
  have havail := hframe.toNat_nextAvail hm
  refine ⟨_, exec_ok h ((planNext_ok_iff (s.view f) e _).2 ⟨hframe, rfl⟩) rfl, rfl, haddr, havail, ?sum⟩
  case sum =>
    obtain ⟨_, _, _, hlen⟩ := hframe
    calc _ = (s.view f).addr + (s.view f).lengthField.toNat + 12 + ((s.view f).len - ((s.view f).lengthField.toNat + 12)) :=
          congrArg₂ (· + ·) haddr havail
      _ = (s.view f).addr + (s.view f).len := by omega

/-- Settles O24: the fields as PAYLOAD and NEXT write them. -/
theorem frameResult : Obligations.FrameResult := by
  intro s e f h hframe hm
  exact ⟨_, exec_ok h ((planFrame_ok_iff (s.view f) e _).2 ⟨hframe, rfl⟩) rfl, rfl, hframe.toNat_payloadAddr hm,
    hframe.toNat_nextAddr hm, hframe.toNat_nextAvail hm⟩

/-- Settles O25: the window holds the record, so neither register wraps, and byte `j` of the copy is stored at byte `j` of the
window. -/
theorem appendResult : Obligations.AppendResult := by
  intro s e f h hwf happ hm
  have hp := (planAppend_ok_iff (s.view f) e _).2 ⟨happ, rfl⟩
  have haddr := happ.toNat_dstAddr hm
  have havail := happ.toNat_dstAvail hm
  refine ⟨_, _, exec_of_plan (i := .append) h hp, commit_ok_engine h _, rfl, haddr, havail, ?sum, fun j hj hr => ?copy⟩
  case sum =>
    obtain ⟨_, _, hav, _⟩ := happ
    calc _ = (s.view f).dstAddr + ((s.view f).lengthField.toNat + 12)
            + ((s.view f).dstAvail - ((s.view f).lengthField.toNat + 12)) := congrArg₂ (· + ·) haddr havail
      _ = (s.view f).dstAddr + (s.view f).dstAvail := by omega
  case copy =>
    refine commit_read_unraced (i := .append) hwf hp ?_ hr s.current
    exact (cellValue?_cellsAt_add _ _ j).trans ((View.getElem?_bytes _ _ _ _ j).trans (if_pos hj))

/-- The word in the trailing 4 bytes after a REGENERATE that no other agent has disturbed (R151). -/
theorem be32_read_of_regenerate {s : State} {e : Engine} {f : InFlight} {fin : Finish} (hwf : Memory.wf s.mem)
    (hp : planOf .regenerate (s.view f) e = .ok fin) {a : Nat} (ha : a = (s.view f).addr + 8 + (s.view f).lengthField.toNat)
    (hu : f.Undisturbed a 4) (k : Nat) :
    be32 (Memory.read (s.commit k e f (.ok fin)).mem a) (Memory.read (s.commit k e f (.ok fin)).mem (a + 1))
      (Memory.read (s.commit k e f (.ok fin)).mem (a + 2)) (Memory.read (s.commit k e f (.ok fin)).mem (a + 3))
      = crc32 ((s.view f).chunkCrcInput (s.view f).lengthField.toNat) := by
  refine be32_read_of_bytes fun j b hb => ?_
  have hj : j < 4 := (List.getElem?_eq_some_iff.1 hb).1
  refine commit_read_unraced hwf hp ?_ (hu _ (Nat.le_add_right _ j) (by omega)) k
  obtain ⟨_, rfl⟩ := (planRegenerate_ok_iff _ e fin).1 hp
  rw [ha]
  exact (cellValue?_cellsAt_add _ _ j).trans hb

/-- Settles O15: the four bytes stored are those of CRC_RESULT. -/
theorem regenerateResult : Obligations.RegenerateResult := by
  intro s e f h hwf hframe
  have hp : planOf .regenerate (s.view f) e = .ok _ := (planRegenerate_ok_iff (s.view f) e _).2 ⟨hframe, rfl⟩
  exact ⟨_, _, exec_of_plan h hp, commit_ok_engine h _, rfl, fun hu => (be32_read_of_regenerate hwf hp rfl hu _).trans
    (Engine.crcResult_of_crcAcc rfl).symm⟩

end Sys2Proof.Machine
end

section
/-! The order of the errors (R239): the first check that fails gives the code. -/

namespace Sys2Proof.Machine

/-- A framed command but APPEND raises what the frame check raises, the slice being in memory. -/
theorem planOf_frameCheck_error {i : Instr} (hi : framed i = true) (hne : i ≠ .append) {v : View} (hm : v.SliceInMem)
    {c : ErrorCode} (hf : frameCheck v = .error c) (e : Engine) : planOf i v e = .error c := by
  have hs : srcCheck v = .ok () := (srcCheck_ok_iff v ()).2 hm
  have hraise {β : Type} (k : Nat → Except ErrorCode β) : (srcCheck v >>= fun _ => frameCheck v >>= k) = .error c := by
    rw [hs, hf, ok_bind, error_bind]
  cases i
  case verify | regenerate | payload | next | frame => exact hraise _
  case append => exact absurd rfl hne
  all_goals simp [framed] at hi

theorem usesSlice_of_framed {i : Instr} (h : framed i = true) : usesSlice i = true := by
  cases i
  case nop | crcInit => simp [framed] at h
  all_goals rfl

/-- Settles O26: a slice outside memory comes first, then the frame check's errors in its order. -/
theorem framedCommandsRaiseInOrder : Obligations.FramedCommandsRaiseInOrder := by
  intro i s e f c hi hne h hc
  refine exec_error h ?_
  rcases hc with ⟨hm, rfl⟩ | ⟨hm, h4, rfl⟩ | ⟨hm, h4, hl, rfl⟩ | ⟨hm, h4, hl, hn, rfl⟩
  · exact planOf_busError (usesSlice_of_framed hi) (Nat.not_le.2 hm)
  · exact planOf_frameCheck_error hi hne hm ((frameCheck_error_iff _ _).2 (.inl ⟨h4, rfl⟩)) e
  · exact planOf_frameCheck_error hi hne hm ((frameCheck_error_iff _ _).2 (.inr (.inl ⟨h4, hl, rfl⟩))) e
  · exact planOf_frameCheck_error hi hne hm ((frameCheck_error_iff _ _).2 (.inr (.inr ⟨h4, hl, hn, rfl⟩))) e

section
variable {v : View} (hm : v.SliceInMem)
include hm

theorem planOf_append_window {c : ErrorCode} (hd : dstCheck v = .error c) (e : Engine) : planOf .append v e = .error c := by
  simp only [planOf, planAppend, (srcCheck_ok_iff v ()).2 hm, hd, ok_bind, error_bind]

variable (hd : v.dstAddr + v.dstAvail ≤ v.memSize)
include hd

theorem planOf_append_frameCheck {c : ErrorCode} (hf : frameCheck v = .error c) (e : Engine) :
    planOf .append v e = .error c := by
  simp only [planOf, planAppend, (srcCheck_ok_iff v ()).2 hm, (dstCheck_ok_iff v ()).2 hd, hf, ok_bind, error_bind]

end

/-- What APPEND raises once the frame check has passed. -/
theorem planOf_append_appendCheck {v : View} (hframe : v.FrameOk) (hd : v.dstAddr + v.dstAvail ≤ v.memSize) {c : ErrorCode}
    (ha : appendCheck v (v.lengthField.toNat + 12) = .error c) (e : Engine) : planOf .append v e = .error c := by
  obtain ⟨hm, h4, hmax, hlen⟩ := hframe
  simp only [planOf, planAppend, (srcCheck_ok_iff v ()).2 hm, (dstCheck_ok_iff v ()).2 hd,
    (frameCheck_ok_iff v _).2 ⟨h4, hmax, hlen, rfl⟩, ha, ok_bind, error_bind]

/-- Settles O27: the slice, the window, the frame check, the window's room, the overlap. -/
theorem appendRaisesInOrder : Obligations.AppendRaisesInOrder := by
  intro s e f c h hc
  refine exec_error h ?_
  rcases hc with ⟨hm, rfl⟩ | ⟨hm, hd, rfl⟩ | ⟨hm, hd, h4, rfl⟩ | ⟨hm, hd, h4, hl, rfl⟩ | ⟨hm, hd, h4, hl, hn, rfl⟩
    | ⟨hf, hd, hav, rfl⟩ | ⟨hf, hd, hav, ⟨x, h1, h2, h3, h4⟩, rfl⟩
  · exact planOf_busError rfl hm
  · exact planOf_append_window hm ((dstCheck_error_iff _ _).2 ⟨hd, rfl⟩) e
  · exact planOf_append_frameCheck hm hd ((frameCheck_error_iff _ _).2 (.inl ⟨h4, rfl⟩)) e
  · exact planOf_append_frameCheck hm hd ((frameCheck_error_iff _ _).2 (.inr (.inl ⟨h4, hl, rfl⟩))) e
  · exact planOf_append_frameCheck hm hd ((frameCheck_error_iff _ _).2 (.inr (.inr ⟨h4, hl, hn, rfl⟩))) e
  · exact planOf_append_appendCheck hf hd ((appendCheck_error_iff _ _ _).2 (.inl ⟨hav, rfl⟩)) e
  · exact planOf_append_appendCheck hf hd ((appendCheck_error_iff _ _ _).2 (.inr ⟨hav, by omega, by omega, rfl⟩)) e

end Sys2Proof.Machine
end

section
/-! The frame of a command (R33, R85, R112, R152, R251): the registers, the bytes and the engines that it leaves as they were. -/

namespace Sys2Proof.Machine

/-! ### Registers -/

theorem Engine.regValue_endCommand (e : Engine) (c : ErrorCode) {r : Reg} (h : r ≠ .status) :
    (e.endCommand c).regValue r = e.regValue r := by
  cases r
  case status => exact absurd rfl h
  all_goals rfl

/-- Pseudocode writes the registers of R112's list for it, those derived from them, and MATCH in VERIFY (R42). -/
theorem planOf_frame {i : Instr} {v : View} {e : Engine} {fin : Finish} (h : planOf i v e = .ok fin) :
    (∀ r, r ≠ .status → r ∉ writtenBy i → fin.regs.regValue r = e.regValue r)
      ∧ (i ≠ .verify → fin.regs.matched = e.matched) := by
  cases i <;> simp only [planOf, planNop_ok_iff, planCrcInit_ok_iff, planCrcUpdate_ok_iff, planChecksum_ok_iff,
    planVerify_ok_iff, planRegenerate_ok_iff, planLenDecode_ok_iff, planTagExtract_ok_iff, planPayload_ok_iff, planNext_ok_iff,
    planFrame_ok_iff, planAppend_ok_iff] at h
  case nop | crcInit =>
    subst h
    exact ⟨fun r => by cases r <;> simp [writtenBy, Engine.regValue, Engine.irqEn, Engine.flags], fun _ => rfl⟩
  case lenDecode | tagExtract =>
    obtain ⟨_, _, rfl⟩ := h
    exact ⟨fun r => by cases r <;> simp [writtenBy, Engine.regValue, Engine.irqEn, Engine.flags, Engine.crcResult],
      fun _ => rfl⟩
  all_goals
    obtain ⟨_, rfl⟩ := h
    exact ⟨fun r => by cases r <;> simp [writtenBy, Engine.regValue, Engine.irqEn, Engine.flags, Engine.crcResult], by simp⟩

/-- Settles O29: an error writes no register but STATUS, and the pseudocode no register but those of its list. -/
theorem commandsKeepTheRegistersTheyDoNotWrite : Obligations.CommandsKeepTheRegistersTheyDoNotWrite := by
  intro i s t e f h hx
  cases hp : planOf i (s.view f) e with
  | error c =>
    cases hx.symm.trans (exec_of_plan h hp)
    exact ⟨_, commit_error_engine h c, fun r hs _ => Engine.regValue_endCommand e c hs, fun _ => rfl, rfl, rfl, rfl, rfl⟩
  | ok fin =>
    cases hx.symm.trans (exec_of_plan h hp)
    obtain ⟨hbase, _, _, _, _, hovr, _⟩ := planOf_keeps hp
    obtain ⟨hregs, hmatch⟩ := planOf_frame hp
    exact ⟨_, commit_ok_engine h fin, fun r hs hr => (Engine.regValue_endCommand _ _ hs).trans (hregs r hs hr), hmatch, hovr,
      hbase, rfl, rfl⟩

/-! ### Memory -/

/-- Settles O30: with no bytes to write, and with an error, the commit stores nothing. -/
theorem otherCommandsLeaveMemory : Obligations.OtherCommandsLeaveMemory := by
  intro i s t hx
  rcases exec_cases i s with ⟨hidle, h⟩ | ⟨e, f, hif, h⟩
  · cases hx.symm.trans h
    exact ⟨fun _ _ => rfl, fun e f _ hif => absurd hif (hidle e f)⟩
  cases hx.symm.trans h
  cases hp : planOf i (s.view f) e with
  | error c => exact ⟨fun _ _ => rfl, fun _ _ _ _ _ _ => rfl⟩
  | ok fin =>
    have hmem (hw : fin.writes = []) : (s.commit s.current e f (.ok fin)).mem = s.mem := by simp [commit_ok, hw]
    refine ⟨fun h1 h2 => hmem (planOf_writes_nil hp ⟨h1, h2⟩), fun _ _ e' _ he' herr => ?_⟩
    obtain rfl := Option.some.inj ((commit_ok_engine hif fin).symm.trans he')
    obtain ⟨_, rfl⟩ := planOf_code hp herr
    exact hmem (planOf_writes_nil hp (by simp))

/-- Settles O31: every byte the command writes lies in its write set. -/
theorem storingCommandsWriteOnlyTheirWriteSet : Obligations.StoringCommandsWriteOnlyTheirWriteSet := by
  intro i s t e f h hwf hx a ha
  cases hp : planOf i (s.view f) e with
  | error c => cases hx.symm.trans (exec_of_plan h hp); rfl
  | ok fin =>
    cases hx.symm.trans (exec_of_plan h hp)
    refine commit_read_other hwf fun c hc hca => ha ?_
    rw [← hca]
    exact ((planOf_writes hp).2 c hc).1

/-- The value at an address of cells that keep their own values or take others, as a rule by the address says. -/
theorem cellValue?_map_choose (p : Nat → Bool) (d : Nat → Byte) (ws : List Host.Cell) (a : Nat) :
    cellValue? (ws.map fun c => if p c.1 then c else (c.1, d c.1)) a
      = (cellValue? ws a).map fun v => if p a then v else d a := by
  induction ws with
  | nil => rfl
  | cons c ws ih =>
    obtain ⟨x, v⟩ := c
    rw [List.map_cons, apply_ite (· :: ws.map _), apply_ite (cellValue? · a)]
    by_cases ha : a = x
    · subst ha
      simp only [cellValue?, if_true, Option.map_some]
      split <;> rfl
    · simp only [cellValue?, if_neg ha, ih, ite_self]

/-- What is stored at a byte, where anything is: the command's value, or the present one if it loses a race (R86 (c)). -/
theorem cellValue?_settle (mem : Memory) (f : InFlight) (ws : List Host.Cell) (a : Nat) :
    cellValue? (settle mem f ws) a = (cellValue? ws a).map fun v =>
      if !f.racedAt a || Config.commandWins f.epoch a then v else Memory.read mem a :=
  cellValue?_map_choose (fun a => !f.racedAt a || Config.commandWins f.epoch a) (Memory.read mem) ws a

/-- Every byte of memory after a command that ended without raising. -/
theorem commit_read {s : State} {i : Instr} {e : Engine} {f : InFlight} {fin : Finish} (hm : Memory.wf s.mem)
    (hp : planOf i (s.view f) e = .ok fin) (k a : Nat) :
    Memory.read (s.commit k e f (.ok fin)).mem a
      = (cellValue? (settle s.mem f fin.writes) a).getD (Memory.read s.mem a) :=
  Memory.read_writeCells hm (by rw [settle_addrs]; exact (planOf_writes hp).1) a

/-- Settles O37: what the commit stores at the byte is the command's value, or the present one if that lost a race. -/
theorem racedStoreLeavesOneOfTheTwoValues : Obligations.RacedStoreLeavesOneOfTheTwoValues := by
  intro i s t e f fin h hwf hp hx c hc
  cases hx.symm.trans (exec_of_plan h hp)
  exact commit_read_written hwf (planOf_writes hp).1 hc

/-- The pseudocode comes to the same in two states that agree on its read set. -/
theorem planOf_view_congr {i : Instr} {s1 s2 : State} {f : InFlight} (hm : s1.memSize = s2.memSize)
    (h : ∀ x, InRanges (readSet i f.addr.toNat f.len.toNat (s1.view f).lengthField.toNat) x →
      Memory.read s1.mem x = Memory.read s2.mem x) (e : Engine) : planOf i (s1.view f) e = planOf i (s2.view f) e :=
  planOf_congr (v := s1.view f) (w := s2.view f) ⟨hm, rfl, rfl, rfl, rfl, rfl⟩
    (fun site x hx => View.read_congr (v := s1.view f) (w := s2.view f) rfl (h x hx) site) e

/-- Settles O33: the two runs have one outcome, so that they store to the same bytes, with the same values but where they let
the present byte stand. -/
theorem commandsReadOnlyTheirReadSet : Obligations.CommandsReadOnlyTheirReadSet := by
  intro i s1 s2 e f h1 h2 hm hwf1 hwf2 hread
  cases hp : planOf i (s1.view f) e with
  | error c =>
    have hp2 : planOf i (s2.view f) e = .error c := (planOf_view_congr hm hread e).symm.trans hp
    obtain ⟨hne, _⟩ := planOf_error_code hp
    exact ⟨_, _, _, exec_of_plan h1 hp, exec_of_plan h2 hp2, commit_error_engine h1 c, commit_error_engine h2 c,
      fun _ ha => ha, fun hok => absurd hok hne⟩
  | ok fin =>
    have hp2 : planOf i (s2.view f) e = .ok fin := (planOf_view_congr hm hread e).symm.trans hp
    refine ⟨_, _, _, exec_of_plan h1 hp, exec_of_plan h2 hp2, commit_ok_engine h1 fin, commit_ok_engine h2 fin,
      fun a ha => ?agree, fun _ a ha hr => ?written⟩
    case agree => rw [commit_read hwf1 hp, commit_read hwf2 hp2, cellValue?_settle, cellValue?_settle, ha]
    case written =>
      obtain ⟨b, hb⟩ := planOf_writes_all hp ha
      rw [(commit_read_written hwf1 (planOf_writes hp).1 hb).1 hr, (commit_read_written hwf2 (planOf_writes hp2).1 hb).1 hr]

/-! ### Other agents -/

theorem Engine.witness_eq (notes : List StoreNote) (e : Engine) :
    e.witness notes = { e with inflight := e.inflight.map fun f => { f with held := f.held ++ notes } } := by
  cases e
  rename_i inflight
  cases inflight <;> rfl

@[simp] theorem Engine.witness_nil (e : Engine) : e.witness [] = e := by
  cases e
  rename_i inflight
  cases inflight <;> simp [Engine.witness]

/-- However a command ends, its engine is replaced and a store is made, of no bytes when it raises (R240). -/
theorem commit_eq_store (s : State) (k : Nat) (e : Engine) (f : InFlight) (p : Plan) :
    ∃ e' cells, s.commit k e f p = (s.setEngine k e').store cells := by
  cases p with
  | error c => exact ⟨e.endCommand c, [], (store_nil _).symm⟩
  | ok fin => exact ⟨_, _, rfl⟩

/-- Another engine, after an engine has been replaced and a store made: it has taken note of the store as another agent's. -/
theorem setEngine_store_other {s : State} {k j : Nat} {g : Engine} (hjk : j ≠ k) (hj : s.engines[j]? = some g) (e : Engine)
    (cells : List Host.Cell) :
    ∃ notes : List StoreNote, (∀ n ∈ notes, n.own = false) ∧ ((s.setEngine k e).store cells).engines[j]? = some { g with
      inflight := g.inflight.map fun f => { f with held := f.held ++ notes } } :=
  ⟨_, storeNotes_own s.mem false cells, by rw [getElem?_setEngine_store, if_neg hjk, hj, Option.map_some, Engine.witness_eq]⟩

/-- Settles O32: the commit replaces the current engine and makes one store, of no bytes when the command raises. -/
theorem commandsLeaveOtherAgentsAlone : Obligations.CommandsLeaveOtherAgentsAlone := by
  intro i s t hx
  rcases exec_cases i s with ⟨_, h⟩ | ⟨e, f, _, h⟩
  · cases hx.symm.trans h
    exact ⟨rfl, rfl, rfl, rfl, rfl, rfl, rfl,
      fun k g _ hk => ⟨[], nofun, by rw [hk, ← Engine.witness_eq, Engine.witness_nil]⟩⟩
  cases hx.symm.trans h
  obtain ⟨e', cells, hcommit⟩ := commit_eq_store s s.current e f (planOf i (s.view f) e)
  rw [hcommit]
  exact ⟨rfl, rfl, rfl, rfl, rfl, rfl, by simp, fun j g hj hg => setEngine_store_other hj hg _ _⟩

end Sys2Proof.Machine
end

section
/-! Concurrent access (R61, R86, R87): the values a byte gives to the commands in flight while agents store to it. -/

namespace Sys2Proof.Machine

/-- Settles O34, for reads made early by `ReadsHeld` and for reads made now by the choice that they draw from. -/
theorem engineReadsAHeldValue : Obligations.EngineReadsAHeldValue := by
  intro s f site a hr
  exact ⟨fun hu => View.read_of_unraced (v := s.view f) hr hu site, View.read_mem (v := s.view f) hr site a⟩

/-- A byte stored to has been held, by the notes of the command. -/
theorem InFlight.heldAt_note_ne_nil (f : InFlight) (mem : Memory) (own : Bool) {cells : List Host.Cell} {c : Host.Cell}
    (hc : c ∈ cells) : ({ f with held := f.held ++ storeNotes mem own cells } : InFlight).heldAt c.1 ≠ [] := by
  rw [InFlight.heldAt_note]
  refine List.append_ne_nil_of_right_ne_nil _ fun h => ?_
  have : c ∈ cells.filter fun d => d.1 == c.1 := List.mem_filter.2 ⟨hc, beq_self_eq_true c.1⟩
  rw [List.map_eq_nil_iff.1 h] at this
  exact List.not_mem_nil this

/-- Settles O35, by what the command notes of the store. -/
theorem storesAreRecordedForCommandsInFlight : Obligations.StoresAreRecordedForCommandsInFlight := by
  intro s cells k e f a v hwf hk hf hv
  refine ⟨e.witness (storeNotes s.mem false cells), { f with held := f.held ++ storeNotes s.mem false cells }, by simp [hk],
    by simp [hf], held_or_holds_note hwf hv false cells, fun c hc => ⟨f.heldAt_note_ne_nil s.mem false hc, ?raced⟩,
    fun hd c hc => Memory.read_writeCells_of_mem hwf hd hc, fun x hx => Memory.read_writeCells_of_not_mem hwf cells hx,
    f.heldAt_note s.mem false cells a⟩
  case raced =>
    rw [InFlight.racedAt_note, List.any_eq_true.2 ⟨c, hc, beq_self_eq_true c.1⟩]
    simp

/-- Settles O38: both commands read the memory's byte all over the read set. -/
theorem unracedCommandsAreDetermined : Obligations.UnracedCommandsAreDetermined := by
  intro i s e f epoch _ hr hu
  refine planOf_congr (v := s.view f) (w := s.view { f with held := [], reads := [], epoch := epoch })
    ⟨rfl, rfl, rfl, rfl, rfl, rfl⟩ (fun site x hx => ?_) e
  rw [View.read_of_unraced (v := s.view f) hr (hu x hx), View.read_of_unraced (InFlight.readsHeld_nil rfl _) rfl]
  rfl

end Sys2Proof.Machine
end

section
/-! VERIFY on a changed chunk, and after a REGENERATE (R144, R151). -/

namespace Sys2Proof.Machine

/-! ### One byte changed -/

/-- A byte sequence read, split at one of its addresses. -/
theorem View.bytes_split (v : View) (site : ReadSite) {a n x : Nat} (h1 : a ≤ x) (h2 : x < a + n) :
    v.bytes site a n = v.bytes site a (x - a) ++ v.read site x :: v.bytes site (x + 1) (a + n - (x + 1)) := by
  have hn : n = (x - a) + ((a + n - (x + 1)) + 1) := by omega
  conv_lhs => rw [hn, View.bytes_append, show a + (x - a) = x by omega, View.bytes]

/-- Views that differ in one byte of a sequence differ in its checksum (R144). -/
theorem crc32_bytes_ne {v w : View} {site : ReadSite} {a n x : Nat} (h1 : a ≤ x) (h2 : x < a + n)
    (hx : v.read site x ≠ w.read site x) (hy : ∀ y, y ≠ x → v.read site y = w.read site y) :
    crc32 (v.bytes site a n) ≠ crc32 (w.bytes site a n) := by
  rw [v.bytes_split site h1 h2, w.bytes_split site h1 h2, View.bytes_congr (w := w) fun y _ h => hy y (by omega),
    View.bytes_congr (v := v) (w := w) (a := x + 1) fun y h _ => hy y (by omega)]
  exact singleByteChangeChangesTheCrc _ _ _ _ hx

/-- VERIFY's MATCH is whether the checksum of tag and payload is the stored one. -/
theorem matched_iff_of_verify {s t : State} {e a : Engine} {f : InFlight} (h : s.InFlightAt e f) (hframe : (s.view f).FrameOk)
    (hx : exec .verify s = .next t) (ha : t.engines[s.current]? = some a) :
    a.matched = true ↔ crc32 ((s.view f).chunkCrcInput (s.view f).lengthField.toNat)
      = (s.view f).storedCrcField (s.view f).lengthField.toNat := by
  have hp := (planVerify_ok_iff (s.view f) e _).2 ⟨hframe, rfl⟩
  rw [eq_endCommand_of_exec (i := .verify) h hp hx ha]
  exact decide_eq_true_iff

/-- Settles O18: the changed byte is none of the length field and none of the stored CRC, so that the second VERIFY compares
another checksum with the same stored one. -/
theorem verifyDetectsAnySingleByteChange : Obligations.VerifyDetectsAnySingleByteChange := by
  intro s1 s2 t1 e a1 f x h1 h2 hm hframe hreads hu hx1 ha1 hmatch hlo hhi hne hsame
  have hread (site : ReadSite) (y : Nat) (hy : y ≠ x) : (s1.view f).read site y = (s2.view f).read site y :=
    View.read_congr (v := s1.view f) (w := s2.view f) rfl (hsame y hy).symm site
  have hl : (s1.view f).lengthField = (s2.view f).lengthField :=
    View.lengthField_congr ⟨hm.symm, rfl, rfl, rfl, rfl, rfl⟩ fun site y _ h => hread site y (by omega)
  have hframe2 : (s2.view f).FrameOk :=
    View.Succeeds.congr (v := s1.view f) (w := s2.view f) (i := .verify) hm rfl rfl rfl rfl hl.symm hframe
  have hheld : f.heldAt x = [] := hu x (by omega) (by omega)
  have hdiff : (s1.view f).read .data x ≠ (s2.view f).read .data x := by
    rw [View.read_of_unraced (v := s1.view f) (InFlight.readsHeld_nil hreads _) hheld,
      View.read_of_unraced (v := s2.view f) (InFlight.readsHeld_nil hreads _) hheld]
    exact hne.symm
  have hcrc : crc32 ((s1.view f).chunkCrcInput (s1.view f).lengthField.toNat)
      ≠ crc32 ((s2.view f).chunkCrcInput (s1.view f).lengthField.toNat) :=
    crc32_bytes_ne (by omega) (by omega) hdiff (hread .data)
  have hstored : (s1.view f).storedCrcField (s1.view f).lengthField.toNat
      = (s2.view f).storedCrcField (s1.view f).lengthField.toNat :=
    View.read32_congr fun y h _ => hread .stored y (by omega)
  have hmismatch : crc32 ((s2.view f).chunkCrcInput (s2.view f).lengthField.toNat)
      ≠ (s2.view f).storedCrcField (s2.view f).lengthField.toNat := by
    rw [← hl, ← hstored, ← (matched_iff_of_verify h1 hframe hx1 ha1).1 hmatch]
    exact hcrc.symm
  have hp := (planVerify_ok_iff (s2.view f) e _).2 ⟨hframe2, rfl⟩
  have hlt : s2.current < s2.engines.length := (List.getElem?_eq_some_iff.1 h2.1).1
  refine ⟨_, _, exec_ok (i := .verify) h2 hp rfl, List.getElem?_set_self hlt, ?_, ?_, rfl⟩
  · exact decide_eq_false_iff_not.2 hmismatch
  · exact if_neg hmismatch

end Sys2Proof.Machine
end

section
/-! A VERIFY right after a REGENERATE of the same chunk (R151). -/

namespace Sys2Proof.Machine

/-- A command that has just been accepted reads the memory's bytes. -/
theorem View.read_of_new {v : View} (hr : v.fl.reads = []) (hh : v.fl.held = []) (site : ReadSite) (x : Nat) :
    v.read site x = Memory.read v.mem x :=
  View.read_of_unraced (InFlight.readsHeld_nil hr _) (by simp [InFlight.heldAt, hh]) site

section
variable {v w : View} (ha : w.addr = v.addr) (hread : ∀ site x, v.addr ≤ x → x < v.addr + 8 + v.lengthField.toNat →
  w.read site x = v.read site x)
include ha hread

/-- Views of one chunk that read the same length field, tag and payload decode the same length. -/
theorem View.lengthField_of_chunk : w.lengthField = v.lengthField := by
  rw [View.lengthField, ha]
  exact View.read32_congr fun x h1 h2 => hread .length x h1 (by omega)

theorem View.chunkCrcInput_of_chunk :
    w.chunkCrcInput v.lengthField.toNat = v.chunkCrcInput v.lengthField.toNat := by
  rw [View.chunkCrcInput, ha]
  exact View.bytes_congr fun x h1 h2 => hread .data x (by omega) (by omega)

end

/-- A VERIFY whose chunk passes the frame check and holds the checksum of its tag and payload matches. -/
theorem exec_verify_of_match {s : State} {e : Engine} {f : InFlight} (h : s.InFlightAt e f) (hframe : (s.view f).FrameOk)
    (hcrc : crc32 ((s.view f).chunkCrcInput (s.view f).lengthField.toNat)
      = (s.view f).storedCrcField (s.view f).lengthField.toNat) :
    ∃ e', exec .verify s = .next { s with engines := s.engines.set s.current e' } ∧ e'.busy = false ∧ e'.done = true
      ∧ e'.matched = true ∧ e'.err = .ok ∧ e'.length = (s.view f).lengthField ∧ e'.storedCrc = e'.crcResult := by
  have hp := (planVerify_ok_iff (s.view f) e _).2 ⟨hframe, rfl⟩
  exact ⟨_, exec_ok (i := .verify) h hp rfl, rfl, rfl, decide_eq_true hcrc, if_pos hcrc, rfl,
    hcrc.symm.trans (Engine.crcResult_of_crcAcc rfl).symm⟩

/-- The completion of a REGENERATE whose frame check passes and that no other agent has disturbed, as a step: the engine is idle
with its operands as they were, no byte changes but the trailing 4, and these hold the checksum. -/
theorem step_regenerate {s : State} {k : Nat} {e : Engine} {f : InFlight} {rest : List Event} (hwf : Memory.wf s.mem)
    (hag : s.agenda = .complete k :: rest) (hk : s.engines[k]? = some e) (hf : e.inflight = some f)
    (hd : decode e.cmd = .ok .regenerate) (hframe : (s.view f).FrameOk)
    (hu : f.Undisturbed ((s.view f).addr + 8 + (s.view f).lengthField.toNat) 4) :
    ∃ t e', step s = .next t ∧ t.agenda = rest ∧ t.memSize = s.memSize ∧ t.engines[k]? = some e' ∧ e'.busy = false
      ∧ e'.regBase = e.regBase ∧ e'.addr = e.addr ∧ e'.len = e.len
      ∧ (∀ x, x < (s.view f).addr + 8 + (s.view f).lengthField.toNat → Memory.read t.mem x = Memory.read s.mem x)
      ∧ ∀ a, a = (s.view f).addr + 8 + (s.view f).lengthField.toNat →
          be32 (Memory.read t.mem a) (Memory.read t.mem (a + 1)) (Memory.read t.mem (a + 2)) (Memory.read t.mem (a + 3))
            = crc32 ((s.view f).chunkCrcInput (s.view f).lengthField.toNat) := by
  have hp : planOf .regenerate (s.view f) e = .ok _ := (planRegenerate_ok_iff (s.view f) e _).2 ⟨hframe, rfl⟩
  have hif : (((s.pop rest).endLoads k e).select k).InFlightAt e f := ⟨hk, hf⟩
  have hstep := step_complete hag hk hf
  rw [outcomeOf_ok_iff.2 ⟨.regenerate, hd, hp⟩] at hstep
  refine ⟨_, _, hstep, rfl, rfl, commit_ok_engine hif _, rfl, rfl, rfl, rfl, fun x hx => ?kept, ?stored⟩
  case kept =>
    refine commit_read_other (s := ((s.pop rest).endLoads k e).select k) hwf fun c hc => ?_
    have := (cellsAt_addr hc).1
    omega
  case stored =>
    rintro a rfl
    exact be32_read_of_regenerate (s := ((s.pop rest).endLoads k e).select k) hwf hp rfl hu k

/-- The acceptance of a word, as a step: the command in flight has the engine's operands, and has noted and read nothing. -/
theorem step_accept_inFlight {s : State} {k : Nat} {e : Engine} {v : HostVal} {rest : List Event} (hs : s.Inv)
    (hk : s.engines[k]? = some e) (hb : e.busy = false)
    (ha : s.agenda = .host (.regWrite (e.regBase + regOffset .cmd) 4 v) :: rest) :
    ∃ t e' g, step s = .next t ∧ t.agenda = rest ∧ t.mem = s.mem ∧ t.memSize = s.memSize ∧ t.engines[k]? = some e'
      ∧ e'.cmd = s.hostValue v ∧ e'.inflight = some g ∧ g.addr = e.addr ∧ g.len = e.len ∧ g.held = [] ∧ g.reads = [] :=
  ⟨_, _, _, step_accept hs hk hb ha, rfl, rfl, rfl, List.getElem?_set_self (List.getElem?_eq_some_iff.1 hk).1, rfl, rfl, rfl,
    rfl, rfl, rfl⟩

/-- Settles O19: the REGENERATE leaves the bytes it has read, and the checksum behind them; the VERIFY is accepted with the same
operands and reads the memory as the REGENERATE left it. -/
theorem verifyAfterRegenerateMatches : Obligations.VerifyAfterRegenerateMatches := by
  intro s k e f rest hs hk hf hd hframe hu hund hag
  obtain ⟨_, haddr, hlen, _⟩ := hs.coherent e (List.mem_of_getElem? hk) f hf
  have hreads := hs.reads e (List.mem_of_getElem? hk) f hf
  obtain ⟨t, a, hst, htag, htm, hta, hidle, hbase, haaddr, halen, hkept, hstored⟩ :=
    step_regenerate hs.memory.1 hag hk hf hd hframe hund
  obtain ⟨u, b, g, htu, huag, humem, hum, hub, hcmd, hg, hgaddr, hglen, hheld, hmade⟩ :=
    step_accept_inFlight (hs.step hst) hta hidle (by rw [htag, hbase]; rfl)
  have hA : (u.view g).addr = (s.view f).addr := congrArg BitVec.toNat (hgaddr.trans (haaddr.trans haddr.symm))
  have hN : (u.view g).len = (s.view f).len := congrArg BitVec.toNat (hglen.trans (halen.trans hlen.symm))
  have hread (site : ReadSite) (x : Nat) (h1 : (s.view f).addr ≤ x)
      (h2 : x < (s.view f).addr + 8 + (s.view f).lengthField.toNat) : (u.view g).read site x = (s.view f).read site x := by
    rw [View.read_of_new (v := u.view g) hmade hheld, View.read_of_unraced (v := s.view f) hreads (hu x h1 (by omega)),
      State.view_mem, humem, hkept x h2]
    rfl
  have hl : (u.view g).lengthField = (s.view f).lengthField := View.lengthField_of_chunk hA hread
  have hframe' : (u.view g).FrameOk := by
    simpa only [View.FrameOk, View.SliceInMem, hA, hN, hl, State.view_memSize, hum, htm] using hframe
  have hcrc : crc32 ((u.view g).chunkCrcInput (u.view g).lengthField.toNat)
      = (u.view g).storedCrcField (u.view g).lengthField.toNat := by
    rw [hl, View.chunkCrcInput_of_chunk hA hread, ← hstored _ rfl, ← humem, View.storedCrcField, hA]
    simp only [View.read32, View.read_of_new (v := u.view g) hmade hheld, State.view_mem]
  have hif : (((u.pop rest).endLoads k b).select k).InFlightAt b g := ⟨hub, hg⟩
  obtain ⟨c, hxv, hcidle, hdone, hmatch, herr, hlength, hcrc'⟩ := exec_verify_of_match hif hframe' hcrc
  have huv : step u = _ := (stepRunsTheDecodedCommand u k b .verify hub (by simp [Engine.busy, hg])
    (hcmd ▸ decode_eq_ok_iff_eq_encode.2 rfl)).1 rest huag
  have hrun := (core_run_succ hst 2).trans ((core_run_succ htu 1).trans
    ((core_run_succ (huv.trans hxv) 0).trans (core_run_zero _)))
  exact ⟨_, c, hrun, rfl, List.getElem?_set_self (List.getElem?_eq_some_iff.1 hub).1, hcidle, hdone, hmatch, herr,
    hlength.trans hl, hcrc'⟩

end Sys2Proof.Machine
end

section
/-! The host's accesses (R12, R210, R214, R223, R224) and the reset of a busy engine (R271), as steps. -/

namespace Sys2Proof.Machine

/-! ### Registers -/

/-- Settles O39: the bases are distinct and multiples of the window's size. -/
theorem windowsAreReachedAtTheirBase : Obligations.WindowsAreReachedAtTheirBase := by
  intro s k e off hs hk hoff
  obtain ⟨_, _, halign, hdistinct⟩ := (WellFormed.parameters_iff _ _).1 hs.parameters
  exact ⟨by simpa using findWindow_of_parameters (n := 0) halign hdistinct hk hoff,
    busTarget_of_inv hs.parameters hk hoff⟩

/-- Settles O40: the step is the acceptance. -/
theorem cmdWriteWhileIdleIsAccepted : Obligations.CmdWriteWhileIdleIsAccepted := by
  intro s k e v rest hs hk hb ha
  exact step_accept hs hk hb ha

theorem Engine.readOffset_regOffset {e : Engine} {r : Reg}
    (h : e.busy = false ∨ r ∈ [.cmd, .status, .irqEn, .addr, .len]) (n : Nat) :
    e.readOffset n (regOffset r) = e.regValue r := by
  simp only [Engine.readOffset, regAt_regOffset]
  refine if_neg fun hdrawn => ?_
  obtain ⟨hb, hr⟩ := Bool.and_eq_true_iff.1 hdrawn
  rcases h with h | h
  · simp [h] at hb
  · have hfixed : ∀ q ∈ [Reg.cmd, .status, .irqEn, .addr, .len], unspecifiedWhileBusy q = false := by decide
    simp [hfixed r h] at hr

/-- Settles O45: the value is drawn for a result register of a busy engine alone. -/
theorem registerReads : Obligations.RegisterReads := by
  intro s k e off dst rest hs hk h4 hoff ha
  refine ⟨_, step_regRead ha (busTarget_of_inv hs.parameters hk hoff h4), ?_, fun hun => ?_⟩
  · rintro r rfl hr
    exact Engine.readOffset_regOffset hr _
  · simp [Engine.readOffset, regAt_unmapped hun]

/-! ### Loads and stores of memory -/

@[simp] theorem State.hostValue_pop (s : State) (rest : List Event) (v : HostVal) : (s.pop rest).hostValue v = s.hostValue v := by
  cases v <;> rfl

/-- Taking note of a store changes an engine in nothing else. -/
@[simp] theorem Engine.withoutNotes_witness (e : Engine) (notes : List StoreNote) :
    (e.witness notes).withoutNotes = e.withoutNotes := by
  rw [Engine.witness_eq]
  simp [Engine.withoutNotes, Function.comp_def]

/-- Settles O49: the cells of the sequence are distinct, byte `i` at `a + i`. -/
theorem hostStores : Obligations.HostStores := by
  rintro s v a bytes rest hwf rfl ha
  have hstep : step s = hostMemWrite (s.hostValue v).toNat bytes (s.pop rest) := by
    rw [step_cons ha]
    simp only [eventStep, hostStep, State.hostValue_pop]
  refine ⟨fun hm => ?inside, fun hm => ?outside⟩
  case inside =>
    refine ⟨(s.pop rest).store (cellsAt (s.hostValue v).toNat bytes), ?_, fun j b hb => ?_, fun x hx => ?_, ?_, rfl⟩
    · rw [hstep, hostMemWrite, State.pop_memSize, if_pos ((inMem_iff _ _ _).2 hm)]
    · exact Memory.read_writeCells_of_mem hwf (cellsAt_nodup _ _) (c := (_, b)) (mem_cellsAt.2 ⟨j, hb, rfl⟩)
    · refine Memory.read_writeCells_of_not_mem hwf _ fun c hc hcx => ?_
      have := cellsAt_addr hc
      omega
    · simp [Function.comp_def]
  case outside => rw [hstep, hostMemWrite, State.pop_memSize, if_neg (mt (inMem_iff _ _ _).1 (Nat.not_le.2 hm))]

/-- Settles O50: the step names the loads of the single bytes, each of which is memory's where no command may write it. -/
theorem hostLoads : Obligations.HostLoads := by
  rintro s va vn a n dst rest rfl rfl ha
  have hstep : step s = hostMemRead s.draws (s.hostValue va).toNat (s.hostValue vn).toNat dst (s.pop rest) := by
    rw [step_cons ha]
    simp only [eventStep, hostStep, State.hostValue_pop]
  refine ⟨fun hm => ⟨?_, State.length_hostLoads _ _ _ _, fun j hj => ?_, hostLoads_of_unwritten⟩, fun hm => ?_⟩
  · rw [hstep, hostMemRead, State.pop_memSize, if_pos ((inMem_iff _ _ _).2 hm), State.hostLoads_pop]
    rfl
  · rw [getElem?_hostLoads, if_pos hj]
  · rw [hstep, hostMemRead, State.pop_memSize, if_neg (mt (inMem_iff _ _ _).1 (Nat.not_le.2 hm))]

/-! ### Waiting -/

/-- The engine after its completion step, whatever its command came to (R222). -/
theorem outcome_engine {s : State} {k : Nat} {e : Engine} (hk : s.engines[k]? = some e) (f : InFlight) :
    ∃ e', (((s.endLoads k e).select k).commit k e f (s.outcomeOf e f)).engines[k]? = some e' ∧ e'.busy = false
      ∧ e'.done = true ∧ e'.regBase = e.regBase ∧ e'.cmd = e.cmd ∧ e'.addr = e.addr ∧ e'.len = e.len := by
  have hlt : k < s.engines.length := (List.getElem?_eq_some_iff.1 hk).1
  cases hp : s.outcomeOf e f with
  | error c => exact ⟨e.endCommand c, List.getElem?_set_self hlt, rfl, rfl, rfl, rfl, rfl, rfl⟩
  | ok fin =>
    obtain ⟨_, _, hp⟩ := outcomeOf_ok_iff.1 hp
    obtain ⟨hbase, hcmd, haddr, hlen, _⟩ := planOf_keeps hp
    refine ⟨fin.regs.endCommand fin.code, ?_, rfl, rfl, hbase, hcmd, haddr, hlen⟩
    rw [commit_ok, getElem?_setEngine_store]
    simp [hlt]

theorem commit_agenda (s : State) (k : Nat) (e : Engine) (f : InFlight) (p : Plan) : (s.commit k e f p).agenda = s.agenda := by
  cases p <;> rfl

/-- A scheduled completion of a command in flight, by what it leaves of the engine. -/
theorem step_complete_engine {s : State} {k : Nat} {e : Engine} {rest : List Event} (ha : s.agenda = .complete k :: rest)
    (hk : s.engines[k]? = some e) (hb : e.busy = true) :
    ∃ t e', step s = .next t ∧ t.agenda = rest ∧ t.engines[k]? = some e' ∧ e'.busy = false ∧ e'.done = true
      ∧ e'.regBase = e.regBase := by
  obtain ⟨f, hf⟩ := Option.isSome_iff_exists.1 hb
  obtain ⟨e', hk', hidle, hdone, hbase, _⟩ := outcome_engine (s := s.pop rest) hk f
  exact ⟨_, e', step_complete ha hk hf, commit_agenda _ _ _ _ _, hk', hidle, hdone, hbase⟩

/-- A poll that shows BUSY = 1. -/
theorem step_wait_busy {s : State} {k : Nat} {e : Engine} {rest : List Event} (hs : s.Inv) (hk : s.engines[k]? = some e)
    (ha : s.agenda = .host (.wait e.regBase) :: rest) (hb : e.busy = true) :
    ∃ t, step s = .next t ∧ t.agenda = .complete k :: .host (.wait e.regBase) :: rest ∧ t.engines[k]? = some e :=
  ⟨_, step_wait hs.parameters hk ha, by simp [hb], hk⟩

/-- A poll that shows BUSY = 0. -/
theorem step_wait_idle {s : State} {k : Nat} {e : Engine} {rest : List Event} (hs : s.Inv) (hk : s.engines[k]? = some e)
    (ha : s.agenda = .host (.wait e.regBase) :: rest) (hb : e.busy = false) :
    step s = .next { s with vars := Sparse.set 0 s.vars 0 e.status, agenda := rest, draws := s.draws + 1 } := by
  rw [step_wait hs.parameters hk ha, hb]
  rfl

/-- Settles O51: a poll that shows BUSY = 0 is the last; after one that shows BUSY = 1 the engine completes, and the next poll
is the last. -/
theorem waitEndsWithBusyClear : Obligations.WaitEndsWithBusyClear := by
  intro s k e rest hs hk ha
  refine ⟨step_wait_idle hs hk ha, fun hb => ?busy⟩
  case busy =>
    obtain ⟨t, hst, htag, htk⟩ := step_wait_busy hs hk ha hb
    obtain ⟨u, e', htu, huag, huk, hidle, hdone, hbase⟩ := step_complete_engine htag htk hb
    have hinv : u.Inv := (hs.step hst).step htu
    have huw := step_wait_idle hinv huk (by rw [huag, hbase]) hidle
    refine ⟨_, e', (core_run_succ hst 2).trans ((core_run_succ htu 1).trans ((core_run_succ huw 0).trans (core_run_zero _))),
      rfl, huk, hidle, hdone, ?_⟩
    exact (Sparse.get_set hinv.hostData.1 0 e'.status 0).trans (if_pos rfl)

/-! ### Reset -/

/-- A command plans its stores at distinct addresses. -/
theorem plannedBy_nodup (s : State) (e : Engine) : ((s.plannedBy e).map (·.1)).Nodup := by
  unfold State.plannedBy
  split
  · exact List.nodup_nil
  · split
    · exact List.nodup_nil
    · split
      · exact List.nodup_nil
      · rename_i hp
        exact (planOf_writes hp).1

section
variable {s : State} {e : Engine} {f : InFlight} (hf : e.inflight = some f) (n : Nat)
include hf

theorem abandoned_addrs : (s.abandoned n e).map (·.1) = (s.plannedBy e).map (·.1) := by
  simp only [State.abandoned, hf, List.map_map]
  refine List.map_congr_left fun c _ => ?_
  simp only [Function.comp]
  split <;> rfl

/-- The bytes that an abandoned command leaves, by the bytes it would have written (R271). -/
theorem cellValue?_abandoned (a : Nat) :
    cellValue? (s.abandoned n e) a = (cellValue? (s.plannedBy e) a).map fun v =>
      if Config.resetChoice n a then v else f.valueBefore s.mem a := by
  simp only [State.abandoned, hf]
  exact cellValue?_map_choose (Config.resetChoice n) (f.valueBefore s.mem) _ a

/-- Every byte of memory after the reset of a busy engine. -/
theorem resetEngine_read {k : Nat} (hwf : Memory.wf s.mem) (hk : s.engines[k]? = some e) (a : Nat) :
    Memory.read (s.resetEngine n k).mem a = (cellValue? (s.abandoned n e) a).getD (Memory.read s.mem a) := by
  rw [State.resetEngine_of_getElem? hk]
  exact Memory.read_writeCells hwf (by rw [abandoned_addrs hf]; exact plannedBy_nodup s e) a

end

/-- Settles O53: what the abandoned command leaves is a store of its planned bytes, each with one of the two values. -/
theorem resetOfABusyEngineAbandonsTheCommand : Obligations.ResetOfABusyEngineAbandonsTheCommand := by
  intro s k e f rest hwf hk hf ha
  have hread := resetEngine_read (s := s.pop rest) hf s.draws hwf hk
  refine ⟨_, _, step_reset ha, State.resetEngine_engine (s := s.pop rest) hk s.draws, rfl, rfl,
    fun r hr => Engine.regValue_reset _ hr, rfl, fun a v hv => ?written, fun a hv => ?kept, ?frame⟩
  case written =>
    rw [hread, cellValue?_abandoned hf, show cellValue? ((s.pop rest).plannedBy e) a = some v from hv]
    simp only [Option.map_some, Option.getD_some]
    split
    · exact .inl rfl
    · exact .inr rfl
  case kept =>
    rw [hread, cellValue?_abandoned hf, show cellValue? ((s.pop rest).plannedBy e) a = none from hv]
    rfl
  case frame =>
    rw [State.resetEngine_of_getElem? (s := s.pop rest) hk]
    exact ⟨rfl, by simp, fun j g hj hg => setEngine_store_other (s := (s.pop rest).endLoads k e) hj hg _ _⟩

end Sys2Proof.Machine
end

section
/-! What a step can do to one engine (R32, R96, R220, R251), said once, and what follows for the registers and for the beginning
of a command. -/

namespace Sys2Proof.Machine

/-- The changes that a step taking the event `ev` (or finding none) can make to engine `k`, which is `e`. -/
inductive EngineChange (ev : Option Event) (s : State) (k : Nat) (e : Engine) : Engine → Prop
  /-- None, but that a command in flight may take note of another agent's store. -/
  | noted (notes : List StoreNote) : EngineChange ev s k e (e.witness notes)
  /-- Its command, or the illegal word, completes. -/
  | ended {e' : Engine} (hidle : e'.busy = false) (hcmd : e'.cmd = e.cmd) (haddr : e'.addr = e.addr) (hlen : e'.len = e.len) :
      EngineChange ev s k e e'
  /-- The host writes one of its registers. -/
  | written (a width n off : Nat) (v : HostVal) (hev : ev = some (.host (.regWrite a width v)))
      (ht : s.busTarget a width = .ok (k, e, off)) : EngineChange ev s k e (e.writeOffset n off (s.hostValue v))
  /-- It makes a store early. -/
  | storing (f : InFlight) (hf : e.inflight = some f) (qs : List (ReadSite × Nat)) (notes : List StoreNote) :
      EngineChange ev s k e ((e.withReads s f qs).witness notes)
  /-- It is reset. -/
  | reset (hev : ev = some (.reset k)) : EngineChange ev s k e (Engine.reset e.regBase)

theorem EngineChange.same {ev : Option Event} {s : State} {k : Nat} {e : Engine} : EngineChange ev s k e e := by
  simpa using EngineChange.noted (ev := ev) (s := s) (k := k) (e := e) []

/-- Every change of a state makes one of these to each engine. -/
theorem Change.engine {s t : State} {ev : Option Event} (h : Change ev s t) {k : Nat} {e : Engine}
    (hk : s.engines[k]? = some e) : ∃ e', t.engines[k]? = some e' ∧ EngineChange ev s k e e' := by
  have hlt : k < s.engines.length := (List.getElem?_eq_some_iff.1 hk).1
  cases h with
  | none | hostVar | hostBuf => exact ⟨e, hk, .same⟩
  | complete j g f _ hj _ =>
    by_cases hjk : k = j
    · subst hjk
      obtain rfl := Option.some.inj (hk.symm.trans hj)
      obtain ⟨e', hk', hidle, _, _, hcmd, haddr, hlen⟩ := outcome_engine hk f
      exact ⟨e', hk', .ended hidle hcmd haddr hlen⟩
    · obtain ⟨e', cells, hcommit⟩ := commit_eq_store ((s.endLoads j g).select j) j g f (s.outcomeOf g f)
      refine ⟨_, ?_, .noted (storeNotes s.mem false cells)⟩
      rw [hcommit, getElem?_setEngine_store, if_neg hjk]
      exact congrArg (Option.map _) hk
  | regWrite a width v j g n off hev ht =>
    by_cases hjk : j = k
    · subst hjk
      obtain rfl := Option.some.inj (hk.symm.trans (busTarget_ok ht).2.2.1)
      exact ⟨_, List.getElem?_set_self hlt, .written a width n off v hev ht⟩
    · exact ⟨e, (List.getElem?_set_ne hjk).trans hk, .same⟩
  | hostStore => exact ⟨_, by rw [State.store_engines, List.getElem?_map, hk]; rfl, .noted _⟩
  | storeEarly j a _ =>
    rcases storeEarly_cases s j a with ⟨hs, _⟩ | ⟨g, f, qs, v, hj, hf, _, _, _, hs⟩
    · rw [hs]; exact ⟨e, hk, .same⟩
    · rw [hs]
      by_cases hjk : j = k
      · subst hjk
        obtain rfl := Option.some.inj (hk.symm.trans hj)
        exact ⟨_, List.getElem?_set_self (by simpa using hlt), .storing f hf qs _⟩
      · refine ⟨_, (List.getElem?_set_ne hjk).trans ?_, .noted (storeNotes s.mem false [(a, v)])⟩
        rw [State.store_engines, List.getElem?_map, hk]; rfl
  | reset n j hev =>
    by_cases hjk : k = j
    · subst hjk
      exact ⟨_, State.resetEngine_engine hk n, .reset hev⟩
    · cases hj : s.engines[j]? with
      | none => exact ⟨e, by simpa [State.resetEngine, hj] using hk, .same⟩
      | some g =>
        refine ⟨_, ?_, .noted (storeNotes s.mem false (s.abandoned n g))⟩
        rw [State.resetEngine_of_getElem? hj, getElem?_setEngine_store, if_neg hjk]
        exact congrArg (Option.map _) hk

theorem step_engine {s t : State} (h : step s = .next t) {k : Nat} {e : Engine} (hk : s.engines[k]? = some e) :
    ∃ e', t.engines[k]? = some e' ∧ ((s.agenda = [] ∧ EngineChange none s k e e')
      ∨ ∃ ev rest, s.agenda = ev :: rest ∧ EngineChange (some ev) (s.pop rest) k e e') := by
  rcases step_change h with ⟨ha, hc⟩ | ⟨ev, rest, ha, hc⟩
  · obtain ⟨e', hk', he⟩ := hc.engine hk
    exact ⟨e', hk', .inl ⟨ha, he⟩⟩
  · obtain ⟨e', hk', he⟩ := hc.engine (s := s.pop rest) hk
    exact ⟨e', hk', .inr ⟨ev, rest, ha, he⟩⟩

/-! ### CMD, ADDR and LEN -/

theorem EngineChange.keepsOperands {ev : Option Event} {s : State} {k : Nat} {e e' : Engine} (h : EngineChange ev s k e e')
    (hw : ∀ a w v, ev ≠ some (.host (.regWrite a w v))) (hr : ∀ j, ev ≠ some (.reset j)) :
    e'.cmd = e.cmd ∧ e'.addr = e.addr ∧ e'.len = e.len := by
  cases h with
  | noted notes => simp
  | ended _ hcmd haddr hlen => exact ⟨hcmd, haddr, hlen⟩
  | written a w _ _ v hev => exact absurd hev (hw a w v)
  | storing => simp
  | reset hev => exact absurd hev (hr k)

/-- Settles O58, by the changes that a step can make to the engine. -/
theorem onlyTheHostWritesCmdAddrAndLen : Obligations.OnlyTheHostWritesCmdAddrAndLen := by
  intro s t k e h hk hev
  obtain ⟨e', hk', ⟨_, hc⟩ | ⟨ev, rest, ha, hc⟩⟩ := step_engine h hk
  · exact ⟨e', hk', hc.keepsOperands nofun nofun⟩
  · obtain ⟨hw, hr⟩ := hev ev rest ha
    exact ⟨e', hk', hc.keepsOperands (fun a w v he => hw a w v (Option.some.inj he)) fun j he => hr j (Option.some.inj he)⟩

/-! ### The beginning of a command -/

/-- Only a write of CMD makes an idle engine busy (R214). -/
theorem eq_cmd_of_writeOffset_busy {e : Engine} (hb : e.busy = false) {n off : Nat} {v : Word}
    (h : (e.writeOffset n off v).busy = true) : off = regOffset .cmd := by
  have hf : e.inflight = none := by simpa [Engine.busy] using hb
  unfold Engine.writeOffset at h
  split at h
  · simp [hb] at h
  · rename_i r hr
    rw [regAt_some hr]
    cases r
    case cmd => rfl
    all_goals simp [Engine.writeReg, Engine.writeOperand, Engine.busy, hf] at h

theorem EngineChange.beginsCommand {ev : Option Event} {s : State} {k : Nat} {e e' : Engine} (h : EngineChange ev s k e e')
    (hb : e.busy = false) (hb' : e'.busy = true) :
    ∃ v, ev = some (.host (.regWrite (e.regBase + regOffset .cmd) 4 v)) ∧ e'.cmd = s.hostValue v := by
  cases h with
  | noted notes => simp [hb] at hb'
  | ended hidle => simp [hidle] at hb'
  | written a w n off v hev ht =>
    obtain rfl := eq_cmd_of_writeOffset_busy hb hb'
    obtain ⟨rfl, _, _, rfl⟩ := busTarget_ok ht
    exact ⟨v, hev, by rw [writeOffset_cmd_of_idle hb, Engine.accept_cmd]⟩
  | storing f hf => simp [Engine.busy, hf] at hb
  | reset => simp [Engine.busy, Engine.reset] at hb'

/-- Settles O59, by the changes that a step can make to the engine. -/
theorem onlyACmdWriteBeginsACommand : Obligations.OnlyACmdWriteBeginsACommand := by
  intro s t k e e' h hk hb hk' hb'
  obtain ⟨e'', hk'', hc⟩ := step_engine h hk
  obtain rfl := Option.some.inj (hk''.symm.trans hk')
  rcases hc with ⟨_, hc⟩ | ⟨ev, rest, ha, hc⟩
  · obtain ⟨v, hev, _⟩ := hc.beginsCommand hb hb'
    simp at hev
  · obtain ⟨v, hev, hcmd⟩ := hc.beginsCommand hb hb'
    exact ⟨v, rest, ha.trans (by rw [Option.some.inj hev]; rfl), hcmd.trans (State.hostValue_pop s rest v)⟩

end Sys2Proof.Machine
end

section
/-! Stores made before completion (R61, R222): they belong to the command, and what a command will write stays so until it
ends. -/

namespace Sys2Proof.Machine

/-- BUSY is all that the registers show of the command in flight (R60 apart). -/
theorem Engine.regValue_of_inflight {e : Engine} {o : Option InFlight} (h : o.isSome = e.busy) (r : Reg) :
    Engine.regValue { e with inflight := o } r = e.regValue r := by
  cases r
  case status => simp [Engine.regValue, Engine.status, Engine.busy, h]
  all_goals rfl

/-- A command that will write a byte completes with OK, and leaves its value there unless another agent has stored to it. -/
theorem exec_of_willWrite {s : State} {e : Engine} {a : Nat} {p : Byte → Prop} {i : Instr} (hwf : Memory.wf s.mem)
    (hk : s.engines[s.current]? = some e) (h : e.WillWrite s.memSize a p) (hd : decode e.cmd = .ok i) :
    ∃ t e' f v, exec i s = .next t ∧ e.inflight = some f ∧ t.engines[s.current]? = some e' ∧ e'.busy = false ∧ e'.err = .ok
      ∧ p v ∧ (f.racedAt a = false → Memory.read t.mem a = v)
      ∧ (Memory.read t.mem a = v ∨ Memory.read t.mem a = Memory.read s.mem a) := by
  obtain ⟨f, j, fin, v, hf, hd', hp, hcode, hv, hpv⟩ := h.plan
  cases hd.symm.trans hd'
  obtain ⟨hun, hany⟩ := commit_read_written (k := s.current) (e := e) (f := f) hwf (planOf_writes hp).1 (mem_of_cellValue? hv)
  exact ⟨_, _, f, v, exec_of_plan ⟨hk, hf⟩ hp, hf, commit_ok_engine ⟨hk, hf⟩ fin, rfl, hcode, hpv, hun, hany⟩

theorem outcomeOf_of_decode {s : State} {e : Engine} {i : Instr} (hd : decode e.cmd = .ok i) (f : InFlight) :
    s.outcomeOf e f = planOf i (s.view f) e := by
  simp only [State.outcomeOf, hd]

/-- What a command will write it still will after a change that is no reset of its engine, or it has ended so. -/
theorem Change.willWrite {s t : State} {ev : Option Event} (hc : Change ev s t) {k a : Nat} {e : Engine} {p : Byte → Prop}
    (hwf : Memory.wf s.mem) (hk : s.engines[k]? = some e) (hev : ev ≠ some (.reset k)) (h : e.WillWrite s.memSize a p) :
    ∃ e', t.engines[k]? = some e' ∧ (e'.WillWrite t.memSize a p
      ∨ e'.busy = false ∧ e'.err = .ok ∧ ∃ v, p v ∧ ∀ f, e.inflight = some f →
          (f.racedAt a = false → Memory.read t.mem a = v)
          ∧ (Memory.read t.mem a = v ∨ Memory.read t.mem a = Memory.read s.mem a)) := by
  obtain ⟨f, i, hf, hd, _⟩ := id h
  rcases hc.inFlight hk hf hev with rfl | ⟨e', hk', hcont⟩
  · obtain ⟨t, e', g, v, hx, hg, hk', hidle, hok, hpv, hun, hany⟩ :=
      exec_of_willWrite (s := (s.endLoads k e).select k) hwf hk h hd
    have hif : ((s.endLoads k e).select k).InFlightAt e f := ⟨hk, hf⟩
    cases hx.symm.trans (exec_inFlight hif)
    rw [outcomeOf_of_decode hd]
    refine ⟨e', hk', .inr ⟨hidle, hok, v, hpv, fun g' hg' => ?_⟩⟩
    obtain rfl := Option.some.inj (hg.symm.trans hg')
    exact ⟨hun, hany⟩
  · rw [hc.memSize]
    exact ⟨e', hk', .inl (h.mono hcont)⟩

theorem storeEarly_of_unplanned {s : State} {k a : Nat} {e : Engine} (hk : s.engines[k]? = some e)
    (hv : cellValue? (s.plannedBy e) a = none) : s.storeEarly k a = s := by
  simp [State.storeEarly, hk, hv]

/-- An early store that the command has to make, by what it leaves of the engine and the memory. -/
theorem storeEarly_of_planned {s : State} {k a : Nat} {e : Engine} (hk : s.engines[k]? = some e)
    {v : Byte} (hv : cellValue? (s.plannedBy e) a = some v) :
    ∃ t f f', s.storeEarly k a = t ∧ t.memSize = s.memSize ∧ t.mem = Memory.write s.mem a v ∧ e.inflight = some f
      ∧ f'.racedAt a = f.racedAt a ∧ t.engines[k]? = some { e with inflight := some f' }
      ∧ Engine.WillWrite s.memSize { e with inflight := some f' } a (· = v) := by
  rcases storeEarly_cases s k a with ⟨_, hnone⟩ | ⟨g, f, qs, w, hj, hf, hw, _, hwill, hs⟩
  · simp [hnone e hk] at hv
  obtain rfl := Option.some.inj (hk.symm.trans hj)
  obtain rfl := Option.some.inj (hv.symm.trans hw)
  have hlt : k < s.engines.length := (List.getElem?_eq_some_iff.1 hk).1
  refine ⟨_, f, _, hs, rfl, rfl, hf, ?_, List.getElem?_set_self (by simpa using hlt), hwill.witness _⟩
  exact (InFlight.racedAt_note ((s.view f).makeReads qs) s.mem true _ a).trans (by simp [InFlight.racedAt])

/-- Settles O60: an early store makes the reads that settle its value; from then on, and from any state in which a value is
settled, the command can only end with it, or be reset. -/
theorem earlyStoresBelongToTheCommand : Obligations.EarlyStoresBelongToTheCommand := by
  refine ⟨fun s k a e rest hs hk ha => ?stored, fun s t k a e p hwf hk h hnr hw => ?kept⟩
  case stored =>
    have hstep : step s = .next ((s.pop rest).storeEarly k a) := step_cons ha
    cases hv : cellValue? (s.plannedBy e) a with
    | none =>
      have hsame : (s.pop rest).storeEarly k a = s.pop rest := storeEarly_of_unplanned (s := s.pop rest) hk hv
      rw [hsame] at hstep
      exact ⟨_, e, hstep, hk, fun _ => rfl, fun _ _ => rfl, nofun, fun _ => rfl⟩
    | some v =>
      obtain ⟨t, f, f', hs', hm, hmem, hf, hraced, hk', hwill⟩ := storeEarly_of_planned (s := s.pop rest) hk hv
      have hwf : Memory.wf (s.pop rest).mem := hs.memory.1
      have hread (x : Nat) : Memory.read t.mem x = if x = a then v else Memory.read s.mem x := by
        rw [hmem]
        exact Memory.read_write hwf a v x
      rw [hs'] at hstep
      refine ⟨t, _, hstep, hk', Engine.regValue_of_inflight (by simp [Engine.busy, hf]), fun x hx => (hread x).trans (if_neg hx),
        ?_, nofun⟩
      rintro w ⟨⟩
      refine ⟨(hread a).trans (if_pos rfl), hm ▸ hwill, fun i hd => ?_⟩
      obtain ⟨u, e'', g, w, hx, hg, hu, _, hok, rfl, hun, _⟩ := exec_of_willWrite (s := t.select k)
        (hmem ▸ Memory.write_wf hwf a v) hk' (hm ▸ hwill) hd
      obtain rfl := Option.some.inj hg
      refine ⟨u, hx, e'', hu, hok, fun g hg hr => hun ?_⟩
      rw [hraced, Option.some.inj (hf.symm.trans hg), hr]
  case kept =>
    rcases step_change h with ⟨_, hc⟩ | ⟨ev, rest, ha, hc⟩
    · exact hc.willWrite hwf hk nofun hw
    · exact hc.willWrite (s := s.pop rest) hwf hk (fun hev => hnr rest (by rw [ha, Option.some.inj hev])) hw

end Sys2Proof.Machine
end

section
/-! Host loads of bytes that commands may write (R86 (b), R223): what a step does to the loaded bytes. -/

namespace Sys2Proof.Machine

/-- The next step ends the command of engine `k`: it completes, scheduled or not, or its engine is reset. -/
def State.Ends (s : State) (k : Nat) : Prop :=
  (∃ rest, s.agenda = .complete k :: rest ∨ s.agenda = .reset k :: rest) ∨ s.agenda = [] ∧ firstBusy s.engines 0 = some k

theorem commit_bufs (s : State) (k : Nat) (e : Engine) (f : InFlight) (p : Plan) : (s.commit k e f p).bufs = s.bufs := by
  cases p <;> rfl

theorem resetEngine_bufs {s : State} {k : Nat} {e : Engine} (hk : s.engines[k]? = some e) (n : Nat) :
    (s.resetEngine n k).bufs = s.endedLoads k e := by
  rw [State.resetEngine_of_getElem? hk]
  rfl

/-- The step that ends a command settles the loads that waited for it. -/
theorem step_bufs_of_ends {s t : State} {k : Nat} {e : Engine} {f : InFlight} (hk : s.engines[k]? = some e)
    (hf : e.inflight = some f) (hend : s.Ends k) (h : step s = .next t) : t.bufs = s.endedLoads k e := by
  obtain ⟨rest, ha | ha⟩ | ⟨ha, hfirst⟩ := hend
  · cases h.symm.trans (step_complete ha hk hf)
    exact commit_bufs _ _ _ _ _
  · cases h.symm.trans (step_reset ha)
    exact resetEngine_bufs (s := s.pop rest) hk s.draws
  · rw [step_nil_some ha hfirst, completionStep_busy hk hf] at h
    cases h
    exact commit_bufs _ _ _ _ _

/-- Everything a step can do to the loaded bytes: nothing; the end of a command; or a load. -/
theorem step_bufs {s t : State} (h : step s = .next t) :
    t.bufs = s.bufs ∨ (∃ k e, s.engines[k]? = some e ∧ e.busy = true ∧ s.Ends k ∧ t.bufs = s.endedLoads k e)
      ∨ ∃ a n name bytes rest, s.agenda = .host (.memRead a n name) :: rest ∧ t.bufs = Sparse.set [] s.bufs name bytes := by
  by_cases hends : ∃ k e, s.engines[k]? = some e ∧ e.busy = true ∧ s.Ends k
  · obtain ⟨k, e, hk, hb, hend⟩ := hends
    obtain ⟨f, hf⟩ := Option.isSome_iff_exists.1 hb
    exact .inr (.inl ⟨k, e, hk, hb, hend, step_bufs_of_ends hk hf hend h⟩)
  rcases step_change h with ⟨ha, hc⟩ | ⟨ev, rest, ha, hc⟩
  · cases hfirst : firstBusy s.engines 0 with
    | none => cases h.symm.trans (step_nil_none ha hfirst); exact .inl rfl
    | some k =>
      obtain ⟨e, f, hk, hf⟩ := exists_of_firstBusy hfirst
      exact absurd ⟨k, e, hk, by simp [Engine.busy, hf], .inr ⟨ha, hfirst⟩⟩ hends
  · cases hc with
    | none | hostVar | regWrite | hostStore => exact .inl rfl
    | hostBuf a n d _ hev => exact .inr (.inr ⟨a, n, d, _, rest, by rw [ha, Option.some.inj hev], rfl⟩)
    | storeEarly k a =>
      rcases storeEarly_cases (s.pop rest) k a with ⟨hs, _⟩ | ⟨_, _, _, _, _, _, _, _, _, hs⟩ <;> exact .inl (by rw [hs]; rfl)
    | complete k e f hev hk hf =>
      have hev : ev = .complete k := by simpa using hev
      exact absurd ⟨k, e, hk, by simp [Engine.busy, hf], .inl ⟨rest, .inl (hev ▸ ha)⟩⟩ hends
    | reset n k hev =>
      cases hk : s.engines[k]? with
      | none => exact .inl (by simp [State.resetEngine, hk])
      | some e =>
        have hb : e.busy = false := Bool.eq_false_iff.2 fun hb =>
          hends ⟨k, e, hk, hb, .inl ⟨rest, .inr (Option.some.inj hev ▸ ha)⟩⟩
        rw [State.resetEngine_of_idle (s := s.pop rest) hk hb]
        exact .inl rfl

/-- A byte that the host has loaded, when the command of a busy engine ends. -/
theorem getElem?_endedLoads {s : State} {k name j : Nat} {e : Engine} (hb : e.busy = true) {x : LoadedByte}
    (hx : (Sparse.get [] s.bufs name)[j]? = some x) :
    (Sparse.get [] (s.endedLoads k e) name)[j]? = some (x.commandEnds k fun a => s.allowedBy a e) := by
  rw [get_endedLoads hb, List.getElem?_map, hx, Option.map_some]

theorem LoadedByte.commandEnds_of_waiting {p : PendingLoad} {k : Nat} (h : k ∈ p.waits) (al : Nat → List (List Byte)) :
    (LoadedByte.pending p).commandEnds k al = PendingLoad.close
      { p with waits := p.waits.filter fun j => j ≠ k, allowed := p.allowed ++ al p.addr } := by
  simp [LoadedByte.commandEnds, h]

theorem LoadedByte.commandEnds_of_not_waiting {p : PendingLoad} {k : Nat} (h : k ∉ p.waits) (al : Nat → List (List Byte)) :
    (LoadedByte.pending p).commandEnds k al = .pending p := by
  simp [LoadedByte.commandEnds, h]

/-- A load as it is made: it waits for the commands in flight that may write the byte, and no other will write it. -/
theorem hostLoad_eq (s : State) (n a : Nat) :
    s.hostLoad n a = if s.mayWriters a = [] then .known (Memory.read s.mem a)
      else .pending { event := n, addr := a, seen := Memory.read s.mem a, waits := s.mayWriters a, allowed := [] } := by
  rw [State.hostLoad, PendingLoad.close_eq, PendingLoad.value_of_unwritten rfl]

/-- What a command will not write it will not after a change that is no reset of its engine, or it has ended without. -/
theorem Change.willNotWrite {s t : State} {ev : Option Event} (hc : Change ev s t) {k a : Nat} {e : Engine}
    (hwf : Memory.wf s.mem) (hk : s.engines[k]? = some e) (hev : ev ≠ some (.reset k)) (h : e.WillNotWrite s.memSize a) :
    ∃ e', t.engines[k]? = some e' ∧ (e'.WillNotWrite t.memSize a
      ∨ e'.busy = false ∧ Memory.read t.mem a = Memory.read s.mem a) := by
  obtain ⟨f, hf, _⟩ := id h
  rcases hc.inFlight hk hf hev with rfl | ⟨e', hk', hcont⟩
  · obtain ⟨e', hk', hidle, _⟩ := outcome_engine hk f
    refine ⟨e', hk', .inr ⟨hidle, ?_⟩⟩
    cases hp : s.outcomeOf e f with
    | error c => rfl
    | ok fin =>
      obtain ⟨i, hd, hp⟩ := outcomeOf_ok_iff.1 hp
      exact commit_read_other (s := (s.endLoads k e).select k) hwf (cellValue?_none_iff.1 (h.plan hf hd hp))
  · rw [hc.memSize]
    exact ⟨e', hk', .inl (h.mono hcont)⟩

/-- Settles O36: a load waits for the commands that may write the byte; their ends alone change it; and its value is the draw
that R86 (b) allows. -/
theorem hostLoadReturnsAnAllowedValue : Obligations.HostLoadReturnsAnAllowedValue := by
  refine ⟨fun s n a => ?load, fun s t name j p hs h hp hname => ⟨fun k e f hw hk hf hend => ?ends, fun hnone => ?stays⟩,
    fun p => ⟨PendingLoad.value_of_unwritten, PendingLoad.value_allowed⟩, fun s t k a e hwf hk h hnr hw => ?unwritten⟩
  case load =>
    refine ⟨s.mayWriters a, hostLoad_eq s n a, fun k hk => ?_, fun k e hk hb hnot => ?_⟩
    · obtain ⟨e, he, hm⟩ := mem_mayWriters.1 hk
      exact ⟨e, he, mayWriteByte_busy hm⟩
    · exact willNotWrite_of_mayWriteByte hb (Bool.eq_false_iff.2 fun hm => hnot (mem_mayWriters.2 ⟨e, hk, hm⟩))
  case ends =>
    have hb : e.busy = true := by simp [Engine.busy, hf]
    refine ⟨{ p with waits := p.waits.filter fun j => j ≠ k, allowed := p.allowed ++ s.allowedBy p.addr e }, rfl, rfl, rfl, rfl,
      fun hv => ?_, fun v hv => ?_, ?_⟩
    · simp [allowedBy_of_unplanned hv]
    · simp [allowedBy_of_planned hf hv]
    · rw [step_bufs_of_ends hk hf hend h, getElem?_endedLoads hb hp, LoadedByte.commandEnds_of_waiting hw, PendingLoad.close_eq]
  case stays =>
    rcases step_bufs h with hbufs | ⟨k, e, hk, hb, hend, hbufs⟩ | ⟨a, n, name', bytes, rest, ha, hbufs⟩
    · rw [hbufs, hp]
    · have hnot : k ∉ p.waits := fun hw => by
        obtain ⟨hag, hfirst⟩ := hnone k hw
        obtain ⟨rest, ha | ha⟩ | ⟨ha, hf⟩ := hend
        · exact (hag rest).1 ha
        · exact (hag rest).2 ha
        · exact hfirst ha hf
      rw [hbufs, getElem?_endedLoads hb hp, LoadedByte.commandEnds_of_not_waiting hnot]
    · have hne : name ≠ name' := fun hn => hname a n rest (hn ▸ ha)
      rw [hbufs, Sparse.get_set hs.hostData.2, if_neg hne, hp]
  case unwritten =>
    rcases step_change h with ⟨_, hc⟩ | ⟨ev, rest, ha, hc⟩
    · exact hc.willNotWrite hwf hk nofun hw
    · exact hc.willNotWrite (s := s.pop rest) hwf hk (fun hev => hnr rest (by rw [ha, Option.some.inj hev])) hw

end Sys2Proof.Machine
end

section
/-! The completion of every accepted command (R221, R283, R284). A completion step leaves one command fewer in flight; any other
step takes an event off the agenda, but for a poll of a WAIT, which is followed by a completion. -/

namespace Sys2Proof.Machine

/-! ### One completion -/

/-- The parameters, the host's variables and the names of its byte sequences are the same. -/
structure State.SameSetup (s t : State) : Prop where
  regBases : t.engines.map Engine.regBase = s.engines.map Engine.regBase
  memSize : t.memSize = s.memSize
  vars : t.vars = s.vars
  bufNames : t.bufs.map (·.1) = s.bufs.map (·.1)

theorem State.SameSetup.refl (s : State) : s.SameSetup s := ⟨rfl, rfl, rfl, rfl⟩

theorem State.SameSetup.trans {s t u : State} (h : s.SameSetup t) (h' : t.SameSetup u) : s.SameSetup u :=
  ⟨h'.regBases.trans h.regBases, h'.memSize.trans h.memSize, h'.vars.trans h.vars, h'.bufNames.trans h.bufNames⟩

/-- The commit of a command in flight leaves one command fewer. -/
theorem commit_inFlightCount {s : State} {k : Nat} {e : Engine} {f : InFlight} (hk : s.engines[k]? = some e)
    (hf : e.inflight = some f) (p : Plan) : (s.commit k e f p).inFlightCount + 1 = s.inFlightCount := by
  have hb : e.busy = true := by simp [Engine.busy, hf]
  cases p with
  | error c => exact busyCount_set hk hb (e.busy_endCommand c)
  | ok fin =>
    rw [commit_ok, State.inFlightCount, State.store_engines, busyCount_witness]
    exact busyCount_set hk hb (fin.regs.busy_endCommand fin.code)

theorem commit_vars (s : State) (k : Nat) (e : Engine) (f : InFlight) (p : Plan) : (s.commit k e f p).vars = s.vars := by
  cases p <;> rfl

/-- Every completion step of a busy engine answers a next state, with one command fewer in flight. -/
theorem completionStep_progress {s : State} {k : Nat} {e : Engine} {f : InFlight} (hk : s.engines[k]? = some e)
    (hf : e.inflight = some f) :
    ∃ t, completionStep k s = .next t ∧ t.agenda = s.agenda ∧ t.inFlightCount + 1 = s.inFlightCount ∧ s.SameSetup t := by
  have hstep := completionStep_busy hk hf
  have hc := completionStep_change (.inl rfl) hstep
  exact ⟨_, hstep, commit_agenda _ _ _ _ _, commit_inFlightCount (s := (s.endLoads k e).select k) hk hf _, hc.regBase,
    hc.memSize, commit_vars _ _ _ _ _, by rw [commit_bufs]; exact endedLoads_names s k e⟩

/-! ### The end of a run -/

theorem inFlightCount_eq_zero_iff {s : State} : s.inFlightCount = 0 ↔ ∀ e ∈ s.engines, e.busy = false := by
  simp [State.inFlightCount]

/-- With nothing scheduled and a command in flight, a step completes one. -/
theorem step_nil_progress {s : State} (ha : s.agenda = []) {n : Nat} (hn : s.inFlightCount = n + 1) :
    ∃ t, step s = .next t ∧ t.agenda = [] ∧ t.inFlightCount = n ∧ s.SameSetup t := by
  cases hfirst : firstBusy s.engines 0 with
  | none => simp [inFlightCount_eq_zero_iff.2 (firstBusy_none hfirst)] at hn
  | some k =>
    obtain ⟨e, f, hk, hf⟩ := exists_of_firstBusy hfirst
    obtain ⟨t, hstep, hag, hcount, hsame⟩ := completionStep_progress hk hf
    exact ⟨t, (step_nil_some ha hfirst).trans hstep, hag.trans ha, by omega, hsame⟩

/-- With nothing scheduled the run ends after as many steps as there are commands in flight. -/
theorem run_ends {n : Nat} {s : State} (ha : s.agenda = []) (hn : s.inFlightCount = n) :
    ∃ t, Sys2Proof.core.run n s = .next t ∧ t.RunEnded ∧ s.SameSetup t ∧ (s.Inv → t.Inv) := by
  induction n generalizing s with
  | zero => exact ⟨s, core_run_zero s, ⟨ha, inFlightCount_eq_zero_iff.1 hn⟩, .refl s, id⟩
  | succ n ih =>
    obtain ⟨t, hstep, hag, hcount, hsame⟩ := step_nil_progress ha hn
    obtain ⟨u, hrun, hend, hsame', hinv⟩ := ih hag hcount
    exact ⟨u, (core_run_succ hstep n).trans hrun, hend, hsame.trans hsame', fun hs => hinv (hs.step hstep)⟩

/-! ### Whatever is scheduled -/

/-- A run from the state comes to a state with engine `k` idle, unless an access without a meaning stops the machine before. -/
def State.ComesToIdle (s : State) (k : Nat) : Prop :=
  ∃ n, (∃ t e, Sys2Proof.core.run n s = .next t ∧ t.engines[k]? = some e ∧ e.busy = false)
    ∨ (∃ r, Sys2Proof.core.run n s = .fault r) ∨ ∃ r, Sys2Proof.core.run n s = .refused r

theorem State.comesToIdle_of_idle {s : State} {k : Nat} {e : Engine} (hk : s.engines[k]? = some e) (hb : e.busy = false) :
    s.ComesToIdle k := ⟨0, .inl ⟨s, e, core_run_zero s, hk, hb⟩⟩

theorem State.comesToIdle_of_step {s : State} {k : Nat} (h : ∀ t, step s = .next t → t.ComesToIdle k) : s.ComesToIdle k := by
  have hone : Sys2Proof.core.run 1 s = step s := by
    simp only [Host.Core.run, show Sys2Proof.core.step = step from rfl]
    cases step s <;> rfl
  cases hs : step s with
  | fault r => exact ⟨1, .inr (.inl ⟨r, hone.trans hs⟩)⟩
  | refused r => exact ⟨1, .inr (.inr ⟨r, hone.trans hs⟩)⟩
  | next t =>
    obtain ⟨n, hn⟩ := h t hs
    refine ⟨n + 1, ?_⟩
    rwa [core_run_succ hs]

/-- Every event but a WAIT leaves the rest of the agenda as it is. -/
theorem step_agenda {s t : State} {ev : Event} {rest : List Event} (ha : s.agenda = ev :: rest)
    (hev : ∀ base, ev ≠ .host (.wait base)) (h : step s = .next t) : t.agenda = rest := by
  rw [step_cons ha] at h
  cases ev with
  | host op =>
    cases op
    case wait base => exact absurd rfl (hev base)
    all_goals
      simp only [eventStep, hostStep, hostRegRead, hostRegWrite, hostMemRead, hostMemWrite] at h
      split at h <;> cases h
      rfl
  | complete k =>
    by_cases hidle : ∀ e, (s.pop rest).engines[k]? = some e → e.busy = false
    · cases (completionStep_of_idle hidle).symm.trans h
      rfl
    · push Not at hidle
      obtain ⟨e, hk, hb⟩ := hidle
      obtain ⟨f, hf⟩ := Option.isSome_iff_exists.1 (Bool.ne_false_iff.1 hb)
      obtain ⟨u, hu, hag, _⟩ := completionStep_progress hk hf
      cases hu.symm.trans h
      exact hag
  | storeEarly k a =>
    cases h
    rcases storeEarly_cases (s.pop rest) k a with ⟨hs, _⟩ | ⟨_, _, _, _, _, _, _, _, _, hs⟩ <;> rw [hs] <;> rfl
  | reset k =>
    cases h
    unfold State.resetEngine
    split <;> rfl

/-- After a poll a busy engine is to complete, where there is one. -/
theorem turnAfterPoll_cases {s : State} {k : Nat} {e : Engine} (hk : s.engines[k]? = some e) :
    (∃ j g, s.engines[j]? = some g ∧ g.busy = true ∧ s.turnAfterPoll k e = [.complete j]) ∨ ∀ g ∈ s.engines, g.busy = false := by
  cases hb : e.busy with
  | true => exact .inl ⟨k, e, hk, hb, if_pos hb⟩
  | false =>
    cases hfirst : firstBusy s.engines 0 with
    | none => exact .inr (firstBusy_none hfirst)
    | some j =>
      obtain ⟨_, g, hj, hg⟩ := firstBusy_some hfirst
      exact .inl ⟨j, g, hj, hg, by simp [State.turnAfterPoll, hb, hfirst]⟩

/-- Everything a poll of a WAIT can do to the agenda: the WAIT ends; it goes on once a busy engine has completed; or no engine is
busy. -/
theorem step_wait_cases {s t : State} {base : Nat} {rest : List Event} (ha : s.agenda = .host (.wait base) :: rest)
    (h : step s = .next t) : t.engines = s.engines ∧ (t.agenda = rest
      ∨ (∃ j e, s.engines[j]? = some e ∧ e.busy = true ∧ t.agenda = .complete j :: s.agenda)
      ∨ ∀ e ∈ s.engines, e.busy = false) := by
  rw [step_cons ha] at h
  simp only [eventStep, hostStep, hostWait] at h
  split at h
  · cases h
  · rename_i k e off ht
    cases h
    refine ⟨rfl, ?_⟩
    by_cases hv : (e.readOffset s.draws off).getLsbD 0 = true
    · rcases turnAfterPoll_cases (s := s.pop rest) (busTarget_ok ht).2.2.1 with ⟨j, g, hj, hg, hturn⟩ | hidle
      · exact .inr (.inl ⟨j, g, hj, hg, by rw [if_pos hv, hturn, ha]; rfl⟩)
      · exact .inr (.inr hidle)
    · exact .inl (if_neg hv)

/-- By induction on the agenda, and for the polls of a WAIT on the number of commands in flight. -/
theorem comesToIdle_of_agenda {k : Nat} {ag : List Event} {s : State} (ha : s.agenda = ag) {e : Engine}
    (hk : s.engines[k]? = some e) : s.ComesToIdle k := by
  induction ag generalizing s e with
  | nil =>
    obtain ⟨t, hrun, hend, hsame, _⟩ := run_ends ha rfl
    have hlt : k < t.engines.length := by
      have hlen : t.engines.length = s.engines.length := by simpa using congrArg List.length hsame.regBases
      rw [hlen]
      exact (List.getElem?_eq_some_iff.1 hk).1
    exact ⟨_, .inl ⟨t, _, hrun, List.getElem?_eq_getElem hlt, hend.2 _ (List.getElem_mem hlt)⟩⟩
  | cons ev rest ih =>
    by_cases hev : ∃ base, ev = .host (.wait base)
    case neg =>
      refine State.comesToIdle_of_step fun t ht => ?_
      obtain ⟨_, hk', _⟩ := step_engine ht hk
      exact ih (step_agenda ha (fun base h => hev ⟨base, h⟩) ht) hk'
    case pos =>
      obtain ⟨base, rfl⟩ := hev
      induction hn : s.inFlightCount generalizing s e with
      | zero => exact State.comesToIdle_of_idle hk (inFlightCount_eq_zero_iff.1 hn e (List.mem_of_getElem? hk))
      | succ n ihn =>
        refine State.comesToIdle_of_step fun t ht => ?_
        obtain ⟨_, hk', _⟩ := step_engine ht hk
        obtain ⟨hes, hag | ⟨j, g, hj, hb, hag⟩ | hidle⟩ := step_wait_cases ha ht
        · exact ih hag hk'
        · obtain ⟨f, hf⟩ := Option.isSome_iff_exists.1 hb
          obtain ⟨u, hu, huag, hcount, _⟩ := completionStep_progress (s := t.pop s.agenda) (hes ▸ hj) hf
          have htu : step t = .next u := (step_cons hag).trans hu
          have hcount' : (t.pop s.agenda).inFlightCount = s.inFlightCount := by simp [State.inFlightCount, hes]
          obtain ⟨_, hk'', _⟩ := step_engine htu hk'
          refine State.comesToIdle_of_step fun u' hu' => ?_
          cases htu.symm.trans hu'
          exact ihn hk'' (huag.trans ha) (by omega)
        · simp [inFlightCount_eq_zero_iff.2 hidle] at hn

/-- Settles O8, by `comesToIdle_of_agenda` and `run_ends`; at the end no load waits any more, by the invariant. -/
theorem everyAcceptedCommandCompletes : Obligations.EveryAcceptedCommandCompletes := by
  refine ⟨fun s k e hk _ => comesToIdle_of_agenda rfl hk, fun s ha => ?_⟩
  obtain ⟨t, hrun, hend, hsame, hinv⟩ := run_ends ha rfl
  refine ⟨t, hrun, hend, ?_, hsame.regBases, hsame.memSize, hsame.vars, hsame.bufNames,
    fun hs => (hinv hs).loads.known hend.2⟩
  simpa using congrArg List.length hsame.regBases

end Sys2Proof.Machine
end
